-- ==== Sys2Proof/Word.lean ====
section
/-!
DEFINITION. The widths of the machine's words (spec/00_scope.md R7, R8; spec/10_state.md R20).
-/

namespace Sys2Proof

/-- A 32-bit register value or container field (R7: INT_W, CNT_W, LEN_W). -/
abbrev Word := BitVec 32

/-- A byte of IN or OUT, which is also a symbol (R7: SYM_W). -/
abbrev Byte := BitVec 8

/-- The index of a record of NODE (R41). -/
abbrev NodeIdx := BitVec 9

/-- The index of a record of TNODE (R44). -/
abbrev TrieIdx := BitVec 14

end Sys2Proof
end

