-- ==== Sys2Proof/Syntax.lean ====
section
/-!
DEFINITION. The command set (spec/30_encoding.md R92): the twelve words a host may write to CMD. No command has an operand
in its word (R90), so no constructor has an argument.
-/

namespace Sys2Proof

/-- R92: one constructor for each row of spec/opcode_table.json. -/
inductive Instr where
  | nop
  | clr
  | freq
  | build
  | assign
  | wrhdr
  | pack
  | encode
  | rdhdr
  | dwalk
  | decode
  | ack
deriving DecidableEq, Repr, Inhabited

end Sys2Proof
end

