-- ==== Sys2Proof/WellFormed.lean ====
section
/-!
DEFINITION. Well-formedness. A command has no operand, so every term of `Instr` is well formed (spec/30_encoding.md R90).
What can be ill formed is a command WORD: R91 gives the two checks, here as two Booleans.
-/

namespace Sys2Proof

/-- Every command is well formed: it has no operand to be out of range (R90). -/
def Instr.wf (_ : Instr) : Bool := true

/-- R90, field ZERO: bits [31:4] must be 0. -/
def zeroFieldWf (w : Word) : Bool := w.extractLsb' 4 28 == 0

/-- R91: the opcode in bits [3:0] must be at most 11. -/
def opcodeWf (w : Word) : Bool := (w.extractLsb' 0 4).toNat ≤ 11

/-- R91: a word is one of the twelve commands exactly when ZERO = 0 and OP ≤ 11. -/
def commandWordWf (w : Word) : Bool := zeroFieldWf w && opcodeWf w

end Sys2Proof
end

