-- ==== Sys2Proof/Decode.lean ====
section
/-!
DEFINITION. The decoder of the command word, total on all 2^32 words (spec/30_encoding.md R91), and after it the encoder.
-/

namespace Sys2Proof

/-- Why a word is illegal (R93). -/
inductive DecodeReject where
  /-- One of the bits [31:4] is set. -/
  | reservedBits
  /-- The opcode is 12 to 15. -/
  | reservedOpcode
deriving DecidableEq, Repr, Inhabited

/-- R92: the command an opcode names; R93: the opcodes 12 to 15 name none. -/
def Instr.ofOpcode (op : BitVec 4) : Option Instr :=
  match op.toNat with
  | 0 => some .nop
  | 1 => some .clr
  | 2 => some .freq
  | 3 => some .build
  | 4 => some .assign
  | 5 => some .wrhdr
  | 6 => some .pack
  | 7 => some .encode
  | 8 => some .rdhdr
  | 9 => some .dwalk
  | 10 => some .decode
  | 11 => some .ack
  | _ => none

/-- R91: ZERO is tested first, then the opcode is looked up. No state is needed. -/
def decodeWord (w : Word) : Except DecodeReject Instr :=
  if w.extractLsb' 4 28 ≠ 0 then .error .reservedBits
  else
    match Instr.ofOpcode (w.extractLsb' 0 4) with
    | some i => .ok i
    | none => .error .reservedOpcode

/-- spec/opcode_table.json numbers the bits of a command word as R8 does, so the number `w` is the word itself. A command
has 32 bits; the bits above `nbits` are 0 (log 20). -/
def decodeTableWord (nbits w : Nat) : Option Instr :=
  if 32 < nbits then none
  else
    match decodeWord (BitVec.ofNat 32 (w % 2 ^ nbits)) with
    | .ok i => some i
    | .error _ => none

/-- R92: the opcode of a command. -/
def Instr.opcode : Instr → BitVec 4
  | .nop => 0
  | .clr => 1
  | .freq => 2
  | .build => 3
  | .assign => 4
  | .wrhdr => 5
  | .pack => 6
  | .encode => 7
  | .rdhdr => 8
  | .dwalk => 9
  | .decode => 10
  | .ack => 11

/-- R90, R92: the word of a command, ZERO above OP. -/
def encode (i : Instr) : Word := (0 : BitVec 28) ++ i.opcode

end Sys2Proof
end

