-- ==== Sys2Proof/Machine/Datapath.lean ====
section
/-!
DEFINITION. The datapath: the tables, memories and registers of the units TB, ENC and DEC (spec/10_state.md R38 to R50),
in one record, because it is exactly what a fault leaves unspecified (R52) and exactly what a phase may change (R66).
-/

namespace Sys2Proof.Machine

/-- R41, field `kind`. -/
inductive NodeKind where
  | free
  | leaf
  | internal
  | placeholder
deriving DecidableEq, Repr, Inhabited

/-- A record of the tree builder's node memory NODE (R41). -/
structure Node where
  kind : NodeKind
  sym : Byte
  weight : Word
  left : NodeIdx
  right : NodeIdx
deriving DecidableEq, Repr, Inhabited

/-- A record of the decoder's trie memory TNODE (R44). -/
structure TNode where
  leaf : Bool
  sym : Byte
  left : TrieIdx
  right : TrieIdx
deriving DecidableEq, Repr, Inhabited

/-- A byte memory (IN or OUT, R49): the bytes written since its content was last unspecified, addresses strictly rising.
An unlisted address reads as the free value of `epoch` (log 2). -/
structure Memory where
  cells : List Host.Cell
  epoch : Nat
deriving DecidableEq, Repr, Inhabited

/-- The trie memory TNODE (R44) in the same form: the records written, indices strictly rising (log 3). -/
structure TrieMem where
  cells : List (Nat × TNode)
  epoch : Nat
deriving DecidableEq, Repr, Inhabited

/-- R45: the walk states. The value 3 of the two bits is never taken. -/
inductive DState where
  | atRoot
  | atInternal
  | atLeaf
deriving DecidableEq, Repr, Inhabited

/-- An entry of the code assigner's traversal stack (R50): the node, and the path's (len, val). -/
structure PathEntry where
  node : NodeIdx
  len : BitVec 6
  val : Word
deriving DecidableEq, Repr, Inhabited

/-- FREQ and CODE_VAL: one word for each symbol (R40, R43). -/
abbrev WordTable := Vector Word 256

/-- CODE_LEN: six bits for each symbol (R43). -/
abbrev LenTable := Vector (BitVec 6) 256

/-- NODE: 511 records (R41). -/
abbrev NodeTable := Vector Node 511

/-- The tables, memories and registers of the three units. -/
structure Datapath where
  /-- OUT (R49): the core writes it, the host reads it. -/
  out : Memory
  /-- FREQ (R40). -/
  freq : WordTable
  /-- NODE (R41). -/
  node : NodeTable
  /-- NSYMS (R38). -/
  nsyms : BitVec 9
  /-- NNODES (R38). -/
  nnodes : BitVec 9
  /-- ROOT (R38). -/
  root : NodeIdx
  /-- PQ (R42): a set of node indices, kept as the list of its members in rising order (log 21). -/
  pq : List NodeIdx
  /-- The traversal stack of ASSIGN (R50; log 5). -/
  stack : List PathEntry
  /-- CODE_LEN (R43). -/
  codeLen : LenTable
  /-- CODE_VAL (R43). -/
  codeVal : WordTable
  /-- RP (R28): the index of the next byte of IN to read. -/
  rp : Word
  /-- WP (R28): the index of the next byte of OUT to write. -/
  wp : Word
  /-- ACC (R46): the packer's shift register. -/
  acc : Byte
  /-- NB (R46): how many bits ACC holds. -/
  nb : BitVec 4
  /-- CSR (R46): the code being sent. -/
  csr : Word
  /-- CREM (R46): how many bits of CSR are still to send. -/
  crem : BitVec 6
  /-- PAD (R38). -/
  pad : BitVec 3
  /-- TNODE (R44). -/
  tnode : TrieMem
  /-- TNN (R44): the number of records of TNODE in use. -/
  tnn : BitVec 14
  /-- DA (R47): the alphabet size read from the header. -/
  da : BitVec 9
  /-- DH (R47): the header length in bytes. -/
  dh : BitVec 12
  /-- USR (R47): the unpacker's shift register. -/
  usr : Byte
  /-- UB (R47): how many unconsumed bits USR holds. -/
  ub : BitVec 4
  /-- BITS_LEFT (R47): how many payload bits remain. -/
  bitsLeft : BitVec 35
  /-- CUR (R45): the trie node the walk stands on. -/
  cur : TrieIdx
  /-- DSTATE (R45). -/
  dstate : DState
deriving DecidableEq, Repr, Inhabited

end Sys2Proof.Machine
end

