-- ==== Sys2Proof/Config.lean ====
section
/-!
DEFINITION. What an instance of the core fixes (spec/00_scope.md R7: IN_CAP and OUT_CAP are OPEN) and the free values the
spec leaves unspecified (spec/93_implementation_defined.md U5, U6, U12). None of these constants has a body, so a statement
about the model holds whatever they are. A Nat argument named `n` below is an epoch: State's counter makes each one new.
-/

namespace Sys2Proof.Config

/-- IN_CAP − 1 (R7: 1 ≤ IN_CAP ≤ 2^32 − 1). -/
opaque inCapPred : Fin 4294967295

/-- OUT_CAP − 1 (R7: 1 ≤ OUT_CAP ≤ 2^32 − 1). -/
opaque outCapPred : Fin 4294967295

/-- IN_CAP, the capacity of the input buffer (R7; log 1). -/
def inCap : Nat := inCapPred.val + 1

/-- OUT_CAP, the capacity of the output buffer (R7; log 1). -/
def outCap : Nat := outCapPred.val + 1

/-- U5, U12: the byte at address `a` of a buffer whose content is unspecified since epoch `n` (log 2, log 4). -/
opaque freeByte (n : Nat) (a : Nat) : Byte

/-- U12: the record `j` of a trie memory that is unspecified since epoch `n` (log 3, log 4). -/
opaque freeTNode (n : Nat) (j : Nat) : Machine.TNode

/-- U5: what the datapath holds after the fault of epoch `n` (log 4). -/
opaque freeDatapath (n : Nat) : Machine.Datapath

/-- U6: what a read at register offset `off` returns while BUSY = 1 (log 13). -/
opaque freeRead (n : Nat) (off : Nat) : Word

end Sys2Proof.Config
end

