-- ==== Sys2Proof/Machine/State.lean ====
section
/-!
DEFINITION. The state of one core, its instance parameters and the host's pending accesses, as plain data
(spec/10_state.md R20); the state after reset (R51); the reasons a step can stop.
-/

namespace Sys2Proof.Machine

/-- The nine flags of STATUS (R29, R33). -/
structure Status where
  busy : Bool
  done : Bool
  err : Bool
  dropped : Bool
  treeValid : Bool
  codeValid : Bool
  hdrDone : Bool
  trieValid : Bool
  outValid : Bool
deriving DecidableEq, Repr, Inhabited

/-- The phases of R27. -/
inductive Phase where
  | clr
  | freq
  | build
  | assign
  | wrhdr
  | pack
  | rdhdr
  | dwalk
deriving DecidableEq, Repr, Inhabited

/-- SEQ (R27): IDLE, or RUN of a phase. -/
inductive Seq where
  | idle
  | run (p : Phase)
deriving DecidableEq, Repr, Inhabited

/-- The hardware's faults (spec/60_exceptions.md R220). They are the machine's exceptions: each one ends in a next state. -/
inductive HwFault where
  | emptyInput
  | emptyAlphabet
  | corruptHeader
  | invalidPadding
  | corruptContainer
  | codeTooLong
  | outputOverflow
  | illegalCommand
  | noCode
deriving DecidableEq, Repr, Inhabited

/-- What the outside world does to the core (spec/30_encoding.md R105; spec/70_reset_and_hazards.md R260; log 8). -/
inductive HostMove where
  /-- A 32-bit write of REG. A write of CMD is taken as one step, from acceptance to completion (R11). -/
  | regWrite (off : Nat) (v : Word)
  /-- A 32-bit read of REG. -/
  | regRead (off : Nat)
  /-- A byte write of IN. -/
  | inWrite (a : Nat) (b : Byte)
  /-- A byte read of IN. -/
  | inRead (a : Nat)
  /-- A byte read of OUT. -/
  | outRead (a : Nat)
  /-- A write of CMD taken in phase steps (R11, R276): an operational command is accepted and stays BUSY. -/
  | startCommand (w : Word)
  /-- No host access: the sequencer runs its next phase if it is not IDLE. -/
  | wait
  /-- Hardware reset. -/
  | hwReset
deriving DecidableEq, Repr, Inhabited

structure State where
  /-- STATUS (R33). -/
  status : Status
  /-- ERRCODE (R34). -/
  errcode : BitVec 4
  /-- IN_LEN (R35). -/
  inLen : Word
  /-- OUT_LEN (R36). -/
  outLen : Word
  /-- CTRL.IE (R37). -/
  ie : Bool
  /-- SEQ (R27). -/
  seq : Seq
  /-- OPL (R27). -/
  opl : BitVec 4
  /-- The tables, memories and registers of the units, OUT among them (R38 to R50). -/
  dp : Datapath
  /-- IN (R49): the host writes it, the core reads it. -/
  inp : Memory
  /-- IN_CAP, this instance's parameter (R7; log 1). -/
  inCap : Nat
  /-- OUT_CAP, this instance's parameter (R7; log 1). -/
  outCap : Nat
  /-- The model's own: the next epoch of free values (log 6). -/
  fresh : Nat
  /-- The model's own: the value the last host read returned (log 6). -/
  rdata : Word
  /-- The model's own: the host's pending accesses, the next one first (log 7). -/
  host : List HostMove
deriving DecidableEq, Repr, Inhabited

/-- Why a step stops with a fault OF THE MODEL. None of them is a fault of the hardware (those are `HwFault`). -/
inductive Fault where
  /-- Raised by ASSIGN (and ENCODE): the walk met a FREE record, or the index 511. R161: "cannot occur while
  TREE_VALID = 1". Safe: only states that no run from reset reaches (log 10). -/
  | freeNodeVisited
  /-- Raised by the sequencer: SEQ and OPL name no phase of a command. R27 rules such states out. Safe (log 11). -/
  | badSequencer
  /-- Raised by DWALK (and DECODE): the walk came to a trie index that is not below TRIE_CAP, where TNODE has no record (R44).
  R197: such an index never arises. Safe: only states that no run from reset reaches (log 22). -/
  | noSuchTrieRecord
  /-- Raised by a host access of IN at an index that is not below IN_CAP (R49). Safe (log 12). -/
  | noSuchInByte
  /-- Raised by a host read of OUT at an index that is not below OUT_CAP (R49). Safe (log 12). -/
  | noSuchOutByte
deriving DecidableEq, Repr, Inhabited

/-- Why a step has no meaning. -/
inductive Refusal where
  /-- An instruction with no meaning yet. Safe. -/
  | notModelled (mnemonic : String)
  /-- A REG access that is not 4-aligned or at an offset of 0x2000 or above (spec/93 U9: refuse). Safe (log 12). -/
  | badRegAccess
  /-- A host access of IN or OUT while BUSY = 1 (spec/93 U7: refuse). Safe (log 12). -/
  | bufferWhileBusy
deriving DecidableEq, Repr, Inhabited

/-- How a phase ends early. -/
inductive Stop where
  /-- `raise X` of the spec's pseudocode (R10). -/
  | raise (e : HwFault)
  /-- The model has no next state. -/
  | stuck (f : Fault)
deriving DecidableEq, Repr, Inhabited

/-- What a phase may read besides the datapath: IN and IN_LEN (R49), and the parameter OUT_CAP. -/
structure Env where
  inp : Memory
  inLen : Word
  outCap : Nat
deriving DecidableEq, Repr, Inhabited

/-- The environment of the phases in a state. -/
def State.env (s : State) : Env := ⟨s.inp, s.inLen, s.outCap⟩

/-- All nine flags 0. -/
def Status.zero : Status := ⟨false, false, false, false, false, false, false, false, false⟩

/-- A FREE record: all fields 0 (R41). -/
def Node.empty : Node := ⟨.free, 0, 0, 0, 0⟩

/-- The reset values of the datapath (R51). OUT and TNODE are unspecified there (U12), so they are arguments. -/
def Datapath.cleared (out : Memory) (tnode : TrieMem) : Datapath where
  out := out
  freq := Vector.replicate 256 0
  node := Vector.replicate 511 Node.empty
  nsyms := 0
  nnodes := 0
  root := 0
  pq := []
  stack := []
  codeLen := Vector.replicate 256 0
  codeVal := Vector.replicate 256 0
  rp := 0
  wp := 0
  acc := 0
  nb := 0
  csr := 0
  crem := 0
  pad := 0
  tnode := tnode
  tnn := 0
  da := 0
  dh := 0
  usr := 0
  ub := 0
  bitsLeft := 0
  cur := 0
  dstate := .atRoot

/-- R51: the state after hardware reset. IN, OUT and TNODE are unspecified: nothing is listed (log 2, log 3). -/
def State.reset : State where
  status := Status.zero
  errcode := 0
  inLen := 0
  outLen := 0
  ie := false
  seq := .idle
  opl := 0
  dp := Datapath.cleared ⟨[], 1⟩ ⟨[], 0⟩
  inp := ⟨[], 0⟩
  inCap := Config.inCap
  outCap := Config.outCap
  fresh := 2
  rdata := 0
  host := []

end Sys2Proof.Machine
end

