-- ==== Sys2Proof/Machine/Flags.lean ====
section
/-!
DEFINITION. The flags: the STATUS word and the irq line, and the table of spec/40_control.md R121 (what each command needs,
what it clears at acceptance, what it sets at success).
-/

namespace Sys2Proof.Machine

/-- One flag at its bit of STATUS. -/
def flagBit (b : Bool) (k : Nat) : Word := if b then 1#32 <<< k else 0

/-- R33: STATUS as the host reads it; bits [31:9] read 0. -/
def Status.toWord (f : Status) : Word :=
  flagBit f.busy 0 ||| flagBit f.done 1 ||| flagBit f.err 2 ||| flagBit f.dropped 3 |||
    flagBit f.treeValid 4 ||| flagBit f.codeValid 5 ||| flagBit f.hdrDone 6 ||| flagBit f.trieValid 7 |||
    flagBit f.outValid 8

/-- R232: irq = CTRL.IE ∧ STATUS.DONE, a level. -/
def State.irq (s : State) : Bool := s.ie && s.status.done

/-- R220: the code of a fault in ERRCODE. -/
def HwFault.code : HwFault → BitVec 4
  | .emptyInput => 1
  | .emptyAlphabet => 2
  | .corruptHeader => 3
  | .invalidPadding => 4
  | .corruptContainer => 5
  | .codeTooLong => 6
  | .outputOverflow => 7
  | .illegalCommand => 8
  | .noCode => 9

/-- R122: every command but NOP and ACK is operational. -/
def operational : Instr → Bool
  | .nop | .ack => false
  | _ => true

/-- R120 step 2: the commands taken while ERR = 1. -/
def takenInFault : Instr → Bool
  | .nop | .ack | .clr => true
  | _ => false

/-- R121: the commands with the prerequisite IN_LEN ≤ IN_CAP. -/
def readsIn : Instr → Bool
  | .freq | .pack | .encode | .rdhdr | .dwalk | .decode => true
  | _ => false

/-- R121: the validity flag a command needs. -/
def neededFlag (c : Instr) (f : Status) : Bool :=
  match c with
  | .assign => f.treeValid
  | .wrhdr => f.codeValid
  | .pack => f.hdrDone
  | .dwalk => f.trieValid
  | _ => true

/-- R121, column "prerequisites". -/
def prerequisite (c : Instr) (s : State) : Bool :=
  neededFlag c s.status && (!readsIn c || decide (s.inLen.toNat ≤ s.inCap))

/-- R121, column "cleared at acceptance". -/
def clearAtAcceptance (c : Instr) (f : Status) : Status :=
  match c with
  | .clr => { f with treeValid := false, codeValid := false, hdrDone := false, trieValid := false, outValid := false }
  | .freq | .build | .encode => { f with treeValid := false, codeValid := false, hdrDone := false, outValid := false }
  | .assign => { f with codeValid := false, hdrDone := false, outValid := false }
  | .wrhdr => { f with hdrDone := false, outValid := false }
  | .pack => { f with outValid := false }
  | .rdhdr => { f with trieValid := false, outValid := false }
  | .dwalk => { f with hdrDone := false, outValid := false }
  | .decode => { f with trieValid := false, hdrDone := false, outValid := false }
  | .nop | .ack => f

/-- R121, column "set at success". -/
def setAtSuccess (c : Instr) (f : Status) : Status :=
  match c with
  | .build => { f with treeValid := true }
  | .assign => { f with codeValid := true }
  | .wrhdr => { f with hdrDone := true }
  | .pack => { f with outValid := true }
  | .encode => { f with treeValid := true, codeValid := true, hdrDone := true, outValid := true }
  | .rdhdr => { f with trieValid := true }
  | .dwalk => { f with outValid := true }
  | .decode => { f with trieValid := true, outValid := true }
  | .clr | .freq | .nop | .ack => f

/-- R121, last column: OUT_LEN at success, the final WP or 0. -/
def outLenAtSuccess (c : Instr) (d : Datapath) : Word :=
  match c with
  | .pack | .encode | .dwalk | .decode => d.wp
  | _ => 0

/-- R129: inside a composite command, the flag a phase sets when it ends. PACK and DWALK are last phases: their flag is set
at completion (R130). That State holds the flag from then on while a host's STATUS read does not show it is the model's choice
(log 23): see `State.shownStatus`. -/
def setAtPhaseEnd (p : Phase) (f : Status) : Status :=
  match p with
  | .build => { f with treeValid := true }
  | .assign => { f with codeValid := true }
  | .wrhdr => { f with hdrDone := true }
  | .rdhdr => { f with trieValid := true }
  | .clr | .freq | .pack | .dwalk => f

/-- R129: the phases of a command, in order. -/
def phasesOf : Instr → List Phase
  | .nop | .ack => []
  | .clr => [.clr]
  | .freq => [.freq]
  | .build => [.build]
  | .assign => [.assign]
  | .wrhdr => [.wrhdr]
  | .pack => [.pack]
  | .encode => [.freq, .build, .assign, .wrhdr, .pack]
  | .rdhdr => [.rdhdr]
  | .dwalk => [.dwalk]
  | .decode => [.rdhdr, .dwalk]

/-- What a read of STATUS shows. With BUSY = 0 the present flags (R33). With BUSY = 1 the flags as acceptance left them (R124):
those that the running command cleared at acceptance show 0, though a phase that has ended has set some of them (R129).
DESIGN CHOICE between R124 and R129 with R33 (log 23). DROPPED is always shown as it is (R131). -/
def State.shownStatus (s : State) : Status :=
  if s.status.busy then
    match Instr.ofOpcode s.opl with
    | some c => clearAtAcceptance c s.status
    | none => s.status
  else s.status

end Sys2Proof.Machine
end

