-- ==== Sys2Proof/Machine/Operands.lean ====
section
/-!
DEFINITION. The implicit operands of the commands: the bytes and words of IN, the table entries, and how a 32-bit container
field is split and assembled (spec/20_memory.md R62; spec/30_encoding.md R100). And the sparse lists behind IN, OUT and TNODE.
-/

namespace Sys2Proof.Machine

/-- The value listed for key `k`, if any. -/
def lookup {α : Type} : List (Nat × α) → Nat → Option α
  | [], _ => none
  | (j, v) :: l, k => if j = k then some v else lookup l k

/-- List `v` for key `k` in a list of rising keys: in place of the old entry, or at its place in the order. -/
def insert {α : Type} : List (Nat × α) → Nat → α → List (Nat × α)
  | [], k, v => [(k, v)]
  | (j, w) :: l, k, v =>
    if k < j then (k, v) :: (j, w) :: l
    else if k = j then (k, v) :: l
    else (j, w) :: insert l k v

/-- The keys of the list are strictly rising. -/
def rising {α : Type} : List (Nat × α) → Bool
  | [] => true
  | [_] => true
  | (j, _) :: (k, v) :: l => decide (j < k) && rising ((k, v) :: l)

/-- What an unlisted address of a byte memory reads as: a free value (log 2). -/
def Memory.unlisted (m : Memory) (a : Nat) : Byte := Config.freeByte m.epoch a

/-- One byte of a memory. -/
def Memory.read (m : Memory) (a : Nat) : Byte := (lookup m.cells a).getD (m.unlisted a)

/-- Write one byte of a memory. -/
def Memory.write (m : Memory) (a : Nat) (v : Byte) : Memory := { m with cells := insert m.cells a v }

/-- The canonical form of a memory: addresses strictly rising (log 2). -/
def Memory.wf (m : Memory) : Bool := rising m.cells

/-- TRIE_CAP, the number of records of TNODE: j = 0..8192 (R7, R44, R197). -/
def trieCap : Nat := 8193

/-- A record of TNODE; a record that nothing has written is a free value (log 3). There is none from TRIE_CAP on: see
`walkStep`. -/
def TrieMem.read (m : TrieMem) (j : TrieIdx) : TNode :=
  (lookup m.cells j.toNat).getD (Config.freeTNode m.epoch j.toNat)

/-- Write a record of TNODE. From TRIE_CAP on there is no record to write, a case that never arises (R197; log 22). -/
def TrieMem.write (m : TrieMem) (j : TrieIdx) (r : TNode) : TrieMem :=
  if j.toNat < trieCap then { m with cells := insert m.cells j.toNat r } else m

/-- The canonical form of a trie memory: indices strictly rising (log 3), all below TRIE_CAP (R44). -/
def TrieMem.wf (m : TrieMem) : Bool := rising m.cells && m.cells.all (fun c => decide (c.1 < trieCap))

/-- MemRead(IN, a, 4) (R10, R62, R100): four byte reads, the byte at the lowest address least significant. -/
def Memory.read32 (m : Memory) (a : Nat) : Word :=
  (m.read (a + 3) ++ m.read (a + 2)) ++ (m.read (a + 1) ++ m.read a)

/-- R62, R100: a 32-bit field as its four bytes, least significant first. -/
def le32 (v : Word) : List Byte :=
  [v.extractLsb' 0 8, v.extractLsb' 8 8, v.extractLsb' 16 8, v.extractLsb' 24 8]

/-- s32(v) (R10): the field read as a two's complement number. -/
def s32 (v : Word) : Int := v.toInt

/-- MemRead(IN, a, 1) (R10). -/
def Env.inByte (e : Env) (a : Word) : Byte := e.inp.read a.toNat

/-- The entry of symbol `b` in a table of 256 entries (R10: FREQ[s], CODE_LEN[s], CODE_VAL[s]). -/
def entry {α : Type} (t : Vector α 256) (b : Byte) : α := t[b.toNat]'b.isLt

/-- Write the entry of symbol `b`. -/
def setEntry {α : Type} (t : Vector α 256) (b : Byte) (v : α) : Vector α 256 := t.set b.toNat v b.isLt

/-- NODE[i]. There is no record 511: the index 511 gives none. -/
def nodeAt (t : NodeTable) (i : NodeIdx) : Option Node := t[i.toNat]?

end Sys2Proof.Machine
end

