-- ==== Sys2Proof/Machine/Ops.lean ====
section
/-!
DEFINITION. The operations every command shares: the write of a byte of OUT, acceptance and completion
(spec/40_control.md R123, R130), taking a fault and the return from it (spec/60_exceptions.md R240, R245), and how a command
runs its phases (R129).
-/

namespace Sys2Proof.Machine

/-- Run `f` up to `n` times, until it stops. -/
def loop {α ε : Type} (f : α → Except ε α) : Nat → α → Except ε α
  | 0, a => .ok a
  | n + 1, a =>
    match f a with
    | .ok b => loop f n b
    | .error x => .error x

/-- put8 (spec/43_encoder.md, head; R68): the byte goes to OUT[WP] unless WP is not below OUT_CAP (log 18). -/
def put8 (e : Env) (v : Byte) (d : Datapath) : Except Stop Datapath :=
  if e.outCap ≤ d.wp.toNat then .error (.raise .outputOverflow)
  else .ok { d with out := d.out.write d.wp.toNat v, wp := d.wp + 1 }

/-- put8 of one byte after the other. -/
def putAll (e : Env) : List Byte → Datapath → Except Stop Datapath
  | [], d => .ok d
  | v :: vs, d =>
    match put8 e v d with
    | .ok d' => putAll e vs d'
    | .error x => .error x

/-- A host write is lost (R120 steps 1 and 2, R131): DROPPED <- 1. -/
def drop (s : State) : State := { s with status := { s.status with dropped := true } }

/-- R123: acceptance of the operational command `c`. -/
def accept (c : Instr) (s : State) : State :=
  { s with
    status := { clearAtAcceptance c s.status with busy := true, done := false, outValid := false }
    outLen := 0
    opl := c.opcode
    seq := match phasesOf c with
      | [] => .idle
      | p :: _ => .run p }

/-- R130, and R128 for CLR: completion of the operational command `c`. For CLR this is also the return from the fault state
(R245). -/
def complete (c : Instr) (s : State) : State :=
  { s with
    status :=
      let f := { setAtSuccess c s.status with busy := false, done := true }
      if c = .clr then { f with err := false, dropped := false } else f
    errcode := if c = .clr then 0 else s.errcode
    outLen := outLenAtSuccess c s.dp
    seq := .idle
    opl := 0 }

/-- R52, U5: what the datapath holds after the fault of epoch `n`: nothing in it is specified (log 4). -/
def Datapath.unspecified (n : Nat) : Datapath :=
  { Config.freeDatapath n with out := ⟨[], n⟩, tnode := ⟨[], n⟩ }

/-- R240: fault entry. DROPPED, IN_LEN, CTRL and IN are kept; the datapath becomes unspecified (R52; log 4). -/
def faultEntry (x : HwFault) (s : State) : State :=
  { s with
    status :=
      { s.status with
        busy := false, done := true, err := true
        treeValid := false, codeValid := false, hdrDone := false, trieValid := false, outValid := false }
    errcode := x.code
    outLen := 0
    seq := .idle
    opl := 0
    dp := Datapath.unspecified s.fresh
    fresh := s.fresh + 1 }

/-- A phase: the datapath at its end, or why it stopped. -/
abbrev PhaseFn := Env → Datapath → Except Stop Datapath

/-- R129: the phase `p` has ended and the phases `ps` are to come. Its flag is set, and SEQ goes on. A STATUS read does not
show that flag before completion: the model's choice (log 23). -/
def endPhase (p : Phase) (ps : List Phase) (d : Datapath) (s : State) : State :=
  { s with
    dp := d
    status := setAtPhaseEnd p s.status
    seq := match ps with
      | [] => s.seq
      | q :: _ => .run q }

/-- R129, R130, R240: run the phases of the accepted command `c` one after the other, then complete; a fault ends the
command (log 19). -/
def runPhases (c : Instr) : List (Phase × PhaseFn) → State → Host.Outcome State Fault Refusal
  | [], s => .next (complete c s)
  | (p, f) :: ps, s =>
    match f s.env s.dp with
    | .ok d => runPhases c ps (endPhase p (ps.map Prod.fst) d s)
    | .error (.raise x) => .next (faultEntry x s)
    | .error (.stuck x) => .fault x

/-- R120: what a write of the operational command `c` to CMD comes to before its first phase runs: `inl` when it is settled
(dropped, or refused with IllegalCommand), `inr` when it is accepted. -/
def offer (c : Instr) (s : State) : State ⊕ State :=
  if s.status.busy then .inl (drop s)
  else if s.status.err && !takenInFault c then .inl (drop s)
  else if prerequisite c s then .inr (accept c s)
  else .inl (faultEntry .illegalCommand s)

/-- R120: a write of the operational command `c` to CMD, as one step from acceptance to completion or fault (R11). -/
def command (c : Instr) (fs : List (Phase × PhaseFn)) (s : State) : Host.Outcome State Fault Refusal :=
  match offer c s with
  | .inl s' => .next s'
  | .inr s' => runPhases c fs s'

/-- R120 steps 1, 2 and 5: a write of an illegal word to CMD (R93). -/
def illegalWord (s : State) : State :=
  if s.status.busy then drop s
  else if s.status.err then drop s
  else faultEntry .illegalCommand s

end Sys2Proof.Machine
end

