-- ==== Sys2Proof/Machine/Control.lean ====
section
/-!
DEFINITION. The control commands NOP, ACK and CLR (spec/40_control.md R126 to R128).
-/

namespace Sys2Proof.Machine

/-- A write of NOP to CMD (R120 steps 1 and 3, R126): with BUSY = 0 it changes no state at all. -/
def nopWritten (s : State) : State := if s.status.busy then drop s else s

/-- A write of ACK to CMD (R120 steps 1 and 4, R127): DONE <- 0, DROPPED <- 0. -/
def ackWritten (s : State) : State :=
  if s.status.busy then drop s
  else { s with status := { s.status with done := false, dropped := false } }

/-- R128: every table and register of the datapath at its reset value; OUT and TNODE keep what they hold (log 4, log 5). -/
def phaseClr : PhaseFn := fun _ d => .ok (Datapath.cleared d.out d.tnode)

/-- NOP (R126). -/
def execNop (s : State) : Host.Outcome State Fault Refusal := .next (nopWritten s)

/-- ACK (R127). -/
def execAck (s : State) : Host.Outcome State Fault Refusal := .next (ackWritten s)

/-- CLR (R128). -/
def execClr (s : State) : Host.Outcome State Fault Refusal := command .clr [(.clr, phaseClr)] s

end Sys2Proof.Machine
end

