-- ==== Sys2Proof/Machine/Decoder.lean ====
section
/-!
DEFINITION. The unit DEC: the header reader and trie builder RDHDR, the bit-unpacker and walk DWALK, and the composite DECODE
(spec/44_decoder.md).
-/

namespace Sys2Proof.Machine

/-- The trie under construction: TNODE and TNN. -/
structure Trie where
  mem : TrieMem
  tnn : BitVec 14
deriving DecidableEq, Repr, Inhabited

/-- A record with no child and no symbol (R191, R194). -/
def TNode.empty : TNode := ⟨false, 0, 0, 0⟩

/-- The child reached by a bit: left is 0, right is 1; the index 0 says "no child" (R44, R194). -/
def TNode.child (r : TNode) (bit : Bool) : TrieIdx := if bit then r.right else r.left

/-- The record with that child. -/
def TNode.setChild (r : TNode) (bit : Bool) (n : TrieIdx) : TNode :=
  if bit then { r with right := n } else { r with left := n }

/-- R191: the empty tree, a root, TNN = 1. -/
def Trie.root (m : TrieMem) : Trie := ⟨m.write 0 TNode.empty, 1⟩

/-- R194: create the child of `c` reached by `bit`. -/
def Trie.grow (t : Trie) (c : TrieIdx) (bit : Bool) : Trie :=
  let m := t.mem.write t.tnn TNode.empty
  ⟨m.write c ((m.read c).setChild bit t.tnn), t.tnn + 1⟩

/-- R194, the loop of insert: from node `c`, follow the bits `val[k−1]` down to `val[0]`, creating nodes as needed. -/
def Trie.descend (val : Word) : Nat → TrieIdx → Trie → Except Stop (TrieIdx × Trie)
  | 0, c, t => .ok (c, t)
  | k + 1, c, t =>
    let r := t.mem.read c
    if r.leaf then .error (.raise .corruptHeader)
    else
      let bit := val.getLsbD k
      if r.child bit = 0 then Trie.descend val k t.tnn (t.grow c bit)
      else Trie.descend val k (r.child bit) t

/-- insert(sym, len, val) of R194; R195: the three ways it fails. -/
def Trie.insert (t : Trie) (sym : Byte) (len : Nat) (val : Word) : Except Stop Trie :=
  match Trie.descend val len 0 t with
  | .error x => .error x
  | .ok (c, t') =>
    let r := t'.mem.read c
    if r.leaf then .error (.raise .corruptHeader)
    else if r.left ≠ 0 ∨ r.right ≠ 0 then .error (.raise .corruptHeader)
    else .ok { t' with mem := t'.mem.write c { r with leaf := true, sym := sym } }

/-- R191, R193: the header entry at offset `o`. -/
def readEntry (m : Memory) (o : Nat) (t : Trie) : Except Stop Trie :=
  let len := s32 (m.read32 (o + 1))
  let val := m.read32 (o + 5)
  if len < 1 ∨ 32 < len then .error (.raise .corruptHeader)
  else if len < 32 ∧ 2 ^ len.toNat ≤ val.toNat then .error (.raise .corruptHeader)
  else t.insert (m.read o) len.toNat val

/-- R191: `n` entries from offset `o` on, in the order they lie in the header. -/
def readEntries (m : Memory) : Nat → Nat → Trie → Except Stop Trie
  | 0, _, t => .ok t
  | n + 1, o, t =>
    match readEntry m o t with
    | .ok t' => readEntries m n (o + 9) t'
    | .error x => .error x

/-- R191, R192: the alphabet size and the trie of the header in IN, in a trie memory that held `old`. -/
def readHeader (e : Env) (old : TrieMem) : Except Stop (Nat × Trie) :=
  if e.inLen.toNat < 4 then .error (.raise .corruptHeader)
  else
    let a := s32 (e.inp.read32 0)
    if a < 1 ∨ 256 < a then .error (.raise .corruptHeader)
    else if e.inLen.toNat < 4 + 9 * a.toNat then .error (.raise .corruptHeader)
    else
      match readEntries e.inp a.toNat 4 (Trie.root old) with
      | .ok t => .ok (a.toNat, t)
      | .error x => .error x

/-- R191: the phase RDHDR. -/
def phaseRdhdr : PhaseFn := fun e d =>
  match readHeader e d.tnode with
  | .error x => .error x
  | .ok (a, t) =>
    .ok { d with tnode := t.mem, tnn := t.tnn, da := BitVec.ofNat 9 a, dh := BitVec.ofNat 12 (4 + 9 * a) }

/-- next_bit() of R198, its first line: the next payload byte is loaded when USR is empty. -/
def loadByte (e : Env) (d : Datapath) : Datapath :=
  if d.ub = 0 then { d with usr := e.inByte d.rp, rp := d.rp + 1, ub := 8 } else d

/-- next_bit() of R198. -/
def nextBit (e : Env) (d : Datapath) : Bool × Datapath :=
  let d1 := loadByte e d
  (d1.usr.getLsbD 7, { d1 with usr := d1.usr <<< 1, ub := d1.ub - 1, bitsLeft := d1.bitsLeft - 1 })

/-- step(bit) of R201; R202: an absent child. A child index from TRIE_CAP on names no record of TNODE (R44, R197; log 22). -/
def walkStep (e : Env) (bit : Bool) (d : Datapath) : Except Stop Datapath :=
  let n := (d.tnode.read d.cur).child bit
  if n = 0 then .error (.raise .corruptContainer)
  else if trieCap ≤ n.toNat then .error (.stuck .noSuchTrieRecord)
  else
    let r := d.tnode.read n
    if r.leaf then
      match put8 e r.sym d with
      | .ok d' => .ok { d' with cur := 0, dstate := .atRoot }
      | .error x => .error x
    else .ok { d with cur := n, dstate := .atInternal }

/-- R200, one iteration: step(next_bit()). -/
def walkBit (e : Env) (d : Datapath) : Except Stop Datapath := walkStep e (nextBit e d).1 (nextBit e d).2

/-- R200, R203: the end of the walk. It must stand at the root. -/
def finishWalk (pad : Int) (d : Datapath) : Except Stop Datapath :=
  if d.cur ≠ 0 then .error (.raise .corruptContainer)
  else .ok { d with pad := BitVec.ofNat 3 pad.toNat }

/-- R200, R199, R205: the phase DWALK. -/
def phaseDwalk : PhaseFn := fun e d =>
  if e.inLen.toNat < d.dh.toNat + 4 then .error (.raise .corruptContainer)
  else
    let pl := e.inLen.toNat - 4 - d.dh.toNat
    let pad := s32 (e.inp.read32 (e.inLen.toNat - 4))
    if pad < 0 ∨ 7 < pad then .error (.raise .invalidPadding)
    else if 8 * pl ≤ pad.toNat then .error (.raise .invalidPadding)
    else
      let n := 8 * pl - pad.toNat
      match loop (walkBit e) n
        { d with bitsLeft := BitVec.ofNat 35 n, rp := d.dh.setWidth 32, ub := 0, wp := 0, cur := 0, dstate := .atRoot } with
      | .error x => .error x
      | .ok d' => finishWalk pad d'

/-- RDHDR (R191). -/
def execRdhdr (s : State) : Host.Outcome State Fault Refusal := command .rdhdr [(.rdhdr, phaseRdhdr)] s

/-- DWALK (R200). -/
def execDwalk (s : State) : Host.Outcome State Fault Refusal := command .dwalk [(.dwalk, phaseDwalk)] s

/-- DECODE (R204). -/
def execDecode (s : State) : Host.Outcome State Fault Refusal :=
  command .decode [(.rdhdr, phaseRdhdr), (.dwalk, phaseDwalk)] s

end Sys2Proof.Machine
end

