-- ==== Sys2Proof/Machine/TreeBuilder.lean ====
section
/-!
DEFINITION. The unit TB, first two parts: the frequency scan FREQ and the tree builder BUILD (spec/41_tree_builder.md).
-/

namespace Sys2Proof.Machine

/-- R141, one iteration: the byte at RP is counted, RP goes on (R28). -/
def countByte (e : Env) (d : Datapath) : Datapath :=
  let b := e.inByte d.rp
  { d with freq := setEntry d.freq b (entry d.freq b + 1), rp := d.rp + 1 }

/-- R141: the phase FREQ. -/
def phaseFreq : PhaseFn := fun e d =>
  if e.inLen = 0 then .error (.raise .emptyInput)
  else .ok ((countByte e)^[e.inLen.toNat] { d with freq := Vector.replicate 256 0, rp := 0 })

/-- The weight of a member of PQ (R42). -/
def weightOf (t : NodeTable) (i : NodeIdx) : Word := ((nodeAt t i).getD Node.empty).weight

/-- R147: member `i` comes before member `j`. -/
def before (t : NodeTable) (i j : NodeIdx) : Bool :=
  decide (weightOf t i < weightOf t j) || (decide (weightOf t i = weightOf t j) && decide (i < j))

/-- The least of `i` and the members `q` in the order of R147. -/
def leastOf (t : NodeTable) (i : NodeIdx) : List NodeIdx → NodeIdx
  | [] => i
  | j :: q => leastOf t (if before t j i then j else i) q

/-- EXTRACT_MIN (R10, R146): the least member and the others. PQ is not empty where BUILD calls it. -/
def extractMin (t : NodeTable) : List NodeIdx → Option (NodeIdx × List NodeIdx)
  | [] => none
  | i :: q => let m := leastOf t i q; some (m, (i :: q).erase m)

/-- The tree builder at work: NODE, PQ, and the number of records given out (`n`, then `k`, of R144). -/
structure Builder where
  node : NodeTable
  pq : List NodeIdx
  k : Nat
deriving DecidableEq, Repr, Inhabited

/-- NODE[k] <- r; k <- k + 1. -/
def Builder.alloc (b : Builder) (r : Node) : Builder := { b with node := b.node.setIfInBounds b.k r, k := b.k + 1 }

/-- R144, R145: a leaf for the symbol `s` of count `w`, if it occurs. -/
def addLeaf (b : Builder) (w : Word) (s : Nat) : Builder :=
  if w = 0 then b else b.alloc ⟨.leaf, BitVec.ofNat 8 s, w, 0, 0⟩

/-- R144, R145: the leaves, in ascending symbol order, in a NODE that is otherwise FREE. -/
def buildLeaves (freq : WordTable) : Builder :=
  freq.toList.zipIdx.foldl (fun b ws => addLeaf b ws.1 ws.2) ⟨Vector.replicate 511 Node.empty, [], 0⟩

/-- R144, R148, one merge: the two least members become the right child (the first removed) and the left child (the second)
of a new INTERNAL node, which enters PQ. PQ holds two members here (R146); with fewer nothing changes (log 21). -/
def mergeStep (b : Builder) : Builder :=
  match extractMin b.node b.pq with
  | none => b
  | some (m1, q1) =>
    match extractMin b.node q1 with
    | none => b
    | some (m2, q2) =>
      { b.alloc ⟨.internal, 0, weightOf b.node m1 + weightOf b.node m2, m2, m1⟩ with
        pq := q2 ++ [BitVec.ofNat 9 b.k] }

/-- The tree in NODE: what BUILD leaves (R144). -/
structure Tree where
  node : NodeTable
  nsyms : BitVec 9
  nnodes : BitVec 9
  root : NodeIdx
deriving DecidableEq, Repr, Inhabited

/-- NSYMS <- N; NNODES <- k; ROOT <- k − 1 (R144). -/
def Builder.finish (b : Builder) (n : Nat) : Tree :=
  ⟨b.node, BitVec.ofNat 9 n, BitVec.ofNat 9 b.k, BitVec.ofNat 9 (b.k - 1)⟩

/-- R144, R149, R150: the tree of a frequency table. -/
def buildTree (freq : WordTable) : Except HwFault Tree :=
  let b := buildLeaves freq
  if b.k = 0 then .error .emptyAlphabet
  else if b.k = 1 then
    let b1 := b.alloc ⟨.placeholder, 0, 0, 0, 0⟩
    .ok ((b1.alloc ⟨.internal, 0, weightOf b.node 0, 0, 1⟩).finish 1)
  else
    .ok ((mergeStep^[b.k - 1] { b with pq := (List.range b.k).map (BitVec.ofNat 9) }).finish b.k)

/-- R144: the phase BUILD. PQ is empty when it ends. -/
def phaseBuild : PhaseFn := fun _ d =>
  match buildTree d.freq with
  | .error x => .error (.raise x)
  | .ok t => .ok { d with node := t.node, nsyms := t.nsyms, nnodes := t.nnodes, root := t.root, pq := [] }

/-- FREQ (R141). -/
def execFreq (s : State) : Host.Outcome State Fault Refusal := command .freq [(.freq, phaseFreq)] s

/-- BUILD (R144). -/
def execBuild (s : State) : Host.Outcome State Fault Refusal := command .build [(.build, phaseBuild)] s

end Sys2Proof.Machine
end

