-- ==== Sys2Proof/Machine/CodeAssigner.lean ====
section
/-!
DEFINITION. The unit TB, third part: the code assigner ASSIGN (spec/42_code_assigner.md).
-/

namespace Sys2Proof.Machine

/-- CODE_LEN and CODE_VAL (R43). -/
structure CodeTable where
  len : LenTable
  val : WordTable
deriving DecidableEq, Repr, Inhabited

/-- No symbol has a code (R166). -/
def CodeTable.empty : CodeTable := ⟨Vector.replicate 256 0, Vector.replicate 256 0⟩

/-- CODE_LEN[s] <- d; CODE_VAL[s] <- v. -/
def CodeTable.record (c : CodeTable) (s : Byte) (d : Nat) (v : Word) : CodeTable :=
  ⟨setEntry c.len s (BitVec.ofNat 6 d), setEntry c.val s v⟩

/-- visit(i, d, v) of R161. The first argument is 32 − d: an INTERNAL node at depth 32 raises CodeTooLong (R163). -/
def visit (t : NodeTable) : Nat → NodeIdx → Nat → Word → CodeTable → Except Stop CodeTable
  | room, i, d, v, c =>
    match nodeAt t i with
    | none => .error (.stuck .freeNodeVisited)
    | some r =>
      match r.kind with
      | .free => .error (.stuck .freeNodeVisited)
      | .placeholder => .ok c
      | .leaf => .ok (c.record r.sym d v)
      | .internal =>
        match room with
        | 0 => .error (.raise .codeTooLong)
        | room' + 1 =>
          match visit t room' r.left (d + 1) (2 * v) c with
          | .error x => .error x
          | .ok c' => visit t room' r.right (d + 1) (2 * v + 1) c'

/-- R161: the code table of the tree with root `root`. -/
def assignCodes (t : NodeTable) (root : NodeIdx) : Except Stop CodeTable := visit t 32 root 0 0 CodeTable.empty

/-- R161: the phase ASSIGN. The traversal stack is empty when it ends (log 5). -/
def phaseAssign : PhaseFn := fun _ d =>
  match assignCodes d.node d.root with
  | .error x => .error x
  | .ok c => .ok { d with codeLen := c.len, codeVal := c.val, stack := [] }

/-- ASSIGN (R161). -/
def execAssign (s : State) : Host.Outcome State Fault Refusal := command .assign [(.assign, phaseAssign)] s

end Sys2Proof.Machine
end

