-- ==== Sys2Proof/Machine/Encoder.lean ====
section
/-!
DEFINITION. The unit ENC: the header writer WRHDR, the bit-packer PACK, and the composite ENCODE (spec/43_encoder.md).
-/

namespace Sys2Proof.Machine

/-- R97: the nine bytes of the header entry of symbol `s`, or none if it has no code (R166). -/
def entryBytes (s : Nat) (len : BitVec 6) (val : Word) : List Byte :=
  if len = 0 then [] else BitVec.ofNat 8 s :: (le32 (len.setWidth 32) ++ le32 val)

/-- R95 to R97: the header, entries in ascending symbol order. -/
def headerBytes (nsyms : BitVec 9) (len : LenTable) (val : WordTable) : List Byte :=
  le32 (nsyms.setWidth 32) ++
    (len.toList.zip val.toList).zipIdx.flatMap (fun lvs => entryBytes lvs.2 lvs.1.1 lvs.1.2)

/-- R174: the phase WRHDR. -/
def phaseWrhdr : PhaseFn := fun e d => putAll e (headerBytes d.nsyms d.codeLen d.codeVal) { d with wp := 0 }

/-- push(bit) of R171. -/
def pushBit (e : Env) (bit : Bool) (d : Datapath) : Except Stop Datapath :=
  let d1 := { d with acc := (d.acc <<< 1) ||| (BitVec.ofBool bit).setWidth 8, nb := d.nb + 1 }
  if d1.nb = 8 then
    match put8 e d1.acc d1 with
    | .ok d2 => .ok { d2 with acc := 0, nb := 0 }
    | .error x => .error x
  else .ok d1

/-- send(b) of R171, one iteration: push(CSR[CREM − 1]); CREM <- CREM − 1. -/
def sendBit (e : Env) (d : Datapath) : Except Stop Datapath :=
  match pushBit e (d.csr.getLsbD (d.crem.toNat - 1)) d with
  | .ok d' => .ok { d' with crem := d'.crem - 1 }
  | .error x => .error x

/-- send(b) of R171. -/
def send (e : Env) (b : Byte) (d : Datapath) : Except Stop Datapath :=
  let n := entry d.codeLen b
  loop (sendBit e) n.toNat { d with csr := entry d.codeVal b, crem := n }

/-- R175, one iteration: the byte at RP is read, RP goes on (R28), and its code is sent; R176: NoCode. -/
def packByte (e : Env) (d : Datapath) : Except Stop Datapath :=
  let b := e.inByte d.rp
  if entry d.codeLen b = 0 then .error (.raise .noCode)
  else send e b { d with rp := d.rp + 1 }

/-- flush() of R172: the pad count, and the datapath after it. -/
def flush (e : Env) (d : Datapath) : Except Stop (BitVec 4 × Datapath) :=
  if d.nb = 0 then .ok (0, { d with acc := 0, nb := 0 })
  else
    let pad := 8 - d.nb
    match put8 e (d.acc <<< pad.toNat) d with
    | .ok d' => .ok (pad, { d' with acc := 0, nb := 0 })
    | .error x => .error x

/-- R175: the payload starts just past the header, at 4 + 9·NSYMS. -/
def payloadStart (d : Datapath) : Word := 4 + 9 * d.nsyms.setWidth 32

/-- R175: the trailer and PAD, after the last byte of IN has been sent. -/
def finishPack (e : Env) (d : Datapath) : Except Stop Datapath :=
  match flush e d with
  | .error x => .error x
  | .ok (pad, d1) =>
    match putAll e (le32 (pad.setWidth 32)) d1 with
    | .error x => .error x
    | .ok d2 => .ok { d2 with pad := pad.setWidth 3 }

/-- R175: the phase PACK. -/
def phasePack : PhaseFn := fun e d =>
  if e.inLen = 0 then .error (.raise .emptyInput)
  else
    match loop (packByte e) e.inLen.toNat { d with wp := payloadStart d, acc := 0, nb := 0, rp := 0 } with
    | .error x => .error x
    | .ok d' => finishPack e d'

/-- WRHDR (R174). -/
def execWrhdr (s : State) : Host.Outcome State Fault Refusal := command .wrhdr [(.wrhdr, phaseWrhdr)] s

/-- PACK (R175). -/
def execPack (s : State) : Host.Outcome State Fault Refusal := command .pack [(.pack, phasePack)] s

/-- ENCODE (R177). -/
def execEncode (s : State) : Host.Outcome State Fault Refusal :=
  command .encode
    [(.freq, phaseFreq), (.build, phaseBuild), (.assign, phaseAssign), (.wrhdr, phaseWrhdr), (.pack, phasePack)] s

end Sys2Proof.Machine
end

