-- ==== Sys2Proof/Machine/Bus.lean ====
section
/-!
DEFINITION. The host's side: the register space REG (spec/10_state.md R31 to R39, R48), the byte accesses of IN and OUT (R49),
hardware reset (spec/70_reset_and_hazards.md R260); and the sequencer in phase steps (R27, R129).
-/

namespace Sys2Proof.Machine

/-- R41, field kind. -/
def NodeKind.bits : NodeKind → BitVec 2
  | .free => 0
  | .leaf => 1
  | .internal => 2
  | .placeholder => 3

/-- R48, R104: word 1 of a NODE record in its window. -/
def Node.word1 (r : Node) : Word := (((0 : BitVec 4) ++ r.kind.bits) ++ r.sym) ++ (r.left ++ r.right)

/-- R48: the two words of NODE[i] in its window; `hi` selects word 1. -/
def nodeWindow (t : NodeTable) (i : Nat) (hi : Bool) : Word :=
  match t[i]? with
  | none => 0
  | some r => if hi then r.word1 else r.weight

/-- R48: entry `s` of a table in its window. -/
def tableWindow {w : Nat} (t : Vector (BitVec w) 256) (s : Nat) : Word := (t[s]?.getD 0).setWidth 32

/-- R31: REG accesses the spec gives the host: 4-aligned offsets below 0x2000 (R39, U9). -/
def regOffsetOk (off : Nat) : Bool := decide (off < 0x2000) && decide (off % 4 = 0)

/-- R31 to R38, R48: the value a read of a register gives. Reserved offsets read 0 (R39), and so does CMD (R32). What STATUS
shows between two phases of a composite command is the model's choice (log 23). -/
def regValue (s : State) (off : Nat) : Word :=
  if off = 0x04 then s.shownStatus.toWord
  else if off = 0x08 then s.errcode.setWidth 32
  else if off = 0x0C then s.inLen
  else if off = 0x10 then s.outLen
  else if off = 0x14 then flagBit s.ie 0
  else if off = 0x18 then s.dp.nsyms.setWidth 32
  else if off = 0x1C then s.dp.nnodes.setWidth 32
  else if off = 0x20 then s.dp.root.setWidth 32
  else if off = 0x24 then s.dp.pad.setWidth 32
  else if off < 0x400 then 0
  else if off < 0x800 then tableWindow s.dp.freq ((off - 0x400) / 4)
  else if off < 0xC00 then tableWindow s.dp.codeLen ((off - 0x800) / 4)
  else if off < 0x1000 then tableWindow s.dp.codeVal ((off - 0xC00) / 4)
  else nodeWindow s.dp.node ((off - 0x1000) / 8) (decide (off % 8 = 4))

/-- R48: what a read returns an unspecified value of while BUSY = 1: the windows, and ERRCODE, OUT_LEN, NSYMS, NNODES, ROOT,
PAD. STATUS, IN_LEN, CTRL, CMD and the reserved offsets read exactly at all times. -/
def inexactWhileBusy (off : Nat) : Bool :=
  decide (off = 0x08) || decide (off = 0x10) || (decide (0x18 ≤ off) && decide (off < 0x28)) ||
    (decide (0x400 ≤ off) && decide (off < 0x1FF8))

/-- A host read of REG (R31; U6 and log 13 while BUSY = 1; U9 and log 12 for the offsets that are refused). -/
def regRead (off : Nat) (s : State) : Host.Outcome State Fault Refusal :=
  if !regOffsetOk off then .refused .badRegAccess
  else if s.status.busy && inexactWhileBusy off then
    .next { s with rdata := Config.freeRead s.fresh off, fresh := s.fresh + 1 }
  else .next { s with rdata := regValue s off }

/-- A host write of REG at another offset than CMD: IN_LEN (R35) and CTRL (R37) are stored, or dropped while BUSY = 1 (R131);
the rest is ignored (R31, R39). -/
def regWrite (off : Nat) (v : Word) (s : State) : Host.Outcome State Fault Refusal :=
  if !regOffsetOk off then .refused .badRegAccess
  else if off = 0x0C then .next (if s.status.busy then drop s else { s with inLen := v })
  else if off = 0x14 then .next (if s.status.busy then drop s else { s with ie := v.getLsbD 0 })
  else .next s

/-- A host write of IN[a] (R49, R74; U7). -/
def inWrite (a : Nat) (b : Byte) (s : State) : Host.Outcome State Fault Refusal :=
  if s.status.busy then .refused .bufferWhileBusy
  else if s.inCap ≤ a then .fault .noSuchInByte
  else .next { s with inp := s.inp.write a b }

/-- A host read of IN[a] (R49, R74; U7). -/
def inRead (a : Nat) (s : State) : Host.Outcome State Fault Refusal :=
  if s.status.busy then .refused .bufferWhileBusy
  else if s.inCap ≤ a then .fault .noSuchInByte
  else .next { s with rdata := (s.inp.read a).setWidth 32 }

/-- A host read of OUT[a] (R49, R74; U7). -/
def outRead (a : Nat) (s : State) : Host.Outcome State Fault Refusal :=
  if s.status.busy then .refused .bufferWhileBusy
  else if s.outCap ≤ a then .fault .noSuchOutByte
  else .next { s with rdata := (s.dp.out.read a).setWidth 32 }

/-- R260: hardware reset, at any moment. IN, OUT and TNODE are unspecified afterwards. The instance's parameters and the
host's pending accesses are not the core's to lose (log 14). -/
def hwReset (s : State) : State :=
  { State.reset with
    dp := Datapath.cleared ⟨[], s.fresh + 1⟩ ⟨[], s.fresh⟩
    inp := ⟨[], s.fresh⟩
    inCap := s.inCap
    outCap := s.outCap
    fresh := s.fresh + 2
    rdata := s.rdata
    host := s.host }

/-- R27: the phase that `SEQ = RUN(p)` stands for. -/
def phaseFn : Phase → PhaseFn
  | .clr => phaseClr
  | .freq => phaseFreq
  | .build => phaseBuild
  | .assign => phaseAssign
  | .wrhdr => phaseWrhdr
  | .pack => phasePack
  | .rdhdr => phaseRdhdr
  | .dwalk => phaseDwalk

/-- R27: the phases of a command that come after `p`, if `p` is one of its phases. -/
def phasesAfter (p : Phase) : List Phase → Option (List Phase)
  | [] => none
  | q :: qs => if q = p then some qs else phasesAfter p qs

/-- R27, R129: one step of the sequencer: nothing when IDLE, else the phase SEQ names, to its end. OPL says whether it is the
last one (log 8, log 11). -/
def sequencerStep (s : State) : Host.Outcome State Fault Refusal :=
  match s.seq with
  | .idle => .next s
  | .run p =>
    match Instr.ofOpcode s.opl with
    | none => .fault .badSequencer
    | some c =>
      match phasesAfter p (phasesOf c) with
      | none => .fault .badSequencer
      | some ps =>
        match phaseFn p s.env s.dp with
        | .ok d =>
          match ps with
          | [] => .next (complete c (endPhase p [] d s))
          | q :: qs => .next (endPhase p (q :: qs) d s)
        | .error (.raise x) => .next (faultEntry x s)
        | .error (.stuck x) => .fault x

/-- R120 with R11's phase steps: a write of the command `c` to CMD up to its acceptance (log 8). -/
def startCommand (c : Instr) (s : State) : State :=
  match c with
  | .nop => nopWritten s
  | .ack => ackWritten s
  | _ =>
    match offer c s with
    | .inl s' => s'
    | .inr s' => s'

/-- The command word a host move writes to CMD as one big step, if it does. -/
def commandWord : HostMove → Option Word
  | .regWrite off v => if off = 0 then some v else none
  | _ => none

/-- Every host move but the big-step write of CMD, which `step` gives to `exec`. -/
def hostAccess (m : HostMove) (s : State) : Host.Outcome State Fault Refusal :=
  match m with
  | .regWrite off v => regWrite off v s
  | .regRead off => regRead off s
  | .inWrite a b => inWrite a b s
  | .inRead a => inRead a s
  | .outRead a => outRead a s
  | .startCommand w =>
    match decodeWord w with
    | .ok c => .next (startCommand c s)
    | .error _ => .next (illegalWord s)
  | .wait => sequencerStep s
  | .hwReset => .next (hwReset s)

/-- The host's pending accesses with a write of the word `w` to CMD first. -/
def queueCommandWord (w : Word) (s : State) : State := { s with host := .regWrite 0 w :: s.host }

end Sys2Proof.Machine
end

