-- ==== Sys2Proof/Machine/Dispatch.lean ====
section
/-!
DEFINITION. One arm for each command: what a write of its word to CMD does (spec/40_control.md R120).
-/

namespace Sys2Proof.Machine

def exec (i : Instr) (s : State) : Host.Outcome State Fault Refusal :=
  match i with
  | .nop => Sys2Proof.Machine.execNop s
  | .clr => Sys2Proof.Machine.execClr s
  | .freq => Sys2Proof.Machine.execFreq s
  | .build => Sys2Proof.Machine.execBuild s
  | .assign => Sys2Proof.Machine.execAssign s
  | .wrhdr => Sys2Proof.Machine.execWrhdr s
  | .pack => Sys2Proof.Machine.execPack s
  | .encode => Sys2Proof.Machine.execEncode s
  | .rdhdr => Sys2Proof.Machine.execRdhdr s
  | .dwalk => Sys2Proof.Machine.execDwalk s
  | .decode => Sys2Proof.Machine.execDecode s
  | .ack => Sys2Proof.Machine.execAck s

end Sys2Proof.Machine
end

