-- ==== Sys2Proof/Machine/Step.lean ====
section
/-!
DEFINITION. One step of the machine (spec/00_scope.md R13: two agents take steps): the host's next pending access, or, when
there is none, the sequencer's next phase.
-/

namespace Sys2Proof.Machine

/-- One step. The pending access is taken from the queue; a write of CMD is decoded and run (R120); with nothing pending the
sequencer steps, and an idle one does nothing (R254). -/
def step (s : State) : Host.Outcome State Fault Refusal :=
  match s.host with
  | [] => sequencerStep s
  | m :: ms =>
    match commandWord m with
    | none => hostAccess m { s with host := ms }
    | some w =>
      match decodeWord w with
      | .ok i => exec i { s with host := ms }
      | .error _ => .next (illegalWord { s with host := ms })

/-- A command reaches the core as a write of CMD, so the instruction that the next step runs is the first pending access
(log 7). The bits above `nbits` are 0. -/
def State.withFetchWord (s : State) (nbits w : Nat) : State := queueCommandWord (BitVec.ofNat 32 (w % 2 ^ nbits)) s

end Sys2Proof.Machine
end

