-- ==== Sys2Proof/Safety.lean ====
section
/-!
DEFINITION. The terms claims are stated in: what a ready core is, the legal states (the invariants of spec/10_state.md R27 to
R36, R40), and the spec's own data (input, codes, payload bits, header entries), written from its definitions and not from the
machine's loops.
-/

namespace Sys2Proof.Machine

/-- The core takes a command: BUSY = 0 and ERR = 0 (spec/40_control.md R120). -/
def State.ready (s : State) : Prop := s.status.busy = false ∧ s.status.err = false

/-- The input of the next command: IN[0 .. IN_LEN − 1] (R35). -/
def State.input (s : State) : List Byte := (List.range s.inLen.toNat).map s.inp.read

/-- The bytes OUT[a .. a + n − 1]. -/
def State.outBytes (s : State) (a n : Nat) : List Byte := (List.range n).map (fun k => s.dp.out.read (a + k))

/-- The bit-string a (len, val) pair stands for, first bit first (spec/00_scope.md R9; spec/30_encoding.md R101). -/
def bitString (len val : Nat) : List Bool := (List.range len).map (fun k => val.testBit (len - 1 - k))

/-- The four bytes of a 32-bit container field, byte `k` the digit of 256^k (spec/20_memory.md R62; R100). -/
def fieldBytes (v : Nat) : List Byte := (List.range 4).map (fun k => BitVec.ofNat 8 (v / 256 ^ k))

/-- The number the four bytes from address `a` on stand for (R62, R100). -/
def fieldAt (m : Memory) (a : Nat) : Nat := ((List.range 4).map (fun k => 256 ^ k * (m.read (a + k)).toNat)).sum

/-- A field read as a two's complement number (R10). -/
def signed32 (v : Nat) : Int := if v < 2 ^ 31 then v else v - 2 ^ 32

/-- The code of symbol `b` in a code table (R43). -/
def codeOf (c : CodeTable) (b : Byte) : List Bool := bitString (entry c.len b).toNat (entry c.val b).toNat

/-- The code table the state holds (R43). -/
def State.codes (s : State) : CodeTable := ⟨s.dp.codeLen, s.dp.codeVal⟩

/-- The payload bit sequence of an input (spec/20_memory.md R63): the codes of its bytes, in input order. -/
def payloadBits (c : CodeTable) (input : List Byte) : List Bool := input.flatMap (codeOf c)

/-- `PL = ceil(total_bits / 8)` (spec/30_encoding.md R98). -/
def payloadLength (bits : List Bool) : Nat := (bits.length + 7) / 8

/-- `pad = (8 − total_bits mod 8) mod 8` (R98). -/
def padCount (bits : List Bool) : Nat := (8 - bits.length % 8) % 8

/-- R63: byte `j` of the payload holds `p[8j]` in bit 7 down to `p[8j + 7]` in bit 0, and 0 where the bits have run out. -/
def payloadByte (bits : List Bool) (j : Nat) : Byte :=
  (List.range 8).foldl (fun v i => (v <<< 1) ||| (BitVec.ofBool (bits.getD (8 * j + i) false)).setWidth 8) 0

/-- The payload (R98). -/
def payloadBytes (bits : List Bool) : List Byte := (List.range (payloadLength bits)).map (payloadByte bits)

/-- The symbols that have a code, in ascending order (R166). -/
def codedSymbols (len : LenTable) : List Byte :=
  ((List.range 256).map (BitVec.ofNat 8)).filter (fun b => entry len b ≠ 0)

/-- A header entry (R97): the symbol, then length and value as fields. -/
def headerEntryBytes (c : CodeTable) (b : Byte) : List Byte :=
  b :: (fieldBytes (entry c.len b).toNat ++ fieldBytes (entry c.val b).toNat)

/-- The header of a code table (R95, R96): the alphabet size, then the entries in ascending symbol order. -/
def header (nsyms : BitVec 9) (c : CodeTable) : List Byte :=
  fieldBytes nsyms.toNat ++ (codedSymbols c.len).flatMap (headerEntryBytes c)

/-- The header of the tables the state holds. -/
def State.header (s : State) : List Byte := Machine.header s.dp.nsyms s.codes

/-- The container of an input under a code table (R95): header, payload, trailer. -/
def container (nsyms : BitVec 9) (c : CodeTable) (input : List Byte) : List Byte :=
  header nsyms c ++ payloadBytes (payloadBits c input) ++ fieldBytes (padCount (payloadBits c input))

/-- The FrequencyTable of an input (spec/41_tree_builder.md R140). -/
def countTable (input : List Byte) : WordTable :=
  Vector.ofFn fun s => BitVec.ofNat 32 (input.count (BitVec.ofNat 8 s.val))

/-- The alphabet, in ascending symbol order (R140, R145). -/
def alphabet (freq : WordTable) : List Byte :=
  ((List.range 256).map (BitVec.ofNat 8)).filter (fun s => entry freq s ≠ 0)

/-- The sum of all entries of a frequency table (R40). -/
def freqSum (freq : WordTable) : Nat := (freq.toList.map BitVec.toNat).sum

/-- The child of a NODE record reached by a code bit: left is 0, right is 1 (R41). -/
def Node.child (r : Node) (bit : Bool) : NodeIdx := if bit then r.right else r.left

/-- The record a path leads to from node `i` through INTERNAL nodes (spec/42_code_assigner.md R160). -/
def nodeOnPath (t : NodeTable) : NodeIdx → List Bool → Option Node
  | i, [] => nodeAt t i
  | i, b :: p =>
    match nodeAt t i with
    | some r => if r.kind = .internal then nodeOnPath t (r.child b) p else none
    | none => none

/-- Index `j` is in PQ when the merge that creates node `k` runs: no earlier merge has removed it (R144). -/
def availableAt (t : NodeTable) (n k : Nat) (j : NodeIdx) : Prop :=
  j.toNat < k ∧ ∀ k', n ≤ k' → k' < k → ∀ r, t[k']? = some r → r.left ≠ j ∧ r.right ≠ j

/-- A header entry as DEC reads it (spec/30_encoding.md R97): symbol, signed length, value. -/
structure HeaderEntry where
  sym : Byte
  len : Int
  val : Nat
deriving DecidableEq, Repr, Inhabited

/-- The header entry at offset `o` of IN. -/
def headerEntryAt (m : Memory) (o : Nat) : HeaderEntry :=
  ⟨m.read o, signed32 (fieldAt m (o + 1)), fieldAt m (o + 5)⟩

/-- The `n` header entries of the container in IN (R95). -/
def headerEntries (m : Memory) (n : Nat) : List HeaderEntry := (List.range n).map (fun i => headerEntryAt m (4 + 9 * i))

/-- spec/44_decoder.md R193: length 1 to 32 read as signed, and value below 2^length. -/
def HeaderEntry.legal (x : HeaderEntry) : Prop :=
  1 ≤ x.len ∧ x.len ≤ 32 ∧ (x.len < 32 → x.val < 2 ^ x.len.toNat)

/-- The code of a header entry (R101). -/
def HeaderEntry.code (x : HeaderEntry) : List Bool := bitString x.len.toNat x.val

/-- No code of the list is a prefix of another, equal codes included (R165, R195). -/
def prefixFree (codes : List (List Bool)) : Prop := codes.Pairwise (fun a b => ¬ a <+: b ∧ ¬ b <+: a)

/-- The alphabet size DEC reads (R96), as a signed number. -/
def State.headerCount (s : State) : Int := signed32 (fieldAt s.inp 0)

/-- The pad count DEC reads at the end of IN (R99), as a signed number. -/
def State.trailer (s : State) : Int := signed32 (fieldAt s.inp (s.inLen.toNat - 4))

/-- The counts of the header fit IN (R191, R192). -/
def State.headerFits (s : State) : Prop :=
  4 ≤ s.inLen.toNat ∧ 1 ≤ s.headerCount ∧ s.headerCount ≤ 256 ∧ 4 + 9 * s.headerCount.toNat ≤ s.inLen.toNat

/-- The entries of the header in IN. -/
def State.entries (s : State) : List HeaderEntry := headerEntries s.inp s.headerCount.toNat

/-- R195: the header in IN is accepted: its counts fit, its entries are legal, its codes are prefix-free. -/
def State.goodHeader (s : State) : Prop :=
  s.headerFits ∧ (∀ x ∈ s.entries, x.legal) ∧ prefixFree (s.entries.map HeaderEntry.code)

/-- The payload bits DEC walks when the header is `h` bytes long (R102, R198): bit `k` is IN[h + k div 8][7 − k mod 8]. -/
def State.payload (s : State) (h : Nat) : List Bool :=
  (List.range (8 * (s.inLen.toNat - 4 - h) - s.trailer.toNat)).map
    (fun k => (s.inp.read (h + k / 8)).getLsbD (7 - k % 8))

/-- R199, R205: there is a trailer behind a header of `h` bytes, and its pad count is valid. -/
def State.paddingOk (s : State) (h : Nat) : Prop :=
  h + 4 ≤ s.inLen.toNat ∧ 0 ≤ s.trailer ∧ s.trailer ≤ 7 ∧ s.trailer.toNat < 8 * (s.inLen.toNat - 4 - h)

/-- The symbol a code leads to from trie node `c`, one bit after the other, ending on the first leaf (R103, R201). An index
from TRIE_CAP on leads to no record (R44). -/
def trieSymbol (m : TrieMem) : TrieIdx → List Bool → Option Byte
  | _, [] => none
  | c, b :: p =>
    let n := (m.read c).child b
    if n = 0 ∨ trieCap ≤ n.toNat then none
    else if (m.read n).leaf then (if p = [] then some (m.read n).sym else none)
    else trieSymbol m n p

/-- R121, R123, R129: the validity flags while the phase `p` runs: what it needs is 1, what it is about to overwrite is 0. -/
def phaseFlagsOk (p : Phase) (f : Status) : Prop :=
  match p with
  | .clr => f.treeValid = false ∧ f.codeValid = false ∧ f.hdrDone = false ∧ f.trieValid = false
  | .freq | .build => f.treeValid = false ∧ f.codeValid = false ∧ f.hdrDone = false
  | .assign => f.treeValid = true ∧ f.codeValid = false ∧ f.hdrDone = false
  | .wrhdr => f.codeValid = true ∧ f.hdrDone = false
  | .pack => f.hdrDone = true
  | .rdhdr => f.trieValid = false
  | .dwalk => f.trieValid = true ∧ f.hdrDone = false

/-- The control part of a legal state (R27, R29, R33, R34, R36; spec/20_memory.md R68). -/
structure ControlOk (s : State) : Prop where
  /-- R27: SEQ = IDLE exactly when BUSY = 0. -/
  seq_busy : s.seq = .idle ↔ s.status.busy = false
  /-- R27: OPL is 0 when IDLE. -/
  opl_idle : s.seq = .idle → s.opl = 0
  /-- R27, R129: a running phase is one of the latched command's. -/
  running : ∀ p, s.seq = .run p → ∃ c, Instr.ofOpcode s.opl = some c ∧ p ∈ phasesOf c
  /-- R121, R123: the flags of a running phase; OUT_VALID is 0 and OUT_LEN is 0 until completion. -/
  running_flags : ∀ p, s.seq = .run p → phaseFlagsOk p s.status ∧ s.status.outValid = false ∧ s.outLen = 0
  /-- R121, R129: while DECODE runs its phase RDHDR, HDR_DONE is 0 since acceptance. -/
  running_decode : s.seq = .run .rdhdr → Instr.ofOpcode s.opl = some .decode → s.status.hdrDone = false
  /-- R120 step 2: while ERR = 1 only CLR runs. -/
  running_err : s.status.err = true → ∀ p, s.seq = .run p → p = .clr
  /-- R33: BUSY and DONE are never both 1. -/
  busy_done : s.status.busy = true → s.status.done = false
  /-- R33: ERR = 1 implies that the five validity flags are 0. -/
  err_flags : s.status.err = true → s.status.treeValid = false ∧ s.status.codeValid = false ∧
    s.status.hdrDone = false ∧ s.status.trieValid = false ∧ s.status.outValid = false
  /-- R34: ERRCODE is 0 when ERR = 0, and the code of a fault when ERR = 1. -/
  errcode_err : s.errcode = 0 ↔ s.status.err = false
  /-- R30: CODE_VALID = 1 has TREE_VALID = 1, HDR_DONE = 1 has CODE_VALID = 1. -/
  code_tree : s.status.codeValid = true → s.status.treeValid = true
  hdr_code : s.status.hdrDone = true → s.status.codeValid = true
  /-- R36: OUT_LEN is nonzero only if OUT_VALID = 1. -/
  outLen_valid : s.outLen ≠ 0 → s.status.outValid = true
  /-- R28, R68: the result lies in OUT. -/
  outLen_cap : s.outLen.toNat ≤ s.outCap

/-- The buffers of a legal state: the parameters are in range (R7), the memories in canonical form, and nothing is listed
outside them (R68, R69; for TNODE the canonical form says it, R44). -/
structure BuffersOk (s : State) : Prop where
  inCap_range : 1 ≤ s.inCap ∧ s.inCap < 2 ^ 32
  outCap_range : 1 ≤ s.outCap ∧ s.outCap < 2 ^ 32
  inp_wf : s.inp.wf = true
  out_wf : s.dp.out.wf = true
  tnode_wf : s.dp.tnode.wf = true
  inp_bound : ∀ c ∈ s.inp.cells, c.1 < s.inCap
  out_bound : ∀ c ∈ s.dp.out.cells, c.1 < s.outCap

/-- The promise of TRIE_VALID (R30): the trie, DA and DH are what some header in IN gave when RDHDR ran. -/
def State.trieFromHeader (s : State) : Prop :=
  ∃ (e : Env) (old : TrieMem) (a : Nat),
    readHeader e old = .ok (a, ⟨s.dp.tnode, s.dp.tnn⟩) ∧ s.dp.da.toNat = a ∧ s.dp.dh.toNat = 4 + 9 * a

/-- The promise of OUT_VALID (R30): OUT[0 .. OUT_LEN − 1] is the complete result of the most recent PACK or ENCODE, if the header
still stands (DWALK and DECODE clear HDR_DONE), and else of the most recent DWALK or DECODE. No result is empty. -/
def State.resultInOut (s : State) : Prop :=
  s.outLen ≠ 0 ∧
  (s.status.hdrDone = true → ∃ input : List Byte, input ≠ [] ∧ (∀ b ∈ input, entry s.dp.codeLen b ≠ 0) ∧
    s.outBytes 0 s.outLen.toNat = container s.dp.nsyms s.codes input) ∧
  (s.status.hdrDone = false → s.status.trieValid = true ∧ ∃ picks : List (List Bool × Byte), picks ≠ [] ∧
    (∀ x ∈ picks, trieSymbol s.dp.tnode 0 x.1 = some x.2) ∧ s.outBytes 0 s.outLen.toNat = picks.map Prod.snd)

/-- What each validity flag promises (R30), the bound of the frequency table (R40), and what the hidden registers hold between
steps. -/
structure TablesOk (s : State) : Prop where
  /-- R40, R142: while ERR = 0 the counts sum to less than 2^32. -/
  freq_sum : s.status.err = false → freqSum s.dp.freq < 2 ^ 32
  /-- TREE_VALID: the tree is the one of the present FREQ. -/
  tree : s.status.treeValid = true →
    buildTree s.dp.freq = .ok ⟨s.dp.node, s.dp.nsyms, s.dp.nnodes, s.dp.root⟩
  /-- CODE_VALID: the code table is the one of the present tree. -/
  code : s.status.codeValid = true → assignCodes s.dp.node s.dp.root = .ok s.codes
  /-- HDR_DONE: OUT starts with the header of the present code table. -/
  hdr : s.status.hdrDone = true →
    s.header.length ≤ s.outCap ∧ s.outBytes 0 s.header.length = s.header
  /-- TRIE_VALID: the trie, DA and DH are those of a header. -/
  trie : s.status.trieValid = true → s.trieFromHeader
  /-- OUT_VALID: OUT holds a complete result. -/
  result : s.status.outValid = true → s.resultInOut
  /-- R44, R197: while ERR = 0 the records in use are at most TRIE_CAP. -/
  tnn_cap : s.status.err = false → s.dp.tnn.toNat ≤ trieCap
  /-- R43: while ERR = 0 a code has at most 32 bits and a value that fits them; a symbol without one has the value 0. -/
  code_range : s.status.err = false →
    ∀ b : Byte, (entry s.dp.codeLen b).toNat ≤ 32 ∧ (entry s.dp.codeVal b).toNat < 2 ^ (entry s.dp.codeLen b).toNat
  /-- R42, R45, R46: while ERR = 0, between steps PQ is empty, the walk stands at the root, the packer holds no bits. -/
  units_at_rest : s.status.err = false →
    s.dp.pq = [] ∧ s.dp.cur = 0 ∧ s.dp.dstate = .atRoot ∧ s.dp.nb = 0 ∧ s.dp.crem = 0

/-- A legal state. -/
structure Legal (s : State) : Prop where
  control : ControlOk s
  buffers : BuffersOk s
  tables : TablesOk s

/-- `n` steps of the sequencer, stopping where it stops. -/
def sequencerRun : Nat → State → Host.Outcome State Fault Refusal
  | 0, s => .next s
  | n + 1, s =>
    match sequencerStep s with
    | .next s' => sequencerRun n s'
    | .fault x => .fault x
    | .refused x => .refused x

/-- One command after the other, stopping where one stops (spec/30_encoding.md R106: RUN). -/
def execAll : List Instr → State → Host.Outcome State Fault Refusal
  | [], s => .next s
  | i :: is, s =>
    match exec i s with
    | .next s' => execAll is s'
    | .fault x => .fault x
    | .refused x => .refused x

end Sys2Proof.Machine
end

