-- ==== Sys2Proof/Certificates/Slice0/Obligations.lean ====
section
/-!
DEFINITION. The statements for the provers. Each docstring names the rule of spec/ it formalises. A faulted command ends in
`faultEntry x s`, whose fields FaultEntryFixesTheVisibleState spells out.
-/

open Sys2Proof Sys2Proof.Machine

/-! ### Encoding -/

/-- R92: the twelve words. -/
def Obligations.TwelveWordsDecode : Prop :=
  decodeWord 0x00000000 = .ok .nop ∧ decodeWord 0x00000001 = .ok .clr ∧ decodeWord 0x00000002 = .ok .freq ∧
  decodeWord 0x00000003 = .ok .build ∧ decodeWord 0x00000004 = .ok .assign ∧ decodeWord 0x00000005 = .ok .wrhdr ∧
  decodeWord 0x00000006 = .ok .pack ∧ decodeWord 0x00000007 = .ok .encode ∧ decodeWord 0x00000008 = .ok .rdhdr ∧
  decodeWord 0x00000009 = .ok .dwalk ∧ decodeWord 0x0000000A = .ok .decode ∧ decodeWord 0x0000000B = .ok .ack

/-- R90, R92: decoding the word of a command gives the command back. -/
def Obligations.DecodeAfterEncodeIsIdentity : Prop := ∀ i : Instr, i.wf = true → decodeWord (encode i) = .ok i

/-- R91: a word is a command exactly when ZERO = 0 and OP ≤ 11, and it is then the word of that command only. -/
def Obligations.DecoderAcceptsExactlyTheLegalWords : Prop :=
  ∀ w : Word,
    ((∃ i, decodeWord w = .ok i) ↔ (w.extractLsb' 4 28 = 0 ∧ (w.extractLsb' 0 4).toNat ≤ 11)) ∧
    (∀ i, decodeWord w = .ok i → encode i = w)

/-! ### What a write to CMD does -/

/-- R120, R13, R11, R254: a pending write of a command's word to CMD runs that command, and the access is taken from the
queue; in phase steps (log 8) it is `startCommand`. An illegal word in phase steps comes to what R93 says. A wait, or nothing
pending, is one step of the sequencer; an idle sequencer does nothing. -/
def Obligations.StepRunsTheDecodedCommand : Prop :=
  (∀ (s : State) (w : Word) (i : Instr), decodeWord w = .ok i →
    (∀ ms, s.host = .regWrite 0 w :: ms → step s = exec i { s with host := ms }) ∧
    step (s.withFetchWord 32 w.toNat) = exec i s ∧
    (∀ ms, s.host = .startCommand w :: ms → step s = .next (startCommand i { s with host := ms }))) ∧
  (∀ (s : State) (w : Word) (ms : List HostMove), s.host = .startCommand w :: ms → (∀ i, decodeWord w ≠ .ok i) →
    step s = .next
      (if s.status.busy = true ∨ s.status.err = true then
        { s with host := ms, status := { s.status with dropped := true } }
      else faultEntry .illegalCommand { s with host := ms })) ∧
  (∀ (s : State) (ms : List HostMove), s.host = .wait :: ms → step s = sequencerStep { s with host := ms }) ∧
  (∀ s : State, s.host = [] → step s = sequencerStep s ∧ (s.seq = .idle → step s = .next s))

/-- R93: a word with OP in 12..15 or with any of bits [31:4] set is dropped while BUSY = 1 or ERR = 1 and raises
IllegalCommand otherwise. -/
def Obligations.IllegalWordIsDroppedOrRaisesIllegalCommand : Prop :=
  ∀ (s : State) (w : Word) (ms : List HostMove), s.host = .regWrite 0 w :: ms →
    (w.extractLsb' 4 28 ≠ 0 ∨ 12 ≤ (w.extractLsb' 0 4).toNat) →
    step s = .next
      (if s.status.busy = true ∨ s.status.err = true then
        { s with host := ms, status := { s.status with dropped := true } }
      else faultEntry .illegalCommand { s with host := ms })

/-- R120 steps 1 and 2: while BUSY = 1 every command word is lost, while ERR = 1 every one but NOP, ACK and CLR,
in one step and in phase steps. -/
def Obligations.BusyOrFaultedCoreDropsCommands : Prop :=
  ∀ (i : Instr) (s : State),
    (s.status.busy = true ∨ (s.status.err = true ∧ i ≠ .nop ∧ i ≠ .ack ∧ i ≠ .clr)) →
    exec i s = .next { s with status := { s.status with dropped := true } } ∧
    startCommand i s = { s with status := { s.status with dropped := true } }

/-- R228, R121: a command whose prerequisite fails raises IllegalCommand, in one step and in phase steps. -/
def Obligations.UnmetPrerequisiteRaisesIllegalCommand : Prop :=
  ∀ (i : Instr) (s : State), s.ready →
    ((i = .assign ∧ s.status.treeValid = false) ∨ (i = .wrhdr ∧ s.status.codeValid = false) ∨
      (i = .pack ∧ s.status.hdrDone = false) ∨ (i = .dwalk ∧ s.status.trieValid = false) ∨
      ((i = .freq ∨ i = .pack ∨ i = .encode ∨ i = .rdhdr ∨ i = .dwalk ∨ i = .decode) ∧ s.inCap < s.inLen.toNat)) →
    exec i s = .next (faultEntry .illegalCommand s) ∧ startCommand i s = faultEntry .illegalCommand s

/-- R240 with the codes of R220: what fault entry leaves. -/
def Obligations.FaultEntryFixesTheVisibleState : Prop :=
  ∀ (x : HwFault) (s : State),
    (faultEntry x s).errcode =
      (match x with
        | .emptyInput => 1 | .emptyAlphabet => 2 | .corruptHeader => 3 | .invalidPadding => 4 | .corruptContainer => 5
        | .codeTooLong => 6 | .outputOverflow => 7 | .illegalCommand => 8 | .noCode => 9) ∧
    (faultEntry x s).status = ⟨false, true, true, s.status.dropped, false, false, false, false, false⟩ ∧
    (faultEntry x s).outLen = 0 ∧ (faultEntry x s).seq = .idle ∧ (faultEntry x s).opl = 0 ∧
    (faultEntry x s).inLen = s.inLen ∧ (faultEntry x s).ie = s.ie ∧ (faultEntry x s).inp = s.inp ∧
    (faultEntry x s).inCap = s.inCap ∧ (faultEntry x s).outCap = s.outCap ∧ (faultEntry x s).host = s.host ∧
    (faultEntry x s).rdata = s.rdata

/-- R220, R242: a command of a ready core ends with ERR = 0, or by fault entry from the state it started in, with a fault the
table of R220 gives it. ENCODE's own list is EncodeRaisesOnlyItsOwnFaults. -/
def Obligations.FaultedCommandIsOnlyFaultEntry : Prop :=
  ∀ (i : Instr) (s t : State), s.ready → exec i s = .next t →
    t.status.err = false ∨
    ∃ x, t = faultEntry x s ∧
      (match i with
        | .nop | .ack | .clr => False
        | .freq => x = .emptyInput ∨ x = .illegalCommand
        | .build => x = .emptyAlphabet
        | .assign => x = .codeTooLong ∨ x = .illegalCommand
        | .wrhdr => x = .outputOverflow ∨ x = .illegalCommand
        | .pack => x = .emptyInput ∨ x = .noCode ∨ x = .outputOverflow ∨ x = .illegalCommand
        | .encode => True
        | .rdhdr => x = .corruptHeader ∨ x = .illegalCommand
        | .dwalk => x = .corruptContainer ∨ x = .invalidPadding ∨ x = .outputOverflow ∨ x = .illegalCommand
        | .decode =>
          x = .corruptHeader ∨ x = .corruptContainer ∨ x = .invalidPadding ∨ x = .outputOverflow ∨ x = .illegalCommand)

/-- R177, R222, R229: ENCODE raises EmptyInput, CodeTooLong, OutputOverflow or IllegalCommand, never EmptyAlphabet or NoCode. -/
def Obligations.EncodeRaisesOnlyItsOwnFaults : Prop :=
  ∀ (s t : State), s.ready → exec .encode s = .next t → t.status.err = true →
    t = faultEntry .emptyInput s ∨ t = faultEntry .codeTooLong s ∨ t = faultEntry .outputOverflow s ∨
      t = faultEntry .illegalCommand s

/-! ### NOP, ACK, CLR -/

/-- R126: NOP. -/
def Obligations.NopChangesNothing : Prop :=
  encode .nop = 0x00000000 ∧
  (∀ s : State, s.status.busy = false → exec .nop s = .next s) ∧
  (∀ s : State, s.status.busy = true → exec .nop s = .next { s with status := { s.status with dropped := true } })

/-- R127: ACK. -/
def Obligations.AckClearsDoneAndDropped : Prop :=
  encode .ack = 0x0000000B ∧
  (∀ s : State, s.status.busy = false →
    exec .ack s = .next { s with status := { s.status with done := false, dropped := false } }) ∧
  (∀ s : State, s.status.busy = true → exec .ack s = .next { s with status := { s.status with dropped := true } })

/-- R128: CLR, with ERR = 1 or 0. Every table and register of the datapath has its reset value; OUT, IN, IN_LEN and CTRL keep
what they held, and STATUS is 0x002. R51 gives the traversal stack and TNODE no value, so nothing is said of them. -/
def Obligations.ClrClearsTablesFlagsAndFault : Prop :=
  encode .clr = 0x00000001 ∧
  (∀ s : State, s.status.busy = false →
    ∃ stack tnode, exec .clr s = .next { s with
      status := ⟨false, true, false, false, false, false, false, false, false⟩
      errcode := 0, outLen := 0, seq := .idle, opl := 0
      dp := { State.reset.dp with out := s.dp.out, tnode := tnode, stack := stack } }) ∧
  (∀ s : State, s.status.busy = true → exec .clr s = .next { s with status := { s.status with dropped := true } })

/-! ### FREQ and BUILD -/

/-- R141: FREQ on a non-empty input counts its bytes; RP ends at IN_LEN (R28, log 9); nothing else changes. -/
def Obligations.FreqCountsTheInput : Prop :=
  ∀ s : State, s.ready → 0 < s.inLen.toNat → s.inLen.toNat ≤ s.inCap →
    ∃ t, exec .freq s = .next t ∧
      (∀ b : Byte, (entry t.dp.freq b).toNat = s.input.count b) ∧
      t = { s with
        status := { s.status with busy := false, done := true, treeValid := false, codeValid := false, hdrDone := false,
                                  outValid := false }
        outLen := 0, seq := .idle, opl := 0
        dp := { s.dp with freq := t.dp.freq, rp := s.inLen } }

/-- R221: FREQ and ENCODE, and PACK behind a header, raise EmptyInput when IN_LEN = 0. -/
def Obligations.EmptyInputIsRefused : Prop :=
  ∀ s : State, s.ready → s.inLen = 0 →
    exec .freq s = .next (faultEntry .emptyInput s) ∧ exec .encode s = .next (faultEntry .emptyInput s) ∧
    (s.status.hdrDone = true → exec .pack s = .next (faultEntry .emptyInput s))

/-- R222, R150: BUILD raises EmptyAlphabet when, and only when, no FREQ entry is above 0; ENCODE never does. -/
def Obligations.BuildRefusesTheEmptyAlphabet : Prop :=
  ∀ s : State, s.ready →
    (exec .build s = .next (faultEntry .emptyAlphabet s) ↔ ∀ b : Byte, entry s.dp.freq b = 0) ∧
    exec .encode s ≠ .next (faultEntry .emptyAlphabet s)

/-- R144, R38: BUILD on a non-empty table: NSYMS, NNODES, ROOT, and what it changes. -/
def Obligations.BuildCompletes : Prop :=
  ∀ s : State, s.ready → (∃ b : Byte, entry s.dp.freq b ≠ 0) →
    ∃ t, exec .build s = .next t ∧
      t.dp.nsyms.toNat = (alphabet s.dp.freq).length ∧
      t.dp.nnodes.toNat = (if (alphabet s.dp.freq).length = 1 then 3 else 2 * (alphabet s.dp.freq).length - 1) ∧
      t.dp.root.toNat = t.dp.nnodes.toNat - 1 ∧
      t = { s with
        status := { s.status with busy := false, done := true, treeValid := true, codeValid := false, hdrDone := false,
                                  outValid := false }
        outLen := 0, seq := .idle, opl := 0
        dp := { s.dp with node := t.dp.node, nsyms := t.dp.nsyms, nnodes := t.dp.nnodes, root := t.dp.root, pq := [] } }

/-- R145, R151, R144: NODE[j] is the leaf of the j-th smallest symbol of the alphabet; exactly the records below NNODES are in
use, the rest FREE. -/
def Obligations.BuildPutsLeavesInSymbolOrder : Prop :=
  ∀ (freq : WordTable) (tr : Tree), buildTree freq = .ok tr →
    (∀ (j : Nat) (b : Byte), (alphabet freq)[j]? = some b → tr.node[j]? = some ⟨.leaf, b, entry freq b, 0, 0⟩) ∧
    (∀ (j : Nat) (r : Node), tr.node[j]? = some r → (r.kind = .leaf ↔ j < (alphabet freq).length)) ∧
    (∀ (j : Nat) (r : Node), tr.node[j]? = some r → (r = Node.empty ↔ tr.nnodes.toNat ≤ j))

/-- R144, R147, R148: every merge takes the two least nodes of PQ; the first removed is the right child, the second the left
child, and the new weight is the sum. -/
def Obligations.EveryMergeTakesTheTwoLeast : Prop :=
  ∀ (freq : WordTable) (tr : Tree), buildTree freq = .ok tr → 2 ≤ (alphabet freq).length →
    ∀ (k : Nat) (r : Node), (alphabet freq).length ≤ k → k < tr.nnodes.toNat → tr.node[k]? = some r →
      r.kind = .internal ∧ r.sym = 0 ∧ r.weight = weightOf tr.node r.left + weightOf tr.node r.right ∧
      availableAt tr.node (alphabet freq).length k r.right ∧ availableAt tr.node (alphabet freq).length k r.left ∧
      before tr.node r.right r.left = true ∧
      ∀ j : NodeIdx, availableAt tr.node (alphabet freq).length k j → j ≠ r.right → j ≠ r.left →
        before tr.node r.left j = true

/-- R149: the tree of a one-symbol alphabet. -/
def Obligations.OneSymbolTreeHasPlaceholder : Prop :=
  ∀ (freq : WordTable) (b : Byte), alphabet freq = [b] →
    ∃ tr, buildTree freq = .ok tr ∧ tr.nsyms = 1 ∧ tr.nnodes = 3 ∧ tr.root = 2 ∧
      tr.node[0]? = some ⟨.leaf, b, entry freq b, 0, 0⟩ ∧
      tr.node[1]? = some ⟨.placeholder, 0, 0, 0, 0⟩ ∧
      tr.node[2]? = some ⟨.internal, 0, entry freq b, 0, 1⟩ ∧
      assignCodes tr.node tr.root = .ok (CodeTable.empty.record b 1 0)

/-- R151, R142: the root weighs the sum of all counts. -/
def Obligations.RootWeighsTheWholeInput : Prop :=
  ∀ (freq : WordTable) (tr : Tree), buildTree freq = .ok tr → freqSum freq < 2 ^ 32 →
    (weightOf tr.node tr.root).toNat = freqSum freq

/-! ### ASSIGN -/

/-- R161, R162: ASSIGN on a built tree with no INTERNAL node at depth 32 gives each leaf's symbol the path from the root to
the leaf as its code, and every other symbol none (R166). -/
def Obligations.AssignGivesEachLeafItsPath : Prop :=
  ∀ s : State, s.ready → s.status.treeValid = true →
    buildTree s.dp.freq = .ok ⟨s.dp.node, s.dp.nsyms, s.dp.nnodes, s.dp.root⟩ →
    (∀ p r, p.length = 32 → nodeOnPath s.dp.node s.dp.root p = some r → r.kind ≠ .internal) →
    ∃ t, exec .assign s = .next t ∧
      (∀ p r, nodeOnPath s.dp.node s.dp.root p = some r → r.kind = .leaf →
        (entry t.dp.codeLen r.sym).toNat = p.length ∧ codeOf t.codes r.sym = p ∧
        (entry t.dp.codeVal r.sym).toNat < 2 ^ p.length) ∧
      (∀ b : Byte, entry s.dp.freq b = 0 → entry t.dp.codeLen b = 0 ∧ entry t.dp.codeVal b = 0) ∧
      t = { s with
        status := { s.status with busy := false, done := true, codeValid := true, hdrDone := false, outValid := false }
        outLen := 0, seq := .idle, opl := 0
        dp := { s.dp with codeLen := t.dp.codeLen, codeVal := t.dp.codeVal, stack := t.dp.stack } }

/-- R163, R226: ASSIGN on a built tree with an INTERNAL node at depth 32 raises CodeTooLong. -/
def Obligations.AssignRefusesTooDeepTrees : Prop :=
  ∀ s : State, s.ready → s.status.treeValid = true →
    buildTree s.dp.freq = .ok ⟨s.dp.node, s.dp.nsyms, s.dp.nnodes, s.dp.root⟩ →
    (∃ p r, p.length = 32 ∧ nodeOnPath s.dp.node s.dp.root p = some r ∧ r.kind = .internal) →
    exec .assign s = .next (faultEntry .codeTooLong s)

/-- R164: CodeTooLong cannot happen if N ≤ 33. -/
def Obligations.AtMost33SymbolsNeverTooLong : Prop :=
  ∀ (freq : WordTable) (tr : Tree), buildTree freq = .ok tr → (alphabet freq).length ≤ 33 →
    ∃ c, assignCodes tr.node tr.root = .ok c

/-- R165, R166: what a code table satisfies: the coded symbols are the alphabet, lengths and values are in range, the codes
are prefix-free. -/
def Obligations.AssignedCodesArePrefixFree : Prop :=
  ∀ (freq : WordTable) (tr : Tree) (c : CodeTable), buildTree freq = .ok tr → assignCodes tr.node tr.root = .ok c →
    (∀ b : Byte, entry c.len b ≠ 0 ↔ entry freq b ≠ 0) ∧
    (∀ b : Byte, (entry c.len b).toNat ≤ 32 ∧ (entry c.val b).toNat < 2 ^ (entry c.len b).toNat) ∧
    (∀ b b' : Byte, b ≠ b' → entry freq b ≠ 0 → entry freq b' ≠ 0 → ¬ codeOf c b <+: codeOf c b')

/-- R165, last clause: with two symbols or more the code is complete, every endless bit sequence starts with the code of exactly
one symbol; with one symbol it is not, since "1" is no code. -/
def Obligations.CodeIsComplete : Prop :=
  ∀ (freq : WordTable) (tr : Tree) (c : CodeTable), buildTree freq = .ok tr → assignCodes tr.node tr.root = .ok c →
    (2 ≤ (alphabet freq).length →
      ∀ f : Nat → Bool, ∃ b, (entry freq b ≠ 0 ∧ codeOf c b = (List.range (codeOf c b).length).map f) ∧
        ∀ b', entry freq b' ≠ 0 → codeOf c b' = (List.range (codeOf c b').length).map f → b' = b) ∧
    ((alphabet freq).length = 1 → ∀ b, codeOf c b ≠ [true])

/-! ### WRHDR, PACK, ENCODE -/

/-- R174, R95 to R97, R62, R100: the header of a code table made from a tree is 4 + 9·NSYMS bytes long: the alphabet size, then
for each symbol in ascending order the symbol, its length and its value, each number least significant byte first. -/
def Obligations.HeaderHasNineBytesPerSymbol : Prop :=
  ∀ (freq : WordTable) (tr : Tree) (c : CodeTable), buildTree freq = .ok tr → assignCodes tr.node tr.root = .ok c →
    (header tr.nsyms c).length = 4 + 9 * tr.nsyms.toNat ∧
    (∀ k, k < 4 → (header tr.nsyms c)[k]? = some (BitVec.ofNat 8 ((alphabet freq).length / 256 ^ k))) ∧
    ∀ (j : Nat) (b : Byte), (alphabet freq)[j]? = some b →
      (header tr.nsyms c)[4 + 9 * j]? = some b ∧
      ∀ k, k < 4 →
        (header tr.nsyms c)[4 + 9 * j + 1 + k]? = some (BitVec.ofNat 8 ((entry c.len b).toNat / 256 ^ k)) ∧
        (header tr.nsyms c)[4 + 9 * j + 5 + k]? = some (BitVec.ofNat 8 ((entry c.val b).toNat / 256 ^ k))

/-- R174: WRHDR writes the header from OUT[0] on, and no other byte of OUT. -/
def Obligations.WrhdrWritesTheHeader : Prop :=
  ∀ s : State, s.ready → s.status.codeValid = true → s.outCap < 2 ^ 32 →
    s.header.length ≤ s.outCap →
    ∃ t, exec .wrhdr s = .next t ∧
      t.outBytes 0 s.header.length = s.header ∧
      (∀ a, s.header.length ≤ a → t.dp.out.read a = s.dp.out.read a) ∧
      t.dp.wp.toNat = s.header.length ∧
      t = { s with
        status := { s.status with busy := false, done := true, hdrDone := true, outValid := false }
        outLen := 0, seq := .idle, opl := 0
        dp := { s.dp with out := t.dp.out, wp := t.dp.wp } }

/-- R175, R171, R172, R63, R98: PACK writes the payload and the trailer from 4 + 9·NSYMS on, and no other byte of OUT. The
packer's registers end as log 9 says. -/
def Obligations.PackWritesPayloadAndTrailer : Prop :=
  ∀ s : State, s.ready → s.status.hdrDone = true → 0 < s.inLen.toNat → s.inLen.toNat ≤ s.inCap → s.outCap < 2 ^ 32 →
    (∀ b ∈ s.input, entry s.dp.codeLen b ≠ 0) →
    4 + 9 * s.dp.nsyms.toNat + payloadLength (payloadBits s.codes s.input) + 4 ≤ s.outCap →
    ∃ t, exec .pack s = .next t ∧
      t.outBytes (4 + 9 * s.dp.nsyms.toNat) (payloadLength (payloadBits s.codes s.input) + 4) =
        payloadBytes (payloadBits s.codes s.input) ++ fieldBytes (padCount (payloadBits s.codes s.input)) ∧
      (∀ a, a < 4 + 9 * s.dp.nsyms.toNat ∨
          4 + 9 * s.dp.nsyms.toNat + payloadLength (payloadBits s.codes s.input) + 4 ≤ a →
        t.dp.out.read a = s.dp.out.read a) ∧
      t.dp.pad.toNat = padCount (payloadBits s.codes s.input) ∧
      t.outLen.toNat = 4 + 9 * s.dp.nsyms.toNat + payloadLength (payloadBits s.codes s.input) + 4 ∧
      t = { s with
        status := { s.status with busy := false, done := true, outValid := true }
        outLen := t.outLen, seq := .idle, opl := 0
        dp := { s.dp with
          out := t.dp.out, wp := t.outLen, rp := s.inLen, acc := 0, nb := 0
          csr := t.dp.csr, crem := 0, pad := t.dp.pad } }

/-- R173: the pad count PACK and ENCODE compute from the T payload bits, 0 for a multiple of 8; it passes R199. -/
def Obligations.PadCountIsAlwaysLegal : Prop :=
  ∀ (i : Instr) (s t : State), (i = .pack ∨ i = .encode) → s.ready → exec i s = .next t → t.status.err = false →
    (payloadBits t.codes s.input).length = (s.input.map (fun b => (entry t.dp.codeLen b).toNat)).sum ∧
    t.dp.pad.toNat = (8 - (payloadBits t.codes s.input).length % 8) % 8 ∧
    1 ≤ (payloadBits t.codes s.input).length ∧
    1 ≤ payloadLength (payloadBits t.codes s.input) ∧
    t.dp.pad.toNat < 8 * payloadLength (payloadBits t.codes s.input) ∧
    (payloadBits t.codes s.input).length + t.dp.pad.toNat = 8 * payloadLength (payloadBits t.codes s.input)

/-- R176, R229, R235: PACK raises NoCode at the first byte without a code, if the bytes before it have not overflowed OUT. -/
def Obligations.PackRefusesByteWithoutCode : Prop :=
  ∀ (s : State) (pre post : List Byte) (b : Byte), s.ready → s.status.hdrDone = true → s.inLen.toNat ≤ s.inCap →
    s.outCap < 2 ^ 32 → s.input = pre ++ b :: post →
    (∀ x ∈ pre, entry s.dp.codeLen x ≠ 0) → entry s.dp.codeLen b = 0 →
    4 + 9 * s.dp.nsyms.toNat + (payloadBits s.codes pre).length / 8 ≤ s.outCap →
    exec .pack s = .next (faultEntry .noCode s)

/-- R177, R129: ENCODE succeeds exactly when its five phases run as five commands succeed, and the end states are equal. It
raises a fault exactly when the phases before one succeed as commands and that one then raises the fault. -/
def Obligations.EncodeEqualsItsFivePhases : Prop :=
  ∀ s : State, s.ready →
    (∀ t, (exec .encode s = .next t ∧ t.status.err = false) ↔
      (execAll [.freq, .build, .assign, .wrhdr, .pack] s = .next t ∧ t.status.err = false)) ∧
    (∀ x, exec .encode s = .next (faultEntry x s) ↔
      ∃ done i rest u, [.freq, .build, .assign, .wrhdr, .pack] = done ++ i :: rest ∧
        execAll done s = .next u ∧ u.status.err = false ∧ exec i u = .next (faultEntry x u))

/-- R177, R95, R178: ENCODE of a non-empty input whose tree is not too deep and whose container fits leaves that container in
OUT, and no other byte of OUT changes. The hidden registers RP, WP, PQ, ACC, NB, CREM end as log 9 and log 5 say. -/
def Obligations.EncodeWritesTheContainer : Prop :=
  ∀ (s : State) (tr : Tree) (c : CodeTable), s.ready → 0 < s.inLen.toNat → s.inLen.toNat ≤ s.inCap → s.outCap < 2 ^ 32 →
    buildTree (countTable s.input) = .ok tr → assignCodes tr.node tr.root = .ok c →
    (container tr.nsyms c s.input).length ≤ s.outCap →
    ∃ t, exec .encode s = .next t ∧
      t.outLen.toNat = (container tr.nsyms c s.input).length ∧
      t.outBytes 0 t.outLen.toNat = container tr.nsyms c s.input ∧
      (∀ a, t.outLen.toNat ≤ a → t.dp.out.read a = s.dp.out.read a) ∧
      t.dp.pad.toNat = padCount (payloadBits c s.input) ∧
      t = { s with
        status := { s.status with busy := false, done := true, treeValid := true, codeValid := true, hdrDone := true,
                                  outValid := true }
        outLen := t.outLen, seq := .idle, opl := 0
        dp := { s.dp with
          out := t.dp.out, wp := t.outLen, rp := s.inLen
          freq := countTable s.input, node := tr.node, nsyms := tr.nsyms, nnodes := tr.nnodes, root := tr.root, pq := []
          stack := t.dp.stack, codeLen := c.len, codeVal := c.val
          acc := 0, nb := 0, csr := t.dp.csr, crem := 0, pad := t.dp.pad } }

/-! ### RDHDR, DWALK, DECODE -/

/-- R191 to R195, R223: RDHDR accepts a header exactly when its counts fit, its entries are legal and its codes are
prefix-free, in whatever order; otherwise it raises CorruptHeader. -/
def Obligations.RdhdrAcceptsExactlyGoodHeaders : Prop :=
  ∀ s : State, s.ready → s.inLen.toNat ≤ s.inCap →
    (s.goodHeader →
      ∃ t, exec .rdhdr s = .next t ∧
        t.dp.da.toNat = s.headerCount.toNat ∧ t.dp.dh.toNat = 4 + 9 * s.headerCount.toNat ∧ t.dp.tnn.toNat ≤ 8193 ∧
        t = { s with
          status := { s.status with busy := false, done := true, trieValid := true, outValid := false }
          outLen := 0, seq := .idle, opl := 0
          dp := { s.dp with tnode := t.dp.tnode, tnn := t.dp.tnn, da := t.dp.da, dh := t.dp.dh } }) ∧
    (¬ s.goodHeader → exec .rdhdr s = .next (faultEntry .corruptHeader s))

/-- R194, R195, R196: the trie RDHDR builds has, at the end of each entry's code, a leaf of its symbol, and no other leaves. -/
def Obligations.RdhdrTrieHoldsExactlyTheCodes : Prop :=
  ∀ s t : State, s.ready → s.inLen.toNat ≤ s.inCap → s.goodHeader → exec .rdhdr s = .next t →
    ∀ (p : List Bool) (b : Byte),
      trieSymbol t.dp.tnode 0 p = some b ↔ ∃ x ∈ s.entries, x.code = p ∧ x.sym = b

/-- R205, R199, R224: DWALK's tests before the walk. -/
def Obligations.DwalkRefusesMissingTrailerAndBadPadding : Prop :=
  ∀ s : State, s.ready → s.status.trieValid = true → s.inLen.toNat ≤ s.inCap →
    (s.inLen.toNat < s.dp.dh.toNat + 4 → exec .dwalk s = .next (faultEntry .corruptContainer s)) ∧
    (s.dp.dh.toNat + 4 ≤ s.inLen.toNat →
      (s.trailer < 0 ∨ 7 < s.trailer ∨ 8 * (s.inLen.toNat - 4 - s.dp.dh.toNat) ≤ s.trailer.toNat) →
      exec .dwalk s = .next (faultEntry .invalidPadding s))

/-- R200, R201, R198: when the payload bits are codes of the trie one after the other, DWALK writes their symbols from OUT[0]
on, and no other byte of OUT. The unpacker's registers end as log 9 says. -/
def Obligations.DwalkEmitsTheSymbols : Prop :=
  ∀ (s : State) (picks : List (List Bool × Byte)), s.ready → s.status.trieValid = true → s.inLen.toNat ≤ s.inCap →
    s.outCap < 2 ^ 32 → s.paddingOk s.dp.dh.toNat →
    (∀ x ∈ picks, trieSymbol s.dp.tnode 0 x.1 = some x.2) →
    s.payload s.dp.dh.toNat = picks.flatMap Prod.fst → picks.length ≤ s.outCap →
    ∃ t, exec .dwalk s = .next t ∧
      t.outLen.toNat = picks.length ∧ t.outBytes 0 picks.length = picks.map Prod.snd ∧
      (∀ a, picks.length ≤ a → t.dp.out.read a = s.dp.out.read a) ∧
      t.dp.pad.toNat = s.trailer.toNat ∧
      t = { s with
        status := { s.status with busy := false, done := true, hdrDone := false, outValid := true }
        outLen := t.outLen, seq := .idle, opl := 0
        dp := { s.dp with
          out := t.dp.out, wp := t.outLen, rp := t.dp.rp, usr := t.dp.usr, ub := t.dp.ub, bitsLeft := 0
          cur := 0, dstate := .atRoot, pad := t.dp.pad } }

/-- R202, R203, R225: when the payload bits go on after the last whole code with bits that reach no leaf (an absent child, or
the bits end inside the tree), DWALK raises CorruptContainer. The trie is one that RDHDR builds, the promise of TRIE_VALID (R30);
EveryStepKeepsTheFlagsPromises states that every step keeps it. -/
def Obligations.DwalkRefusesBitsThatReachNoLeaf : Prop :=
  ∀ (s : State) (picks : List (List Bool × Byte)) (rest : List Bool), s.ready → s.status.trieValid = true →
    s.inLen.toNat ≤ s.inCap → s.outCap < 2 ^ 32 → s.paddingOk s.dp.dh.toNat →
    (∀ x ∈ picks, trieSymbol s.dp.tnode 0 x.1 = some x.2) →
    s.payload s.dp.dh.toNat = picks.flatMap Prod.fst ++ rest → picks.length ≤ s.outCap →
    s.trieFromHeader → rest ≠ [] → (∀ p, p <+: rest → trieSymbol s.dp.tnode 0 p = none) →
    exec .dwalk s = .next (faultEntry .corruptContainer s)

/-- R68, R179, R207, R227, R235: WRHDR, PACK and DWALK raise OutputOverflow when what they write does not fit OUT. PACK does so
behind the bytes `pre` whose codes fill more bytes than there is room for, whatever bytes follow; that their codes fill a
byte at all is implied where HDR_DONE keeps its promise, since OUT then has room for the header. -/
def Obligations.ShortOutputOverflows : Prop :=
  ∀ s : State, s.ready → s.outCap < 2 ^ 32 →
    (s.status.codeValid = true → s.outCap < s.header.length →
      exec .wrhdr s = .next (faultEntry .outputOverflow s)) ∧
    (s.status.hdrDone = true → 0 < s.inLen.toNat → s.inLen.toNat ≤ s.inCap →
      (∀ b ∈ s.input, entry s.dp.codeLen b ≠ 0) →
      s.outCap < 4 + 9 * s.dp.nsyms.toNat + payloadLength (payloadBits s.codes s.input) + 4 →
      exec .pack s = .next (faultEntry .outputOverflow s)) ∧
    (∀ pre post : List Byte, s.status.hdrDone = true → s.inLen.toNat ≤ s.inCap → s.input = pre ++ post →
      (∀ b ∈ pre, entry s.dp.codeLen b ≠ 0) → 8 ≤ (payloadBits s.codes pre).length →
      s.outCap < 4 + 9 * s.dp.nsyms.toNat + (payloadBits s.codes pre).length / 8 →
      exec .pack s = .next (faultEntry .outputOverflow s)) ∧
    (∀ (picks : List (List Bool × Byte)) (rest : List Bool), s.status.trieValid = true → s.inLen.toNat ≤ s.inCap →
      s.paddingOk s.dp.dh.toNat → (∀ x ∈ picks, trieSymbol s.dp.tnode 0 x.1 = some x.2) →
      s.payload s.dp.dh.toNat = picks.flatMap Prod.fst ++ rest → picks.length = s.outCap + 1 →
      exec .dwalk s = .next (faultEntry .outputOverflow s))

/-- R204, R129: DECODE succeeds exactly when RDHDR and DWALK run as two commands succeed, and the end states are equal. It
raises a fault exactly when RDHDR raises it, or RDHDR succeeds and DWALK then raises it. -/
def Obligations.DecodeEqualsItsTwoPhases : Prop :=
  ∀ s : State, s.ready →
    (∀ t, (exec .decode s = .next t ∧ t.status.err = false) ↔
      (execAll [.rdhdr, .dwalk] s = .next t ∧ t.status.err = false)) ∧
    (∀ x, exec .decode s = .next (faultEntry x s) ↔
      ∃ done i rest u, [.rdhdr, .dwalk] = done ++ i :: rest ∧
        execAll done s = .next u ∧ u.status.err = false ∧ exec i u = .next (faultEntry x u))

/-- R190, R204: DECODE of a good header behind which the payload bits are codes of its entries one after the other writes
their symbols. The hidden registers WP, BITS_LEFT, CUR, DSTATE end as log 9 says. -/
def Obligations.DecodeWritesTheSymbols : Prop :=
  ∀ (s : State) (picks : List HeaderEntry), s.ready → s.inLen.toNat ≤ s.inCap → s.outCap < 2 ^ 32 → s.goodHeader →
    s.paddingOk (4 + 9 * s.headerCount.toNat) →
    (∀ x ∈ picks, x ∈ s.entries) →
    s.payload (4 + 9 * s.headerCount.toNat) = picks.flatMap HeaderEntry.code → picks.length ≤ s.outCap →
    ∃ t, exec .decode s = .next t ∧
      t.outLen.toNat = picks.length ∧ t.outBytes 0 picks.length = picks.map HeaderEntry.sym ∧
      (∀ a, picks.length ≤ a → t.dp.out.read a = s.dp.out.read a) ∧
      t.dp.pad.toNat = s.trailer.toNat ∧ t.dp.da.toNat = s.headerCount.toNat ∧
      t.dp.dh.toNat = 4 + 9 * s.headerCount.toNat ∧
      t = { s with
        status := { s.status with busy := false, done := true, hdrDone := false, trieValid := true, outValid := true }
        outLen := t.outLen, seq := .idle, opl := 0
        dp := { s.dp with
          out := t.dp.out, wp := t.outLen, rp := t.dp.rp, pad := t.dp.pad
          tnode := t.dp.tnode, tnn := t.dp.tnn, da := t.dp.da, dh := t.dp.dh
          usr := t.dp.usr, ub := t.dp.ub, bitsLeft := 0, cur := 0, dstate := .atRoot } }

/-- R208, R14: DECODE of the container ENCODE left gives the input back. -/
def Obligations.DecodeInvertsEncode : Prop :=
  ∀ s t s' : State, s.ready → s.outCap < 2 ^ 32 → exec .encode s = .next t → t.status.err = false →
    s'.ready → s'.outCap < 2 ^ 32 → s'.input = t.outBytes 0 t.outLen.toNat → s'.inLen.toNat ≤ s'.inCap →
    s.inLen.toNat ≤ s'.outCap →
    ∃ t', exec .decode s' = .next t' ∧ t'.status.err = false ∧ t'.outLen = s.inLen ∧
      t'.outBytes 0 t'.outLen.toNat = s.input

/-! ### Frames over all commands -/

/-- R66, R35, R180: no command writes IN, IN_LEN or CTRL, and none touches the host's side. -/
def Obligations.CommandsKeepTheInput : Prop :=
  ∀ (i : Instr) (s t : State), exec i s = .next t →
    t.inp = s.inp ∧ t.inLen = s.inLen ∧ t.ie = s.ie ∧ t.inCap = s.inCap ∧ t.outCap = s.outCap ∧ t.host = s.host ∧
      t.rdata = s.rdata

/-- R180: the encoder's commands leave the decoder's state alone (a faulted command leaves it unspecified, R52). -/
def Obligations.EncoderLeavesDecoderAlone : Prop :=
  ∀ (i : Instr) (s t : State), (i = .freq ∨ i = .build ∨ i = .assign ∨ i = .wrhdr ∨ i = .pack ∨ i = .encode) →
    exec i s = .next t → t.status.err = false →
    t.dp.tnode = s.dp.tnode ∧ t.dp.tnn = s.dp.tnn ∧ t.dp.da = s.dp.da ∧ t.dp.dh = s.dp.dh ∧
      t.status.trieValid = s.status.trieValid ∧ t.dp.usr = s.dp.usr ∧ t.dp.ub = s.dp.ub ∧
      t.dp.bitsLeft = s.dp.bitsLeft ∧ t.dp.cur = s.dp.cur ∧ t.dp.dstate = s.dp.dstate

/-- R207: the decoder's commands leave the encoder's tables and registers alone. HDR_DONE is part of this for
RDHDR only (R180: "The reverse does not hold"). -/
def Obligations.DecoderLeavesEncoderTablesAlone : Prop :=
  ∀ (i : Instr) (s t : State), (i = .rdhdr ∨ i = .dwalk ∨ i = .decode) → exec i s = .next t → t.status.err = false →
    t.dp.freq = s.dp.freq ∧ t.dp.node = s.dp.node ∧ t.dp.nsyms = s.dp.nsyms ∧ t.dp.nnodes = s.dp.nnodes ∧
      t.dp.root = s.dp.root ∧ t.dp.pq = s.dp.pq ∧ t.dp.codeLen = s.dp.codeLen ∧ t.dp.codeVal = s.dp.codeVal ∧
      t.dp.acc = s.dp.acc ∧ t.dp.nb = s.dp.nb ∧ t.dp.csr = s.dp.csr ∧ t.dp.crem = s.dp.crem ∧
      t.dp.stack = s.dp.stack ∧ t.status.treeValid = s.status.treeValid ∧ t.status.codeValid = s.status.codeValid ∧
      (i = .rdhdr → t.status.hdrDone = s.status.hdrDone)

/-- R66, R134: the core never reads OUT: with other bytes in OUT a command does the same, and each byte of OUT is then the same
as well, or one that the command has left as it was. -/
def Obligations.CommandsNeverReadOut : Prop :=
  ∀ (i : Instr) (s t : State) (m : Memory), exec i s = .next t →
    ∃ m', exec i { s with dp := { s.dp with out := m } } = .next { t with dp := { t.dp with out := m' } } ∧
      ∀ a, m'.read a = t.dp.out.read a ∨ (t.dp.out.read a = s.dp.out.read a ∧ m'.read a = m.read a)

/-- R69: bytes of IN at and above IN_LEN do not affect any result. -/
def Obligations.BytesAboveInLenDoNotMatter : Prop :=
  ∀ (i : Instr) (s t : State) (m : Memory), (∀ a, a < s.inLen.toNat → m.read a = s.inp.read a) → exec i s = .next t →
    exec i { s with inp := m } = .next { t with inp := m }

/-! ### Whole-machine rules -/

/-- R11, R129, R276: an operational command taken in phase steps ends where it ends as one step. -/
def Obligations.PhaseStepsEqualOneStep : Prop :=
  ∀ (i : Instr) (s : State), s.status.busy = false → s.seq = .idle →
    sequencerRun (phasesOf i).length (startCommand i s) = exec i s

/-- R123: what the acceptance of an operational command does. The flags it clears are those of R29's column "cleared by". -/
def Obligations.AcceptanceFixesTheFlags : Prop :=
  ∀ (i : Instr) (s : State), operational i = true → s.status.busy = false → (s.status.err = false ∨ i = .clr) →
    prerequisite i s = true →
    (startCommand i s).irq = false ∧
    ∃ p ps, phasesOf i = p :: ps ∧
      startCommand i s = { s with
        status := { s.status with
          busy := true, done := false, outValid := false
          treeValid := if i ∈ [.clr, .freq, .build, .encode] then false else s.status.treeValid
          codeValid := if i ∈ [.clr, .freq, .build, .assign, .encode] then false else s.status.codeValid
          hdrDone := if i ∈ [.clr, .freq, .build, .assign, .wrhdr, .encode, .dwalk, .decode] then false
            else s.status.hdrDone
          trieValid := if i ∈ [.clr, .rdhdr, .decode] then false else s.status.trieValid }
        outLen := 0, opl := i.opcode, seq := .run p }

/-- R130, R232: an operational command that is taken ends with BUSY = 0 and DONE = 1, so irq is CTRL.IE; at success every flag
is as R121 says, and OUT_LEN is the final WP or 0. -/
def Obligations.CompletionFixesTheFlagsAndIrq : Prop :=
  ∀ (i : Instr) (s t : State), operational i = true → s.status.busy = false → (s.status.err = false ∨ i = .clr) →
    exec i s = .next t →
    t.status.busy = false ∧ t.status.done = true ∧ t.seq = .idle ∧ t.opl = 0 ∧ t.irq = s.ie ∧
    (t.status.err = false →
      t.errcode = (if i = .clr then 0 else s.errcode) ∧
      t.outLen = (if i ∈ [.pack, .encode, .dwalk, .decode] then t.dp.wp else 0) ∧
      t.status =
        { busy := false, done := true, err := false
          dropped := if i = .clr then false else s.status.dropped
          treeValid := if i ∈ [.build, .encode] then true else if i ∈ [.clr, .freq] then false else s.status.treeValid
          codeValid := if i ∈ [.assign, .encode] then true else if i ∈ [.clr, .freq, .build] then false
            else s.status.codeValid
          hdrDone := if i ∈ [.wrhdr, .encode] then true
            else if i ∈ [.clr, .freq, .build, .assign, .dwalk, .decode] then false else s.status.hdrDone
          trieValid := if i ∈ [.rdhdr, .decode] then true else if i = .clr then false else s.status.trieValid
          outValid := decide (i ∈ [.pack, .encode, .dwalk, .decode]) })

/-- R27, R33, R34, R36, R28, R68: every step keeps the control part and the buffers legal. -/
def Obligations.EveryStepKeepsControlAndBuffersLegal : Prop :=
  ∀ s t : State, ControlOk s → BuffersOk s → step s = .next t → ControlOk t ∧ BuffersOk t

/-- R30, R40, R43, R42, R45, R46: every step keeps what the validity flags promise and the registers' ranges. -/
def Obligations.EveryStepKeepsTheFlagsPromises : Prop :=
  ∀ s t : State, Legal s → step s = .next t → Legal t

/-- R161, R197, R27: from a legal state ASSIGN and ENCODE never meet a FREE node, DWALK and DECODE never leave the records of
TNODE, and the sequencer never loses its phase: the only faults of the model are the host's accesses beyond the buffers. -/
def Obligations.LegalStatesNeverGetStuck : Prop :=
  ∀ (s : State) (x : Fault), Legal s → step s = .fault x → x = .noSuchInByte ∨ x = .noSuchOutByte

/-- R51: reset is a legal state, for every instance. -/
def Obligations.ResetIsLegal : Prop := Legal State.reset

/-- R51, R260: the reset values the spec gives. -/
def Obligations.ResetValues : Prop :=
  State.reset.status = (⟨false, false, false, false, false, false, false, false, false⟩ : Status) ∧
  State.reset.errcode = 0 ∧ State.reset.inLen = 0 ∧ State.reset.outLen = 0 ∧ State.reset.ie = false ∧
  State.reset.seq = .idle ∧ State.reset.opl = 0 ∧ State.reset.irq = false ∧
  (∀ b, entry State.reset.dp.freq b = 0 ∧ entry State.reset.dp.codeLen b = 0 ∧ entry State.reset.dp.codeVal b = 0) ∧
  (∀ (i : Nat) (r : Node), State.reset.dp.node[i]? = some r → r = (⟨.free, 0, 0, 0, 0⟩ : Node)) ∧
  State.reset.dp.nsyms = 0 ∧ State.reset.dp.nnodes = 0 ∧ State.reset.dp.root = 0 ∧ State.reset.dp.pad = 0 ∧
  State.reset.dp.pq = [] ∧ State.reset.dp.rp = 0 ∧ State.reset.dp.wp = 0 ∧ State.reset.dp.acc = 0 ∧
  State.reset.dp.nb = 0 ∧ State.reset.dp.csr = 0 ∧ State.reset.dp.crem = 0 ∧ State.reset.dp.tnn = 0 ∧
  State.reset.dp.da = 0 ∧ State.reset.dp.dh = 0 ∧ State.reset.dp.usr = 0 ∧ State.reset.dp.ub = 0 ∧
  State.reset.dp.bitsLeft = 0 ∧ State.reset.dp.cur = 0 ∧ State.reset.dp.dstate = .atRoot

/-! ### The host's side -/

/-- R131: a write of IN_LEN or CTRL is stored when BUSY = 0 and dropped when BUSY = 1; writes to read-only and reserved
offsets are ignored at all times. -/
def Obligations.RegisterWritesStoreDropOrIgnore : Prop :=
  ∀ (s : State) (off : Nat) (v : Word) (ms : List HostMove), s.host = .regWrite off v :: ms →
    off < 0x2000 → off % 4 = 0 → off ≠ 0 →
    step s = .next
      (if off = 0x0C then
        (if s.status.busy = true then { s with host := ms, status := { s.status with dropped := true } }
         else { s with host := ms, inLen := v })
      else if off = 0x14 then
        (if s.status.busy = true then { s with host := ms, status := { s.status with dropped := true } }
         else { s with host := ms, ie := v.getLsbD 0 })
      else { s with host := ms })

/-- R33: STATUS as the host reads it, bit by bit. -/
def Obligations.StatusWordHasTheFlagsInPlace : Prop :=
  ∀ f : Status,
    f.toWord.getLsbD 0 = f.busy ∧ f.toWord.getLsbD 1 = f.done ∧ f.toWord.getLsbD 2 = f.err ∧
    f.toWord.getLsbD 3 = f.dropped ∧ f.toWord.getLsbD 4 = f.treeValid ∧ f.toWord.getLsbD 5 = f.codeValid ∧
    f.toWord.getLsbD 6 = f.hdrDone ∧ f.toWord.getLsbD 7 = f.trieValid ∧ f.toWord.getLsbD 8 = f.outValid ∧
    f.toWord.extractLsb' 9 23 = 0

/-- R31, R48: what each register and each window reads as, STATUS with BUSY = 0 (HostAccessesAreExact has BUSY = 1). -/
def Obligations.RegistersReadAsTheMapSays : Prop :=
  ∀ s : State,
    regValue s 0x00 = 0 ∧ (s.status.busy = false → regValue s 0x04 = s.status.toWord) ∧
    regValue s 0x08 = s.errcode.setWidth 32 ∧
    regValue s 0x0C = s.inLen ∧ regValue s 0x10 = s.outLen ∧ regValue s 0x14 = (if s.ie then 1 else 0) ∧
    regValue s 0x18 = s.dp.nsyms.setWidth 32 ∧ regValue s 0x1C = s.dp.nnodes.setWidth 32 ∧
    regValue s 0x20 = s.dp.root.setWidth 32 ∧ regValue s 0x24 = s.dp.pad.setWidth 32 ∧
    (∀ off, 0x28 ≤ off → off < 0x400 → regValue s off = 0) ∧
    (∀ b : Byte, regValue s (0x400 + 4 * b.toNat) = entry s.dp.freq b ∧
      regValue s (0x800 + 4 * b.toNat) = (entry s.dp.codeLen b).setWidth 32 ∧
      regValue s (0xC00 + 4 * b.toNat) = entry s.dp.codeVal b) ∧
    (∀ (i : Nat) (r : Node), s.dp.node[i]? = some r →
      regValue s (0x1000 + 8 * i) = r.weight ∧
      (regValue s (0x1004 + 8 * i)).extractLsb' 28 4 = 0 ∧
      (regValue s (0x1004 + 8 * i)).extractLsb' 26 2 =
        (match r.kind with | .free => 0 | .leaf => 1 | .internal => 2 | .placeholder => 3) ∧
      (regValue s (0x1004 + 8 * i)).extractLsb' 18 8 = r.sym ∧
      (regValue s (0x1004 + 8 * i)).extractLsb' 9 9 = r.left ∧
      (regValue s (0x1004 + 8 * i)).extractLsb' 0 9 = r.right) ∧
    (∀ off, 0x1FF8 ≤ off → off < 0x2000 → regValue s off = 0)

/-- R33, R48, R124, R67, R73, R49. At all times a read of CMD, STATUS, IN_LEN, CTRL or a reserved offset returns the register's
value and changes nothing but the bus. Between acceptance and completion STATUS reads as acceptance left it, however many
phases have ended (R124 over R129 with R33: the model's choice, log 23), and IN_LEN and CTRL read as stored. With BUSY = 0
every register reads so; a write of IN changes that byte and no other; OUT reads give its bytes. -/
def Obligations.HostAccessesAreExact : Prop :=
  (∀ (s : State) (ms : List HostMove) (off : Nat), s.host = .regRead off :: ms → off % 4 = 0 →
    (off ∈ [0x00, 0x04, 0x0C, 0x14] ∨ (0x28 ≤ off ∧ off < 0x400) ∨ (0x1FF8 ≤ off ∧ off < 0x2000)) →
    step s = .next { s with host := ms, rdata := regValue s off }) ∧
  (∀ (i : Instr) (s : State), operational i = true → s.status.busy = false → (s.status.err = false ∨ i = .clr) →
    prerequisite i s = true →
    ∀ (n : Nat) (u : State), sequencerRun n (startCommand i s) = .next u → u.status.busy = true →
      regValue u 0x04 = (startCommand i s).status.toWord ∧ regValue u 0x0C = s.inLen ∧
      regValue u 0x14 = (if s.ie then 1 else 0)) ∧
  ∀ (s : State) (ms : List HostMove), s.status.busy = false →
    (∀ off, s.host = .regRead off :: ms → off < 0x2000 → off % 4 = 0 →
      step s = .next { s with host := ms, rdata := regValue s off }) ∧
    (∀ a b, s.host = .inWrite a b :: ms → a < s.inCap →
      ∃ m, step s = .next { s with host := ms, inp := m } ∧ m.read a = b ∧ ∀ a', a' ≠ a → m.read a' = s.inp.read a') ∧
    (∀ a, s.host = .inRead a :: ms → a < s.inCap →
      step s = .next { s with host := ms, rdata := (s.inp.read a).setWidth 32 }) ∧
    (∀ a, s.host = .outRead a :: ms → a < s.outCap →
      step s = .next { s with host := ms, rdata := (s.dp.out.read a).setWidth 32 })

/-- R260: a hardware reset at any moment. The queue and the parameters are the model's (log 14). -/
def Obligations.HardwareResetGivesTheResetState : Prop :=
  ∀ (s : State) (ms : List HostMove), s.host = .hwReset :: ms →
    ∃ inp out tnode fresh, step s = .next { State.reset with
      inp := inp, dp := { State.reset.dp with out := out, tnode := tnode }
      inCap := s.inCap, outCap := s.outCap, fresh := fresh, rdata := s.rdata, host := ms }
end

