-- ==== Sys2Proof/Laws/Memory.lean ====
section
/-!
SUPPORT. The laws of the sparse lists behind IN, OUT and TNODE: a read after a write, and the canonical form.
-/

namespace Sys2Proof.Machine

variable {α : Type}

@[simp] theorem lookup_insert_self (l : List (Nat × α)) (k : Nat) (v : α) : lookup (insert l k v) k = some v := by
  induction l with
  | nil => simp [insert, lookup]
  | cons jw l ih =>
    obtain ⟨j, w⟩ := jw
    simp only [insert]
    split
    · simp [lookup]
    · split
      · simp [lookup]
      · next h => simp [lookup, Ne.symm h, ih]

theorem lookup_insert_other (l : List (Nat × α)) {k k' : Nat} (v : α) (h : k' ≠ k) :
    lookup (insert l k v) k' = lookup l k' := by
  induction l with
  | nil => simp [insert, lookup, Ne.symm h]
  | cons jw l ih =>
    obtain ⟨j, w⟩ := jw
    simp only [insert]
    split
    · simp [lookup, Ne.symm h]
    · split
      · next hk => subst hk; simp [lookup, Ne.symm h]
      · simp [lookup, ih]

theorem lookup_insert (l : List (Nat × α)) (k k' : Nat) (v : α) :
    lookup (insert l k v) k' = if k' = k then some v else lookup l k' := by
  split
  · next h => subst h; simp
  · next h => exact lookup_insert_other l v h

/-- The head of the list after an insertion: the new key, or the old head. -/
theorem rising_insert (l : List (Nat × α)) (k : Nat) (v : α) (h : rising l = true) : rising (insert l k v) = true := by
  induction l with
  | nil => rfl
  | cons jw l ih =>
    obtain ⟨j, w⟩ := jw
    simp only [insert]
    split
    · next hk => simp [rising, hk, h]
    · split
      · next hk =>
        subst hk
        cases l with
        | nil => rfl
        | cons x l => obtain ⟨i, u⟩ := x; simpa [rising] using h
      · next hlt hne =>
        cases l with
        | nil => simp [insert, rising]; omega
        | cons x l =>
          obtain ⟨i, u⟩ := x
          simp only [rising, Bool.and_eq_true, decide_eq_true_eq] at h
          have hi := ih h.2
          simp only [insert] at hi ⊢
          split
          · next hki => rw [if_pos hki] at hi; simp [rising]; exact ⟨by omega, hki, h.2⟩
          · next hki =>
            rw [if_neg hki] at hi
            split
            · next hke => rw [if_pos hke] at hi; simp only [rising, Bool.and_eq_true, decide_eq_true_eq]; exact ⟨by omega, hi⟩
            · next hke => rw [if_neg hke] at hi; simp only [rising, Bool.and_eq_true, decide_eq_true_eq]; exact ⟨h.1, hi⟩

theorem mem_insert {l : List (Nat × α)} {k : Nat} {v : α} {c : Nat × α} (h : c ∈ insert l k v) : c = (k, v) ∨ c ∈ l := by
  induction l with
  | nil => simpa [insert] using h
  | cons jw l ih =>
    obtain ⟨j, w⟩ := jw
    simp only [insert] at h
    split at h
    · simpa using h
    · split at h
      · rcases List.mem_cons.1 h with h | h
        · exact .inl h
        · exact .inr (List.mem_cons_of_mem _ h)
      · rcases List.mem_cons.1 h with h | h
        · exact .inr (h ▸ List.mem_cons_self)
        · exact (ih h).imp_right (List.mem_cons_of_mem _)

@[simp] theorem Memory.write_epoch (m : Memory) (a : Nat) (v : Byte) : (m.write a v).epoch = m.epoch := rfl

/-- A read after a write: the written byte at its address, the old byte at every other. -/
theorem Memory.read_write (m : Memory) (a a' : Nat) (v : Byte) :
    (m.write a v).read a' = if a' = a then v else m.read a' := by
  simp only [Memory.read, Memory.write, Memory.unlisted, lookup_insert]
  split <;> rfl

@[simp] theorem Memory.read_write_self (m : Memory) (a : Nat) (v : Byte) : (m.write a v).read a = v := by
  simp [Memory.read_write]

theorem Memory.read_write_other (m : Memory) {a a' : Nat} (v : Byte) (h : a' ≠ a) : (m.write a v).read a' = m.read a' := by
  simp [Memory.read_write, h]

/-- The canonical form is kept by a write. -/
theorem Memory.wf_write (m : Memory) (a : Nat) (v : Byte) (h : m.wf = true) : (m.write a v).wf = true :=
  rising_insert m.cells a v h

/-- Nothing listed: in canonical form. -/
@[simp] theorem Memory.wf_nil (n : Nat) : (Memory.mk [] n).wf = true := rfl

@[simp] theorem TrieMem.wf_nil (n : Nat) : (TrieMem.mk [] n).wf = true := rfl

/-- Everything a write of TNODE can do: below TRIE_CAP it lists the record, from there on nothing. -/
theorem TrieMem.write_cases (m : TrieMem) (j : TrieIdx) (r : TNode) :
    (j.toNat < trieCap ∧ m.write j r = { m with cells := insert m.cells j.toNat r }) ∨
    (trieCap ≤ j.toNat ∧ m.write j r = m) := by
  unfold TrieMem.write
  split
  · next h => exact .inl ⟨h, rfl⟩
  · next h => exact .inr ⟨Nat.le_of_not_lt h, rfl⟩

@[simp] theorem TrieMem.write_epoch (m : TrieMem) (j : TrieIdx) (r : TNode) : (m.write j r).epoch = m.epoch := by
  rcases m.write_cases j r with ⟨-, h⟩ | ⟨-, h⟩ <;> rw [h]

/-- A read after a write of a record that exists. -/
theorem TrieMem.read_write (m : TrieMem) {j : TrieIdx} (j' : TrieIdx) (r : TNode) (hj : j.toNat < trieCap) :
    (m.write j r).read j' = if j' = j then r else m.read j' := by
  simp only [TrieMem.read, TrieMem.write, if_pos hj, lookup_insert, BitVec.toNat_inj]
  split <;> rfl

theorem TrieMem.read_write_self (m : TrieMem) {j : TrieIdx} (r : TNode) (hj : j.toNat < trieCap) :
    (m.write j r).read j = r := by
  simp [TrieMem.read_write _ _ _ hj]

theorem TrieMem.read_write_other (m : TrieMem) {j j' : TrieIdx} (r : TNode) (h : j' ≠ j) :
    (m.write j r).read j' = m.read j' := by
  rcases m.write_cases j r with ⟨hj, -⟩ | ⟨-, hw⟩
  · simp [TrieMem.read_write _ _ _ hj, h]
  · rw [hw]

theorem TrieMem.wf_write (m : TrieMem) (j : TrieIdx) (r : TNode) (h : m.wf = true) : (m.write j r).wf = true := by
  rcases m.write_cases j r with ⟨hj, hw⟩ | ⟨-, hw⟩
  · simp only [TrieMem.wf, Bool.and_eq_true, List.all_eq_true, decide_eq_true_eq] at h ⊢
    rw [hw]
    refine ⟨rising_insert m.cells j.toNat r h.1, fun c hc => ?_⟩
    rcases mem_insert hc with rfl | hc
    · exact hj
    · exact h.2 c hc
  · rw [hw]; exact h

/-! ### Tables of 256 entries -/

theorem entry_setEntry (t : Vector α 256) (b b' : Byte) (v : α) :
    entry (setEntry t b v) b' = if b' = b then v else entry t b' := by
  simp only [entry, setEntry, Vector.getElem_set, BitVec.toNat_inj]
  by_cases h : b = b'
  · simp [h]
  · simp [h, Ne.symm h]

@[simp] theorem entry_setEntry_self (t : Vector α 256) (b : Byte) (v : α) : entry (setEntry t b v) b = v := by
  simp [entry_setEntry]

@[simp] theorem entry_replicate (v : α) (b : Byte) : entry (Vector.replicate 256 v) b = v := by
  simp [entry]

/-- Two tables with the same entries are equal. -/
theorem table_ext {t u : Vector α 256} (h : ∀ b : Byte, entry t b = entry u b) : t = u := by
  apply Vector.ext
  intro i hi
  have := h (BitVec.ofNat 8 i)
  simpa [entry, Nat.mod_eq_of_lt hi] using this

/-- At reset every memory is in canonical form. -/
theorem reset_memory_wf :
    State.reset.inp.wf = true ∧ State.reset.dp.out.wf = true ∧ State.reset.dp.tnode.wf = true := ⟨rfl, rfl, rfl⟩

/-- R62, R100: a field written as its four bytes reads back. -/
theorem read32_of_le32 {m : Memory} {a : Nat} {v : Word}
    (h : [m.read a, m.read (a + 1), m.read (a + 2), m.read (a + 3)] = le32 v) : m.read32 a = v := by
  simp only [le32, List.cons.injEq, and_true] at h
  obtain ⟨h0, h1, h2, h3⟩ := h
  rw [Memory.read32, h0, h1, h2, h3]
  apply BitVec.eq_of_getLsbD_eq
  intro i hi
  simp only [BitVec.getLsbD_append, BitVec.getLsbD_extractLsb']
  split
  · split
    · simp [*]
    · rename_i h8
      have : i - 8 < 8 := by omega
      have h' : 8 + (i - 8) = i := by omega
      simp [this, h']
  · split
    · rename_i h16
      have h' : 16 + (i - 16) = i := by omega
      simp [h16, h']
    · have : i - 16 - 8 < 8 := by omega
      have h' : 24 + (i - 16 - 8) = i := by omega
      simp [this, h']

end Sys2Proof.Machine
end

