-- ==== Sys2Proof/Laws/State.lean ====
section
/-!
SUPPORT. One lemma for each field of the state under each named update, so that no later proof unfolds an update.
-/

namespace Sys2Proof.Machine

/-! ### drop -/

@[simp] theorem drop_status (s : State) : (drop s).status = { s.status with dropped := true } := rfl
@[simp] theorem drop_errcode (s : State) : (drop s).errcode = s.errcode := rfl
@[simp] theorem drop_inLen (s : State) : (drop s).inLen = s.inLen := rfl
@[simp] theorem drop_outLen (s : State) : (drop s).outLen = s.outLen := rfl
@[simp] theorem drop_ie (s : State) : (drop s).ie = s.ie := rfl
@[simp] theorem drop_seq (s : State) : (drop s).seq = s.seq := rfl
@[simp] theorem drop_opl (s : State) : (drop s).opl = s.opl := rfl
@[simp] theorem drop_dp (s : State) : (drop s).dp = s.dp := rfl
@[simp] theorem drop_inp (s : State) : (drop s).inp = s.inp := rfl
@[simp] theorem drop_inCap (s : State) : (drop s).inCap = s.inCap := rfl
@[simp] theorem drop_outCap (s : State) : (drop s).outCap = s.outCap := rfl
@[simp] theorem drop_fresh (s : State) : (drop s).fresh = s.fresh := rfl
@[simp] theorem drop_rdata (s : State) : (drop s).rdata = s.rdata := rfl
@[simp] theorem drop_host (s : State) : (drop s).host = s.host := rfl

/-! ### accept -/

@[simp] theorem accept_status (c : Instr) (s : State) : (accept c s).status = { clearAtAcceptance c s.status with busy := true, done := false, outValid := false } := rfl
@[simp] theorem accept_errcode (c : Instr) (s : State) : (accept c s).errcode = s.errcode := rfl
@[simp] theorem accept_inLen (c : Instr) (s : State) : (accept c s).inLen = s.inLen := rfl
@[simp] theorem accept_outLen (c : Instr) (s : State) : (accept c s).outLen = 0 := rfl
@[simp] theorem accept_ie (c : Instr) (s : State) : (accept c s).ie = s.ie := rfl
@[simp] theorem accept_seq (c : Instr) (s : State) : (accept c s).seq = (match phasesOf c with | [] => .idle | p :: _ => .run p) := rfl
@[simp] theorem accept_opl (c : Instr) (s : State) : (accept c s).opl = c.opcode := rfl
@[simp] theorem accept_dp (c : Instr) (s : State) : (accept c s).dp = s.dp := rfl
@[simp] theorem accept_inp (c : Instr) (s : State) : (accept c s).inp = s.inp := rfl
@[simp] theorem accept_inCap (c : Instr) (s : State) : (accept c s).inCap = s.inCap := rfl
@[simp] theorem accept_outCap (c : Instr) (s : State) : (accept c s).outCap = s.outCap := rfl
@[simp] theorem accept_fresh (c : Instr) (s : State) : (accept c s).fresh = s.fresh := rfl
@[simp] theorem accept_rdata (c : Instr) (s : State) : (accept c s).rdata = s.rdata := rfl
@[simp] theorem accept_host (c : Instr) (s : State) : (accept c s).host = s.host := rfl

/-! ### complete -/

@[simp] theorem complete_status (c : Instr) (s : State) : (complete c s).status = (let f := { setAtSuccess c s.status with busy := false, done := true }; if c = .clr then { f with err := false, dropped := false } else f) := rfl
@[simp] theorem complete_errcode (c : Instr) (s : State) : (complete c s).errcode = (if c = .clr then 0 else s.errcode) := rfl
@[simp] theorem complete_inLen (c : Instr) (s : State) : (complete c s).inLen = s.inLen := rfl
@[simp] theorem complete_outLen (c : Instr) (s : State) : (complete c s).outLen = outLenAtSuccess c s.dp := rfl
@[simp] theorem complete_ie (c : Instr) (s : State) : (complete c s).ie = s.ie := rfl
@[simp] theorem complete_seq (c : Instr) (s : State) : (complete c s).seq = .idle := rfl
@[simp] theorem complete_opl (c : Instr) (s : State) : (complete c s).opl = 0 := rfl
@[simp] theorem complete_dp (c : Instr) (s : State) : (complete c s).dp = s.dp := rfl
@[simp] theorem complete_inp (c : Instr) (s : State) : (complete c s).inp = s.inp := rfl
@[simp] theorem complete_inCap (c : Instr) (s : State) : (complete c s).inCap = s.inCap := rfl
@[simp] theorem complete_outCap (c : Instr) (s : State) : (complete c s).outCap = s.outCap := rfl
@[simp] theorem complete_fresh (c : Instr) (s : State) : (complete c s).fresh = s.fresh := rfl
@[simp] theorem complete_rdata (c : Instr) (s : State) : (complete c s).rdata = s.rdata := rfl
@[simp] theorem complete_host (c : Instr) (s : State) : (complete c s).host = s.host := rfl

/-! ### faultEntry -/

@[simp] theorem faultEntry_status (x : HwFault) (s : State) : (faultEntry x s).status = ⟨false, true, true, s.status.dropped, false, false, false, false, false⟩ := rfl
@[simp] theorem faultEntry_errcode (x : HwFault) (s : State) : (faultEntry x s).errcode = x.code := rfl
@[simp] theorem faultEntry_inLen (x : HwFault) (s : State) : (faultEntry x s).inLen = s.inLen := rfl
@[simp] theorem faultEntry_outLen (x : HwFault) (s : State) : (faultEntry x s).outLen = 0 := rfl
@[simp] theorem faultEntry_ie (x : HwFault) (s : State) : (faultEntry x s).ie = s.ie := rfl
@[simp] theorem faultEntry_seq (x : HwFault) (s : State) : (faultEntry x s).seq = .idle := rfl
@[simp] theorem faultEntry_opl (x : HwFault) (s : State) : (faultEntry x s).opl = 0 := rfl
@[simp] theorem faultEntry_dp (x : HwFault) (s : State) : (faultEntry x s).dp = Datapath.unspecified s.fresh := rfl
@[simp] theorem faultEntry_inp (x : HwFault) (s : State) : (faultEntry x s).inp = s.inp := rfl
@[simp] theorem faultEntry_inCap (x : HwFault) (s : State) : (faultEntry x s).inCap = s.inCap := rfl
@[simp] theorem faultEntry_outCap (x : HwFault) (s : State) : (faultEntry x s).outCap = s.outCap := rfl
@[simp] theorem faultEntry_fresh (x : HwFault) (s : State) : (faultEntry x s).fresh = s.fresh + 1 := rfl
@[simp] theorem faultEntry_rdata (x : HwFault) (s : State) : (faultEntry x s).rdata = s.rdata := rfl
@[simp] theorem faultEntry_host (x : HwFault) (s : State) : (faultEntry x s).host = s.host := rfl

/-! ### endPhase -/

@[simp] theorem endPhase_status (p : Phase) (ps : List Phase) (d : Datapath) (s : State) : (endPhase p ps d s).status = setAtPhaseEnd p s.status := rfl
@[simp] theorem endPhase_errcode (p : Phase) (ps : List Phase) (d : Datapath) (s : State) : (endPhase p ps d s).errcode = s.errcode := rfl
@[simp] theorem endPhase_inLen (p : Phase) (ps : List Phase) (d : Datapath) (s : State) : (endPhase p ps d s).inLen = s.inLen := rfl
@[simp] theorem endPhase_outLen (p : Phase) (ps : List Phase) (d : Datapath) (s : State) : (endPhase p ps d s).outLen = s.outLen := rfl
@[simp] theorem endPhase_ie (p : Phase) (ps : List Phase) (d : Datapath) (s : State) : (endPhase p ps d s).ie = s.ie := rfl
@[simp] theorem endPhase_seq (p : Phase) (ps : List Phase) (d : Datapath) (s : State) : (endPhase p ps d s).seq = (match ps with | [] => s.seq | q :: _ => .run q) := rfl
@[simp] theorem endPhase_opl (p : Phase) (ps : List Phase) (d : Datapath) (s : State) : (endPhase p ps d s).opl = s.opl := rfl
@[simp] theorem endPhase_dp (p : Phase) (ps : List Phase) (d : Datapath) (s : State) : (endPhase p ps d s).dp = d := rfl
@[simp] theorem endPhase_inp (p : Phase) (ps : List Phase) (d : Datapath) (s : State) : (endPhase p ps d s).inp = s.inp := rfl
@[simp] theorem endPhase_inCap (p : Phase) (ps : List Phase) (d : Datapath) (s : State) : (endPhase p ps d s).inCap = s.inCap := rfl
@[simp] theorem endPhase_outCap (p : Phase) (ps : List Phase) (d : Datapath) (s : State) : (endPhase p ps d s).outCap = s.outCap := rfl
@[simp] theorem endPhase_fresh (p : Phase) (ps : List Phase) (d : Datapath) (s : State) : (endPhase p ps d s).fresh = s.fresh := rfl
@[simp] theorem endPhase_rdata (p : Phase) (ps : List Phase) (d : Datapath) (s : State) : (endPhase p ps d s).rdata = s.rdata := rfl
@[simp] theorem endPhase_host (p : Phase) (ps : List Phase) (d : Datapath) (s : State) : (endPhase p ps d s).host = s.host := rfl

/-! ### hwReset -/

@[simp] theorem hwReset_status (s : State) : (hwReset s).status = Status.zero := rfl
@[simp] theorem hwReset_errcode (s : State) : (hwReset s).errcode = 0 := rfl
@[simp] theorem hwReset_inLen (s : State) : (hwReset s).inLen = 0 := rfl
@[simp] theorem hwReset_outLen (s : State) : (hwReset s).outLen = 0 := rfl
@[simp] theorem hwReset_ie (s : State) : (hwReset s).ie = false := rfl
@[simp] theorem hwReset_seq (s : State) : (hwReset s).seq = .idle := rfl
@[simp] theorem hwReset_opl (s : State) : (hwReset s).opl = 0 := rfl
@[simp] theorem hwReset_dp (s : State) : (hwReset s).dp = Datapath.cleared ⟨[], s.fresh + 1⟩ ⟨[], s.fresh⟩ := rfl
@[simp] theorem hwReset_inp (s : State) : (hwReset s).inp = ⟨[], s.fresh⟩ := rfl
@[simp] theorem hwReset_inCap (s : State) : (hwReset s).inCap = s.inCap := rfl
@[simp] theorem hwReset_outCap (s : State) : (hwReset s).outCap = s.outCap := rfl
@[simp] theorem hwReset_fresh (s : State) : (hwReset s).fresh = s.fresh + 2 := rfl
@[simp] theorem hwReset_rdata (s : State) : (hwReset s).rdata = s.rdata := rfl
@[simp] theorem hwReset_host (s : State) : (hwReset s).host = s.host := rfl

/-! ### What a STATUS read shows (log 23) -/

/-- With BUSY = 0 the flags as they are. -/
theorem shownStatus_idle {s : State} (h : s.status.busy = false) : s.shownStatus = s.status := by
  simp [State.shownStatus, h]

/-- With BUSY = 1 the flags that the latched command cleared at acceptance show 0. -/
theorem shownStatus_busy {s : State} {c : Instr} (h : s.status.busy = true) (hc : Instr.ofOpcode s.opl = some c) :
    s.shownStatus = clearAtAcceptance c s.status := by
  simp [State.shownStatus, h, hc]

@[simp] theorem regValue_status (s : State) : regValue s 0x04 = s.shownStatus.toWord := rfl

/-! ### The queue -/

@[simp] theorem queueCommandWord_host (w : Word) (s : State) :
    (queueCommandWord w s).host = .regWrite 0 w :: s.host := rfl

theorem queueCommandWord_pop (w : Word) (s : State) : { queueCommandWord w s with host := s.host } = s := rfl

/-! ### Fault entry forgets how far the command had come (log 19) -/

@[simp] theorem faultEntry_accept (x : HwFault) (c : Instr) (s : State) (hd : (clearAtAcceptance c s.status).dropped = s.status.dropped) :
    faultEntry x (accept c s) = faultEntry x s := by
  simp [faultEntry, accept, hd]

theorem clearAtAcceptance_dropped (c : Instr) (f : Status) : (clearAtAcceptance c f).dropped = f.dropped := by
  cases c <;> rfl

theorem clearAtAcceptance_err (c : Instr) (f : Status) : (clearAtAcceptance c f).err = f.err := by
  cases c <;> rfl

theorem setAtPhaseEnd_dropped (p : Phase) (f : Status) : (setAtPhaseEnd p f).dropped = f.dropped := by
  cases p <;> rfl

theorem setAtPhaseEnd_err (p : Phase) (f : Status) : (setAtPhaseEnd p f).err = f.err := by
  cases p <;> rfl

theorem setAtSuccess_err (c : Instr) (f : Status) : (setAtSuccess c f).err = f.err := by
  cases c <;> rfl

theorem setAtSuccess_dropped (c : Instr) (f : Status) : (setAtSuccess c f).dropped = f.dropped := by
  cases c <;> rfl

theorem faultEntry_of_accept (x : HwFault) (c : Instr) (s : State) : faultEntry x (accept c s) = faultEntry x s :=
  faultEntry_accept x c s (clearAtAcceptance_dropped c s.status)

theorem faultEntry_of_endPhase (x : HwFault) (p : Phase) (ps : List Phase) (d : Datapath) (s : State) :
    faultEntry x (endPhase p ps d s) = faultEntry x s := by
  simp [faultEntry, endPhase, setAtPhaseEnd_dropped]

end Sys2Proof.Machine
end

