-- ==== Sys2Proof/Laws/Ops.lean ====
section
/-!
SUPPORT. What the shared operations can do: loops, bytes put to OUT, and a command from acceptance to its end.
-/

namespace Sys2Proof.Machine

/-! ### Loops -/

section
variable {α ε : Type} (f : α → Except ε α)

@[simp] theorem loop_zero (a : α) : loop f 0 a = .ok a := rfl

theorem loop_succ_ok {a b : α} (n : Nat) (h : f a = .ok b) : loop f (n + 1) a = loop f n b := by simp [loop, h]

theorem loop_succ_error {a : α} {x : ε} (n : Nat) (h : f a = .error x) : loop f (n + 1) a = .error x := by simp [loop, h]

/-- A loop in two parts. -/
theorem loop_add (m n : Nat) (a : α) :
    loop f (m + n) a = (match loop f m a with | .ok b => loop f n b | .error x => .error x) := by
  induction m generalizing a with
  | zero => simp
  | succ m ih =>
    rw [Nat.add_right_comm]
    cases h : f a with
    | ok b => simp [loop, h, ih]
    | error x => simp [loop, h]

/-- What every round keeps, the loop keeps. -/
theorem loop_keeps {P : α → Prop} (hf : ∀ a b, P a → f a = .ok b → P b) :
    ∀ (n : Nat) (a b : α), P a → loop f n a = .ok b → P b := by
  intro n
  induction n with
  | zero => intro a b ha h; cases h; exact ha
  | succ n ih =>
    intro a b ha h
    cases hfa : f a with
    | ok c => rw [loop_succ_ok f n hfa] at h; exact ih c b (hf a c ha hfa) h
    | error x => rw [loop_succ_error f n hfa] at h; cases h

end

/-! ### 32-bit fields of the container (R62, R100): the machine's bytes are those of the claims -/

theorem le32_eq_fieldBytes (v : Word) : le32 v = fieldBytes v.toNat := by
  simp only [le32, fieldBytes, List.range_succ, List.range_zero, List.nil_append, List.map_cons, List.map_nil,
    List.cons_append, List.cons.injEq, and_true]
  refine ⟨?_, ?_, ?_, ?_⟩ <;> apply BitVec.eq_of_toNat_eq <;> simp [BitVec.extractLsb'_toNat, Nat.shiftRight_eq_div_pow]

theorem read32_toNat (m : Memory) (a : Nat) : (m.read32 a).toNat = fieldAt m a := by
  have h0 := (m.read a).isLt
  have h1 := (m.read (a + 1)).isLt
  have h2 := (m.read (a + 2)).isLt
  simp only [fieldAt, List.range_succ, List.range_zero, List.nil_append, List.map_cons, List.map_nil, List.cons_append,
    List.sum_cons, List.sum_nil, Memory.read32, BitVec.toNat_append, Nat.add_zero]
  rw [← Nat.shiftLeft_add_eq_or_of_lt h0, ← Nat.shiftLeft_add_eq_or_of_lt h2, ← Nat.shiftLeft_add_eq_or_of_lt (by
    simp only [Nat.shiftLeft_eq]; omega)]
  simp only [Nat.shiftLeft_eq]
  omega

theorem s32_eq_signed32 (v : Word) : s32 v = signed32 v.toNat := by
  rw [s32, signed32, BitVec.toInt_eq_toNat_cond]
  have := v.isLt
  split <;> split <;> omega

theorem s32_read32 (m : Memory) (a : Nat) : s32 (m.read32 a) = signed32 (fieldAt m a) := by
  rw [s32_eq_signed32, read32_toNat]

/-! ### Bytes put to OUT -/

/-- The bytes `bs` written one after the other from address `a` on. -/
def Memory.writeAll (m : Memory) (a : Nat) : List Byte → Memory
  | [] => m
  | v :: vs => (m.write a v).writeAll (a + 1) vs

theorem Memory.read_writeAll (m : Memory) (a : Nat) (bs : List Byte) (x : Nat) :
    (m.writeAll a bs).read x = if h : a ≤ x ∧ x - a < bs.length then bs[x - a] else m.read x := by
  induction bs generalizing m a with
  | nil => simp [Memory.writeAll]
  | cons v vs ih =>
    rw [Memory.writeAll, ih]
    by_cases hx : x = a
    · subst hx; simp
    · by_cases h : a + 1 ≤ x ∧ x - (a + 1) < vs.length
      · have h' : a ≤ x ∧ x - a < (v :: vs).length := ⟨by omega, by simp; omega⟩
        have e : x - a = x - (a + 1) + 1 := by omega
        rw [dif_pos h, dif_pos h']; simp [e]
      · have h' : ¬ (a ≤ x ∧ x - a < (v :: vs).length) := by simp; omega
        rw [dif_neg h, dif_neg h', Memory.read_write_other _ _ hx]

theorem Memory.read_writeAll_outside (m : Memory) (a : Nat) (bs : List Byte) {x : Nat}
    (h : x < a ∨ a + bs.length ≤ x) : (m.writeAll a bs).read x = m.read x := by
  rw [Memory.read_writeAll, dif_neg]; omega

theorem Memory.writeAll_append (m : Memory) (a : Nat) (bs cs : List Byte) :
    m.writeAll a (bs ++ cs) = (m.writeAll a bs).writeAll (a + bs.length) cs := by
  induction bs generalizing m a with
  | nil => simp [Memory.writeAll]
  | cons v vs ih => simp [Memory.writeAll, ih, Nat.add_assoc, Nat.add_comm 1]

/-- The bytes read back. -/
theorem Memory.map_read_writeAll (m : Memory) (a : Nat) (bs : List Byte) :
    (List.range bs.length).map (fun k => (m.writeAll a bs).read (a + k)) = bs := by
  apply List.ext_getElem
  · simp
  · intro i h1 h2
    simp at h1
    simp [Memory.read_writeAll, h1]

theorem Memory.wf_writeAll (m : Memory) (a : Nat) (bs : List Byte) (h : m.wf = true) : (m.writeAll a bs).wf = true := by
  induction bs generalizing m a with
  | nil => exact h
  | cons v vs ih => exact ih _ _ (Memory.wf_write m a v h)

/-- put8 below OUT_CAP. -/
theorem put8_ok {e : Env} {d : Datapath} (v : Byte) (h : d.wp.toNat < e.outCap) :
    put8 e v d = .ok { d with out := d.out.write d.wp.toNat v, wp := d.wp + 1 } := by
  simp [put8, Nat.not_le.2 h]

/-- put8 at OUT_CAP. -/
theorem put8_overflow {e : Env} {d : Datapath} (v : Byte) (h : e.outCap ≤ d.wp.toNat) :
    put8 e v d = .error (.raise .outputOverflow) := by
  simp [put8, h]

/-- Everything put8 can do. -/
theorem put8_cases (e : Env) (v : Byte) (d : Datapath) :
    (d.wp.toNat < e.outCap ∧ put8 e v d = .ok { d with out := d.out.write d.wp.toNat v, wp := d.wp + 1 }) ∨
    (e.outCap ≤ d.wp.toNat ∧ put8 e v d = .error (.raise .outputOverflow)) := by
  rcases Nat.lt_or_ge d.wp.toNat e.outCap with h | h
  · exact .inl ⟨h, put8_ok v h⟩
  · exact .inr ⟨h, put8_overflow v h⟩

theorem wp_succ {w : Word} {cap : Nat} (h : w.toNat < cap) (hc : cap < 2 ^ 32) : (w + 1).toNat = w.toNat + 1 := by
  rw [BitVec.toNat_add]; simp; omega

theorem wp_add {w : Word} {n cap : Nat} (h : w.toNat + n ≤ cap) (hc : cap < 2 ^ 32) :
    (w + BitVec.ofNat 32 n).toNat = w.toNat + n := by
  rw [BitVec.toNat_add]; simp; omega

/-- putAll when the bytes fit. -/
theorem putAll_ok {e : Env} (bs : List Byte) {d : Datapath} (h : d.wp.toNat + bs.length ≤ e.outCap)
    (hc : e.outCap < 2 ^ 32) :
    putAll e bs d = .ok { d with out := d.out.writeAll d.wp.toNat bs, wp := d.wp + BitVec.ofNat 32 bs.length } := by
  induction bs generalizing d with
  | nil => simp [putAll, Memory.writeAll]
  | cons v vs ih =>
    simp only [List.length_cons] at h
    have hlt : d.wp.toNat < e.outCap := by omega
    have hs := wp_succ hlt hc
    simp only [putAll, put8_ok v hlt]
    rw [ih (by simp only [hs]; omega)]
    have : d.wp + 1 + BitVec.ofNat 32 vs.length = d.wp + BitVec.ofNat 32 (vs.length + 1) := by
      rw [BitVec.ofNat_add, BitVec.add_comm (BitVec.ofNat 32 vs.length), ← BitVec.add_assoc]; rfl
    simp only [List.length_cons, Memory.writeAll, hs, this]

/-- putAll when the bytes do not fit. -/
theorem putAll_overflow {e : Env} (bs : List Byte) {d : Datapath} (h : e.outCap < d.wp.toNat + bs.length)
    (hb : bs ≠ []) (hc : e.outCap < 2 ^ 32) : putAll e bs d = .error (.raise .outputOverflow) := by
  induction bs generalizing d with
  | nil => exact absurd rfl hb
  | cons v vs ih =>
    rcases put8_cases e v d with ⟨hlt, hp⟩ | ⟨hle, hp⟩
    · have hs := wp_succ hlt hc
      simp only [putAll, hp]
      refine ih (by simp only [hs]; simp at h; omega) ?_
      rintro rfl
      simp at h; omega
    · simp only [putAll, hp]

/-! ### A command -/

theorem env_accept (c : Instr) (s : State) : (accept c s).env = s.env := rfl

theorem env_endPhase (p : Phase) (ps : List Phase) (d : Datapath) (s : State) : (endPhase p ps d s).env = s.env := rfl

/-- The phases one after the other, on the datapath alone. -/
def runAll : List PhaseFn → PhaseFn
  | [], _, d => .ok d
  | f :: fs, e, d =>
    match f e d with
    | .ok d' => runAll fs e d'
    | .error x => .error x

/-- Everything runPhases can do: the phases' datapath and the completion, or fault entry from the state the phases began in. -/
theorem runPhases_eq (c : Instr) (fs : List (Phase × PhaseFn)) (s : State) :
    runPhases c fs s =
      match runAll (fs.map Prod.snd) s.env s.dp with
      | .ok d => .next (complete c { s with
          dp := d, status := fs.foldl (fun f pf => setAtPhaseEnd pf.1 f) s.status })
      | .error (.raise x) => .next (faultEntry x s)
      | .error (.stuck x) => .fault x := by
  induction fs generalizing s with
  | nil => rfl
  | cons pf fs ih =>
    obtain ⟨p, f⟩ := pf
    simp only [runPhases, List.map_cons, runAll, List.foldl_cons]
    cases f s.env s.dp with
    | error x => cases x <;> rfl
    | ok d =>
      simp only [ih, env_endPhase, endPhase_dp]
      cases runAll (fs.map Prod.snd) s.env d with
      | ok d' => rfl
      | error x =>
        cases x with
        | raise x => simp only [faultEntry_of_endPhase]
        | stuck x => rfl

/-- A ready core with the prerequisite met accepts the command. -/
theorem command_accepted {c : Instr} {fs : List (Phase × PhaseFn)} {s : State} (hr : s.ready)
    (hp : prerequisite c s = true) : command c fs s = runPhases c fs (accept c s) := by
  simp [command, offer, hr.1, hr.2, hp]

/-- A ready core without the prerequisite raises IllegalCommand. -/
theorem command_refused {c : Instr} {fs : List (Phase × PhaseFn)} {s : State} (hr : s.ready)
    (hp : prerequisite c s = false) : command c fs s = .next (faultEntry .illegalCommand s) := by
  simp [command, offer, hr.1, hr.2, hp]

/-- A busy core drops the command. -/
theorem command_busy {c : Instr} {fs : List (Phase × PhaseFn)} {s : State} (hb : s.status.busy = true) :
    command c fs s = .next (drop s) := by
  simp [command, offer, hb]

/-- A faulted core drops the command unless it is CLR. -/
theorem command_err {c : Instr} {fs : List (Phase × PhaseFn)} {s : State} (he : s.status.err = true)
    (hc : takenInFault c = false) : command c fs s = .next (drop s) := by
  cases hb : s.status.busy <;> simp [command, offer, hb, he, hc]

/-- What a command leaves when its phases end with the datapath `d` (R121, R123, R129, R130). -/
def succeed (c : Instr) (fs : List (Phase × PhaseFn)) (d : Datapath) (s : State) : State :=
  complete c { accept c s with
    dp := d, status := fs.foldl (fun f pf => setAtPhaseEnd pf.1 f) (accept c s).status }

/-- An accepted command: its phases' datapath, or fault entry from the state it began in. -/
theorem command_eq {c : Instr} {fs : List (Phase × PhaseFn)} {s : State} (hr : s.ready) (hp : prerequisite c s = true) :
    command c fs s =
      match runAll (fs.map Prod.snd) s.env s.dp with
      | .ok d => .next (succeed c fs d s)
      | .error (.raise x) => .next (faultEntry x s)
      | .error (.stuck x) => .fault x := by
  rw [command_accepted hr hp, runPhases_eq]
  simp only [env_accept, accept_dp, faultEntry_of_accept]
  rfl

/-- Everything a command can do to a core that answers a next state. -/
theorem command_cases {c : Instr} {fs : List (Phase × PhaseFn)} {s t : State} (h : command c fs s = .next t) :
    t = drop s ∨ t = faultEntry .illegalCommand s ∨
    (∃ x, runAll (fs.map Prod.snd) s.env s.dp = .error (.raise x) ∧ t = faultEntry x s) ∨
    (∃ d, runAll (fs.map Prod.snd) s.env s.dp = .ok d ∧ t = succeed c fs d s) := by
  unfold command at h
  cases ho : offer c s with
  | inl s' =>
    rw [ho] at h
    cases h
    unfold offer at ho
    split at ho
    · cases ho; exact .inl rfl
    · split at ho
      · cases ho; exact .inl rfl
      · split at ho
        · cases ho
        · cases ho; exact .inr (.inl rfl)
  | inr s' =>
    rw [ho] at h
    have hs : s' = accept c s := by
      unfold offer at ho
      repeat' split at ho
      all_goals first | (cases ho; rfl) | cases ho
    subst hs
    simp only [runPhases_eq, env_accept, accept_dp, faultEntry_of_accept] at h
    cases hr : runAll (fs.map Prod.snd) s.env s.dp with
    | ok d => rw [hr] at h; cases h; exact .inr (.inr (.inr ⟨d, rfl, rfl⟩))
    | error x =>
      cases x with
      | raise x => rw [hr] at h; cases h; exact .inr (.inr (.inl ⟨x, rfl, rfl⟩))
      | stuck x => rw [hr] at h; cases h

/-- The commands with phases, in one form. -/
theorem exec_eq_command {i : Instr} (h : operational i = true) :
    exec i = command i ((phasesOf i).map (fun p => (p, phaseFn p))) := by
  cases i <;> first | rfl | cases h

/-- A ready core whose command is accepted and whose phases raise `x`. -/
theorem exec_of_raise {i : Instr} {s : State} {x : HwFault} (ho : operational i = true) (hr : s.ready)
    (hp : prerequisite i s = true) (h : runAll ((phasesOf i).map phaseFn) s.env s.dp = .error (.raise x)) :
    exec i s = .next (faultEntry x s) := by
  rw [exec_eq_command ho, command_eq hr hp]
  simp only [List.map_map, Function.comp_def, h]

end Sys2Proof.Machine
end

