-- ==== Sys2Proof/Laws/CodeAssigner.lean ====
section
/-!
SUPPORT. Spec lemmas of the code assigner: one visit for each kind of record, and what a visit leaves alone
(spec/42_code_assigner.md R161).
-/

namespace Sys2Proof.Machine

theorem visit_leaf {t : NodeTable} {i : NodeIdx} {r : Node} (room d : Nat) (v : Word) (c : CodeTable)
    (h : nodeAt t i = some r) (hk : r.kind = .leaf) : visit t room i d v c = .ok (c.record r.sym d v) := by
  unfold visit; simp only [h, hk]

theorem visit_placeholder {t : NodeTable} {i : NodeIdx} {r : Node} (room d : Nat) (v : Word) (c : CodeTable)
    (h : nodeAt t i = some r) (hk : r.kind = .placeholder) : visit t room i d v c = .ok c := by
  unfold visit; simp only [h, hk]

/-- R163: an INTERNAL record at depth 32. -/
theorem visit_tooLong {t : NodeTable} {i : NodeIdx} {r : Node} (d : Nat) (v : Word) (c : CodeTable)
    (h : nodeAt t i = some r) (hk : r.kind = .internal) : visit t 0 i d v c = .error (.raise .codeTooLong) := by
  unfold visit; simp only [h, hk]

theorem visit_internal {t : NodeTable} {i : NodeIdx} {r : Node} (room d : Nat) (v : Word) (c : CodeTable)
    (h : nodeAt t i = some r) (hk : r.kind = .internal) :
    visit t (room + 1) i d v c =
      (match visit t room r.left (d + 1) (2 * v) c with
        | .ok c' => visit t room r.right (d + 1) (2 * v + 1) c'
        | .error x => .error x) := by
  rw [visit]; simp only [h, hk]; cases visit t room r.left (d + 1) (2 * v) c <;> rfl

theorem entry_record_len (c : CodeTable) (s b : Byte) (d : Nat) (v : Word) :
    entry (c.record s d v).len b = if b = s then BitVec.ofNat 6 d else entry c.len b := entry_setEntry ..

theorem entry_record_val (c : CodeTable) (s b : Byte) (d : Nat) (v : Word) :
    entry (c.record s d v).val b = if b = s then v else entry c.val b := entry_setEntry ..

/-- R162: a visit writes the entries of the symbols on leaves below its record, and no other. -/
theorem visit_frame {t : NodeTable} (room : Nat) {i : NodeIdx} {d : Nat} {v : Word} {c c' : CodeTable} {b : Byte}
    (h : visit t room i d v c = .ok c')
    (hb : ∀ p r, nodeOnPath t i p = some r → r.kind = .leaf → r.sym ≠ b) :
    entry c'.len b = entry c.len b ∧ entry c'.val b = entry c.val b := by
  induction room generalizing i d v c c' with
  | zero =>
    rw [visit] at h
    split at h
    · cases h
    · rename_i r hr
      split at h
      · cases h
      · cases h; exact ⟨rfl, rfl⟩
      · rename_i hk
        cases h
        have hne : b ≠ r.sym := fun he => hb [] r hr hk he.symm
        exact ⟨by rw [entry_record_len, if_neg hne], by rw [entry_record_val, if_neg hne]⟩
      · cases h
  | succ room ih =>
    rw [visit] at h
    split at h
    · cases h
    · rename_i r hr
      split at h
      · cases h
      · cases h; exact ⟨rfl, rfl⟩
      · rename_i hk
        cases h
        have hne : b ≠ r.sym := fun he => hb [] r hr hk he.symm
        exact ⟨by rw [entry_record_len, if_neg hne], by rw [entry_record_val, if_neg hne]⟩
      · rename_i hk
        dsimp only at h
        split at h
        · cases h
        · rename_i c1 h1
          have hchild : ∀ (bit : Bool) (p : List Bool) (r' : Node),
              nodeOnPath t (r.child bit) p = some r' → r'.kind = .leaf → r'.sym ≠ b := by
            intro bit p r' hp hl
            refine hb (bit :: p) r' ?_ hl
            simp only [nodeOnPath, hr, hk, if_true, hp]
          obtain ⟨hl1, hv1⟩ := ih h1 (hchild false)
          obtain ⟨hl2, hv2⟩ := ih h (hchild true)
          exact ⟨hl2.trans hl1, hv2.trans hv1⟩

end Sys2Proof.Machine
end

