-- ==== Sys2Proof/Laws/Decoder.lean ====
section
/-!
SUPPORT. Spec lemmas of the decoder: an entry is read or refused by R193 and inserted (spec/44_decoder.md R191); the unpacker
delivers the payload bits one after the other (R198); what one step of the walk can do (R201).
-/

namespace Sys2Proof.Machine

/-- R191, R193: a legal entry is inserted. -/
theorem readEntry_legal {m : Memory} {o : Nat} (t : Trie) (h : (headerEntryAt m o).legal) :
    readEntry m o t =
      t.insert (headerEntryAt m o).sym (headerEntryAt m o).len.toNat (BitVec.ofNat 32 (headerEntryAt m o).val) := by
  obtain ⟨h1, h2, h3⟩ := h
  simp only [headerEntryAt] at h1 h2 h3
  have hlen : ¬ (s32 (m.read32 (o + 1)) < 1 ∨ 32 < s32 (m.read32 (o + 1))) := by rw [s32_read32]; omega
  have hval : ¬ (s32 (m.read32 (o + 1)) < 32 ∧ 2 ^ (s32 (m.read32 (o + 1))).toNat ≤ (m.read32 (o + 5)).toNat) := by
    rw [s32_read32, read32_toNat]
    exact fun h => absurd (h3 h.1) (Nat.not_lt.2 h.2)
  rw [readEntry, if_neg hlen, if_neg hval, s32_read32, headerEntryAt, ← read32_toNat m (o + 5), BitVec.ofNat_toNat,
    BitVec.setWidth_eq]

/-- R193: an illegal entry is CorruptHeader. -/
theorem readEntry_illegal {m : Memory} {o : Nat} (t : Trie) (h : ¬ (headerEntryAt m o).legal) :
    readEntry m o t = .error (.raise .corruptHeader) := by
  rw [readEntry]
  simp only [HeaderEntry.legal, headerEntryAt, ← read32_toNat, ← s32_eq_signed32] at h
  by_cases h1 : s32 (m.read32 (o + 1)) < 1 ∨ 32 < s32 (m.read32 (o + 1))
  · rw [if_pos h1]
  · rw [if_neg h1, if_pos]
    by_contra h2
    refine h ⟨by omega, by omega, fun h3 => ?_⟩
    exact Nat.lt_of_not_le (fun h4 => h2 ⟨h3, h4⟩)

/-- R194: one bit of the descent. -/
theorem descend_succ (val : Word) (k : Nat) (c : TrieIdx) (t : Trie) :
    Trie.descend val (k + 1) c t =
      (if (t.mem.read c).leaf then .error (.raise .corruptHeader)
       else if (t.mem.read c).child (val.getLsbD k) = 0 then Trie.descend val k t.tnn (t.grow c (val.getLsbD k))
       else Trie.descend val k ((t.mem.read c).child (val.getLsbD k)) t) := rfl

/-- R194: what `grow` writes: the new record is empty and `c` has it as its child; no other record changes. -/
theorem grow_read (t : Trie) (c : TrieIdx) (bit : Bool) (hc : c ≠ t.tnn) (hcap : c.toNat < trieCap)
    (hn : t.tnn.toNat < trieCap) (j : TrieIdx) :
    (t.grow c bit).mem.read j =
      (if j = c then (t.mem.read c).setChild bit t.tnn else if j = t.tnn then TNode.empty else t.mem.read j) := by
  simp only [Trie.grow]
  by_cases hj : j = c
  · subst hj
    rw [if_pos rfl, TrieMem.read_write_self _ _ hcap, TrieMem.read_write_other _ _ hc]
  · rw [if_neg hj, TrieMem.read_write_other _ _ hj]
    by_cases hnj : j = t.tnn
    · subst hnj
      rw [if_pos rfl, TrieMem.read_write_self _ _ hn]
    · rw [if_neg hnj, TrieMem.read_write_other _ _ hnj]

@[simp] theorem TNode.child_setChild (r : TNode) (bit bit' : Bool) (n : TrieIdx) :
    (r.setChild bit n).child bit' = if bit' = bit then n else r.child bit' := by
  cases bit <;> cases bit' <;> rfl

@[simp] theorem TNode.leaf_setChild (r : TNode) (bit : Bool) (n : TrieIdx) : (r.setChild bit n).leaf = r.leaf := by
  cases bit <;> rfl

@[simp] theorem TNode.sym_setChild (r : TNode) (bit : Bool) (n : TrieIdx) : (r.setChild bit n).sym = r.sym := by
  cases bit <;> rfl

/-! ### The unpacker -/

/-- The unpacker has delivered `k` bits of the payload that starts at IN[h] (R198). -/
structure Fed (e : Env) (h k : Nat) (d : Datapath) : Prop where
  rp : d.rp = BitVec.ofNat 32 (h + (k + 7) / 8)
  ub : d.ub = BitVec.ofNat 4 ((8 - k % 8) % 8)
  usr : k % 8 ≠ 0 → d.usr = e.inp.read (h + k / 8) <<< (k % 8)

/-- R198, R102: the next bit is bit `k` of the payload. -/
theorem nextBit_fed {e : Env} {h k : Nat} {d : Datapath} (hf : Fed e h k d) (hb : h + k / 8 < 2 ^ 32) :
    (nextBit e d).1 = (e.inp.read (h + k / 8)).getLsbD (7 - k % 8) ∧ Fed e h (k + 1) (nextBit e d).2 := by
  by_cases hk : k % 8 = 0
  · have hub : d.ub = 0 := by rw [hf.ub, hk]; rfl
    have hrp : d.rp = BitVec.ofNat 32 (h + k / 8) := by rw [hf.rp]; congr 1; omega
    have hin : e.inByte d.rp = e.inp.read (h + k / 8) := by
      rw [Env.inByte, hrp, BitVec.toNat_ofNat, Nat.mod_eq_of_lt hb]
    simp only [nextBit, loadByte, hub, if_true, hin]
    have h1 : (k + 1) % 8 = 1 := by omega
    refine ⟨by rw [hk], ⟨?_, ?_, ?_⟩⟩
    · rw [hrp]
      apply BitVec.eq_of_toNat_eq
      have h1 : (1 : Word).toNat = 1 := rfl
      simp only [BitVec.toNat_add, BitVec.toNat_ofNat, h1]
      omega
    · rw [h1]; rfl
    · intro _
      have h2 : (k + 1) / 8 = k / 8 := by omega
      rw [h1, h2]
  · have hub : d.ub ≠ 0 := by
      rw [hf.ub]
      intro hc
      have h0 : (0 : BitVec 4).toNat = 0 := rfl
      have := congrArg BitVec.toNat hc
      rw [BitVec.toNat_ofNat, h0] at this
      omega
    simp only [nextBit, loadByte, if_neg hub, hf.usr hk]
    refine ⟨?_, ⟨?_, ?_, ?_⟩⟩
    · rw [BitVec.getLsbD_shiftLeft]
      have h1 : ¬ 7 < k % 8 := by omega
      simp [h1]
    · rw [hf.rp]
      congr 1
      omega
    · rw [hf.ub]
      apply BitVec.eq_of_toNat_eq
      have h1 : (1 : BitVec 4).toNat = 1 := rfl
      rw [BitVec.toNat_sub, h1]
      simp only [BitVec.toNat_ofNat]
      omega
    · intro hk1
      have h1 : (k + 1) % 8 = k % 8 + 1 := by omega
      have h2 : (k + 1) / 8 = k / 8 := by omega
      rw [h1, h2, BitVec.shiftLeft_add]

/-- `next_bit` changes the unpacker's registers only. -/
theorem nextBit_frame (e : Env) (d : Datapath) :
    ∃ rp usr ub, (nextBit e d).2 = { d with rp := rp, usr := usr, ub := ub, bitsLeft := d.bitsLeft - 1 } := by
  unfold nextBit loadByte
  dsimp only
  split
  · exact ⟨_, _, _, rfl⟩
  · exact ⟨_, _, _, rfl⟩

/-! ### The walk -/

/-- R201, as its table: everything a step of the walk can do. -/
theorem walkStep_eq (e : Env) (bit : Bool) (d : Datapath) :
    (d.tnode.read d.cur).child bit = 0 ∧ walkStep e bit d = .error (.raise .corruptContainer) ∨
    (d.tnode.read d.cur).child bit ≠ 0 ∧ trieCap ≤ ((d.tnode.read d.cur).child bit).toNat ∧
      walkStep e bit d = .error (.stuck .noSuchTrieRecord) ∨
    (d.tnode.read d.cur).child bit ≠ 0 ∧ ((d.tnode.read d.cur).child bit).toNat < trieCap ∧
      (d.tnode.read ((d.tnode.read d.cur).child bit)).leaf = false ∧
      walkStep e bit d = .ok { d with cur := (d.tnode.read d.cur).child bit, dstate := .atInternal } ∨
    (d.tnode.read d.cur).child bit ≠ 0 ∧ ((d.tnode.read d.cur).child bit).toNat < trieCap ∧
      (d.tnode.read ((d.tnode.read d.cur).child bit)).leaf = true ∧
      (d.wp.toNat < e.outCap ∧ walkStep e bit d = .ok { d with
          out := d.out.write d.wp.toNat (d.tnode.read ((d.tnode.read d.cur).child bit)).sym
          wp := d.wp + 1, cur := 0, dstate := .atRoot } ∨
        e.outCap ≤ d.wp.toNat ∧ walkStep e bit d = .error (.raise .outputOverflow)) := by
  unfold walkStep
  dsimp only
  by_cases hn : (d.tnode.read d.cur).child bit = 0
  · exact Or.inl ⟨hn, by rw [if_pos hn]⟩
  · refine Or.inr ?_
    rw [if_neg hn]
    rcases Nat.lt_or_ge ((d.tnode.read d.cur).child bit).toNat trieCap with hc | hc
    case inr => exact Or.inl ⟨hn, hc, by rw [if_pos hc]⟩
    refine Or.inr ?_
    rw [if_neg (Nat.not_le.2 hc)]
    cases hl : (d.tnode.read ((d.tnode.read d.cur).child bit)).leaf with
    | false => exact Or.inl ⟨hn, hc, rfl, by simp⟩
    | true =>
      refine Or.inr ⟨hn, hc, rfl, ?_⟩
      rcases Nat.lt_or_ge d.wp.toNat e.outCap with hw | hw
      · exact Or.inl ⟨hw, by simp [put8_ok _ hw]⟩
      · exact Or.inr ⟨hw, by simp [put8_overflow _ hw]⟩

end Sys2Proof.Machine
end

