-- ==== Sys2Proof/Laws/Encoder.lean ====
section
/-!
SUPPORT. Spec lemmas of the encoder: a code is sent as one `pushAll` of its bits, and what a run of pushes leaves
(spec/43_encoder.md R171).
-/

namespace Sys2Proof.Machine

/-- `push` of one bit after the other. -/
def pushAll (e : Env) : List Bool → Datapath → Except Stop Datapath
  | [], d => .ok d
  | b :: bs, d =>
    match pushBit e b d with
    | .ok d' => pushAll e bs d'
    | .error x => .error x

theorem pushAll_append (e : Env) (p q : List Bool) (d : Datapath) :
    pushAll e (p ++ q) d = (match pushAll e p d with | .ok d' => pushAll e q d' | .error x => .error x) := by
  induction p generalizing d with
  | nil => rfl
  | cons b p ih =>
    simp only [List.cons_append, pushAll]
    cases pushBit e b d with
    | ok d' => exact ih d'
    | error x => rfl

/-- `push` neither reads nor writes the code shift register and its counter. -/
theorem pushBit_crem (e : Env) (b : Bool) (d : Datapath) (n : BitVec 6) :
    pushBit e b { d with crem := n } =
      (match pushBit e b d with | .ok d' => .ok { d' with crem := n } | .error x => .error x) := by
  unfold pushBit put8
  dsimp only
  by_cases h8 : d.nb + 1 = 8
  · by_cases hw : e.outCap ≤ d.wp.toNat <;> simp only [h8, hw, ↓reduceIte]
  · simp only [h8, ↓reduceIte]

/-- `pushAll` carries CREM along. -/
theorem pushAll_crem (e : Env) (bs : List Bool) (d : Datapath) (n : BitVec 6) :
    pushAll e bs { d with crem := n } =
      (match pushAll e bs d with | .ok d' => .ok { d' with crem := n } | .error x => .error x) := by
  induction bs generalizing d with
  | nil => rfl
  | cons b bs ih =>
    simp only [pushAll, pushBit_crem]
    cases pushBit e b d with
    | ok d' => exact ih d'
    | error x => rfl

/-- What `push` leaves alone. -/
theorem pushBit_csr {e : Env} {b : Bool} {d d' : Datapath} (h : pushBit e b d = .ok d') : d'.csr = d.csr ∧ d'.crem = d.crem := by
  unfold pushBit put8 at h
  dsimp only at h
  split at h
  · split at h
    · rename_i h2
      split at h2
      · cases h2
      · cases h2; cases h; exact ⟨rfl, rfl⟩
    · cases h
  · cases h; exact ⟨rfl, rfl⟩

/-! ### The header -/

/-- R97: the entry of a coded symbol. -/
theorem entryBytes_coded (c : CodeTable) (i : Nat) (h : entry c.len (BitVec.ofNat 8 i) ≠ 0) :
    entryBytes i (entry c.len (BitVec.ofNat 8 i)) (entry c.val (BitVec.ofNat 8 i)) =
      headerEntryBytes c (BitVec.ofNat 8 i) := by
  have hl : ((entry c.len (BitVec.ofNat 8 i)).setWidth 32).toNat = (entry c.len (BitVec.ofNat 8 i)).toNat := by
    have := (entry c.len (BitVec.ofNat 8 i)).isLt
    simp; omega
  rw [entryBytes, if_neg h, headerEntryBytes, le32_eq_fieldBytes, le32_eq_fieldBytes, hl]

/-- R95 to R97: the bytes WRHDR puts are the header of the code table. -/
theorem headerBytes_eq_header (n : BitVec 9) (c : CodeTable) : headerBytes n c.len c.val = header n c := by
  have hz : (c.len.toList.zip c.val.toList).zipIdx =
      (List.range 256).map (fun i => ((entry c.len (BitVec.ofNat 8 i), entry c.val (BitVec.ofNat 8 i)), i)) := by
    apply List.ext_getElem
    · simp
    · intro i h1 h2
      have hi : i < 256 := by simpa using h1
      simp [entry, Nat.mod_eq_of_lt hi]
  have hn : (n.setWidth 32).toNat = n.toNat := by
    have := n.isLt
    simp; omega
  rw [headerBytes, header, le32_eq_fieldBytes, hn, hz]
  congr 1
  simp only [codedSymbols]
  induction List.range 256 with
  | nil => rfl
  | cons i l ih =>
    rw [List.map_cons, List.flatMap_cons, ih, List.map_cons, List.filter_cons]
    by_cases h : entry c.len (BitVec.ofNat 8 i) = 0
    · simp [entryBytes, h]
    · simp only [entryBytes_coded c i h, ne_eq, h, not_false_eq_true, decide_true, if_true, List.flatMap_cons]

/-! ### Codes -/

theorem bitString_succ (k : Nat) (v : Word) : bitString (k + 1) v.toNat = v.getLsbD k :: bitString k v.toNat := by
  unfold bitString
  rw [List.range_succ_eq_map, List.map_cons, List.map_map]
  refine congrArg₂ List.cons (by simp [BitVec.testBit_toNat]) (List.map_congr_left ?_)
  intro i _
  have : k + 1 - 1 - (i + 1) = k - 1 - i := by omega
  simp only [Function.comp, Nat.succ_eq_add_one, this]

/-- R171: the loop of `send` pushes the low CREM bits of CSR, the highest first, and ends with CREM = 0. -/
theorem loop_sendBit (e : Env) (k : Nat) (d : Datapath) (hk : d.crem.toNat = k) :
    loop (sendBit e) k d = pushAll e (bitString k d.csr.toNat) { d with crem := 0 } := by
  induction k generalizing d with
  | zero =>
    have h0 : d.crem = 0 := BitVec.eq_of_toNat_eq (by simpa using hk)
    simp only [loop, bitString, List.range_zero, List.map_nil, pushAll, ← h0]
  | succ k ih =>
    rw [bitString_succ]
    simp only [loop, pushAll, sendBit, pushBit_crem, hk, Nat.add_sub_cancel]
    cases hp : pushBit e (d.csr.getLsbD k) d with
    | error x => rfl
    | ok d' =>
      obtain ⟨hcsr, hcrem⟩ := pushBit_csr hp
      have hk' : (d'.crem - 1).toNat = k := by
        rw [hcrem]
        have hlt := d.crem.isLt
        have h1 : (1 : BitVec 6).toNat = 1 := rfl
        rw [BitVec.toNat_sub, h1]
        omega
      have h := ih { d' with crem := d'.crem - 1 } hk'
      simpa only [hcsr] using h

/-- R171: sending the code of a symbol is pushing its bits, the first one first; CREM ends at 0. -/
theorem send_eq (e : Env) (b : Byte) (d : Datapath) :
    send e b d =
      pushAll e (bitString (entry d.codeLen b).toNat (entry d.codeVal b).toNat)
        { d with csr := entry d.codeVal b, crem := 0 } := by
  unfold send
  exact loop_sendBit e _ _ rfl

/-! ### What a run of pushes leaves -/

/-- Bits as a byte, the oldest highest: what ACC holds (R46). -/
def accOf (p : List Bool) : Byte := p.foldl (fun v b => (v <<< 1) ||| (BitVec.ofBool b).setWidth 8) 0

@[simp] theorem accOf_nil : accOf [] = 0 := rfl

theorem accOf_concat (p : List Bool) (b : Bool) :
    accOf (p ++ [b]) = (accOf p <<< 1) ||| (BitVec.ofBool b).setWidth 8 := by simp [accOf]

/-- The packer holds the pending bits `q`: NB counts them, ACC holds them. -/
structure Pending (d : Datapath) (q : List Bool) : Prop where
  short : q.length < 8
  nb : d.nb = BitVec.ofNat 4 q.length
  acc : d.acc = accOf q

/-- R171: a push that fills no byte. -/
theorem pushBit_keep {e : Env} {d : Datapath} {q : List Bool} (b : Bool) (h : Pending d q) (hq : q.length + 1 < 8) :
    pushBit e b d = .ok { d with acc := accOf (q ++ [b]), nb := BitVec.ofNat 4 (q.length + 1) } := by
  unfold pushBit
  have hn : d.nb + 1 = BitVec.ofNat 4 (q.length + 1) := by
    have h1 : (1 : BitVec 4).toNat = 1 := rfl
    rw [h.nb]; apply BitVec.eq_of_toNat_eq; simp only [BitVec.toNat_add, BitVec.toNat_ofNat, h1]; omega
  have hne : BitVec.ofNat 4 (q.length + 1) ≠ 8 := by
    intro hc
    have := congrArg BitVec.toNat hc
    have h8 : (8 : BitVec 4).toNat = 8 := rfl
    simp only [BitVec.toNat_ofNat, h8] at this
    omega
  simp only [hn, if_neg hne, h.acc, accOf_concat]

/-- R171: a push that fills a byte. -/
theorem pushBit_full {e : Env} {d : Datapath} {q : List Bool} (b : Bool) (h : Pending d q) (hq : q.length + 1 = 8) :
    pushBit e b d =
      (match put8 e (accOf (q ++ [b])) d with
        | .ok d' => .ok { d' with acc := 0, nb := 0 }
        | .error x => .error x) := by
  have hq7 : q.length = 7 := by omega
  have hn : d.nb + 1 = 8 := by rw [h.nb, hq7]; rfl
  have hc : d.wp.toNat < e.outCap ∨ e.outCap ≤ d.wp.toNat := by omega
  unfold pushBit
  rcases hc with hc | hc
  · simp only [hn, if_true, h.acc, put8, Nat.not_le.2 hc, if_false, accOf_concat]
  · simp only [hn, if_true, put8, hc]

/-- The bytes that `p` fills, and the bits left over. -/
def fullBytes (p : List Bool) : List Byte :=
  (List.range (p.length / 8)).map (fun j => accOf ((p.drop (8 * j)).take 8))

/-- The bits of `p` that fill no byte. -/
def leftOver (p : List Bool) : List Bool := p.drop (8 * (p.length / 8))

theorem leftOver_length (p : List Bool) : (leftOver p).length = p.length % 8 := by
  unfold leftOver
  rw [List.length_drop]
  omega

theorem fullBytes_length (p : List Bool) : (fullBytes p).length = p.length / 8 := by simp [fullBytes]

theorem fullBytes_of_short {p : List Bool} (h : p.length < 8) : fullBytes p = [] ∧ leftOver p = p := by
  have : p.length / 8 = 0 := by omega
  simp [fullBytes, leftOver, this]

/-- The first eight bits fill the first byte. -/
theorem fullBytes_append {p : List Bool} (h : p.length = 8) (q : List Bool) :
    fullBytes (p ++ q) = accOf p :: fullBytes q ∧ leftOver (p ++ q) = leftOver q := by
  have hd : (p ++ q).length / 8 = q.length / 8 + 1 := by rw [List.length_append]; omega
  constructor
  · unfold fullBytes
    rw [hd, List.range_succ_eq_map, List.map_cons, List.map_map]
    refine congrArg₂ List.cons ?_ (List.map_congr_left ?_)
    · rw [Nat.mul_zero, List.drop_zero, List.take_left' h]
    · intro j _
      have h1 : 8 * (j + 1) = p.length + 8 * j := by omega
      simp only [Function.comp, Nat.succ_eq_add_one, h1, ← List.drop_drop, List.drop_left]
  · unfold leftOver
    have h1 : 8 * (q.length / 8 + 1) = p.length + 8 * (q.length / 8) := by omega
    rw [hd, h1, ← List.drop_drop, List.drop_left]

/-- R171, "after push has run": pushing `bs` behind the pending bits `q` puts the full bytes of `q ++ bs` and keeps the
left over bits, if the bytes fit OUT. -/
theorem pushAll_ok {e : Env} (bs : List Bool) {d : Datapath} {q : List Bool} (h : Pending d q)
    (hfit : d.wp.toNat + (q ++ bs).length / 8 ≤ e.outCap) (hcap : e.outCap < 2 ^ 32) :
    pushAll e bs d = .ok { d with
      acc := accOf (leftOver (q ++ bs)), nb := BitVec.ofNat 4 (leftOver (q ++ bs)).length
      out := d.out.writeAll d.wp.toNat (fullBytes (q ++ bs)), wp := d.wp + BitVec.ofNat 32 ((q ++ bs).length / 8) } := by
  induction bs generalizing d q with
  | nil =>
    rw [List.append_nil]
    obtain ⟨h1, h2⟩ := fullBytes_of_short h.short
    have h3 : q.length / 8 = 0 := by have := h.short; omega
    rw [h1, h2, h3]
    simp only [pushAll, Memory.writeAll, ← h.acc, ← h.nb, BitVec.add_zero]
  | cons b bs ih =>
    have happ : q ++ b :: bs = (q ++ [b]) ++ bs := by simp
    have hlen : (q ++ [b]).length = q.length + 1 := by simp
    by_cases hq : q.length + 1 < 8
    · simp only [pushAll, pushBit_keep b h hq]
      have hp : Pending { d with acc := accOf (q ++ [b]), nb := BitVec.ofNat 4 (q.length + 1) } (q ++ [b]) :=
        ⟨by omega, by rw [hlen], rfl⟩
      have := ih hp (by rw [← happ]; exact hfit)
      rw [this, ← happ]
    · have hq8 : q.length + 1 = 8 := by have := h.short; omega
      have h8 : (q ++ [b]).length = 8 := by omega
      obtain ⟨hf, hl⟩ := fullBytes_append h8 bs
      rw [happ] at hfit ⊢
      rw [hf, hl]
      have hdiv : ((q ++ [b]) ++ bs).length / 8 = bs.length / 8 + 1 := by rw [List.length_append, h8]; omega
      rw [hdiv] at hfit ⊢
      have hw : d.wp.toNat < e.outCap := by omega
      simp only [pushAll, pushBit_full b h hq8, put8_ok _ hw]
      have hp : Pending { d with
          out := d.out.write d.wp.toNat (accOf (q ++ [b])), wp := d.wp + 1, acc := 0, nb := 0 } [] := ⟨by simp, rfl, rfl⟩
      have hwp : (d.wp + 1).toNat = d.wp.toNat + 1 := wp_succ hw hcap
      have := ih hp (by simp only [List.nil_append, hwp]; omega)
      simp only [List.nil_append, hwp] at this
      rw [this]
      congr 2
      apply BitVec.eq_of_toNat_eq
      have h1 : (1 : Word).toNat = 1 := rfl
      simp only [BitVec.toNat_add, BitVec.toNat_ofNat, h1]
      omega

end Sys2Proof.Machine
end

