-- ==== Sys2Proof/Laws/PerInstr.lean ====
section
/-!
SUPPORT. One lemma for each command: its word is well formed, decodes to it, and is the number spec/opcode_table.json gives it
(spec/30_encoding.md R91, R92).
-/

namespace Sys2Proof.Laws.Encoding

open Sys2Proof

/-- A command's word passes the two checks of R91, has the command's number, and decodes to it and to nothing else. -/
def Statement (i : Instr) : Prop :=
  i.wf = true ∧ commandWordWf (encode i) = true ∧ (encode i).toNat = i.opcode.toNat ∧
    decodeTableWord 32 i.opcode.toNat = some i ∧ ∀ j : Instr, decodeWord (encode i) = .ok j → j = i

/-- The five facts from the one about the decoder. -/
theorem of_decode {i : Instr} (h1 : commandWordWf (encode i) = true) (h2 : (encode i).toNat = i.opcode.toNat)
    (h3 : decodeTableWord 32 i.opcode.toNat = some i) (h : decodeWord (encode i) = .ok i) : Statement i :=
  ⟨rfl, h1, h2, h3, fun _ hj => (Except.ok.inj (h.symm.trans hj)).symm⟩

theorem nop : Statement .nop := of_decode rfl rfl rfl rfl
theorem clr : Statement .clr := of_decode rfl rfl rfl rfl
theorem freq : Statement .freq := of_decode rfl rfl rfl rfl
theorem build : Statement .build := of_decode rfl rfl rfl rfl
theorem assign : Statement .assign := of_decode rfl rfl rfl rfl
theorem wrhdr : Statement .wrhdr := of_decode rfl rfl rfl rfl
theorem pack : Statement .pack := of_decode rfl rfl rfl rfl
theorem encode : Statement .encode := of_decode rfl rfl rfl rfl
theorem rdhdr : Statement .rdhdr := of_decode rfl rfl rfl rfl
theorem dwalk : Statement .dwalk := of_decode rfl rfl rfl rfl
theorem decode : Statement .decode := of_decode rfl rfl rfl rfl
theorem ack : Statement .ack := of_decode rfl rfl rfl rfl

end Sys2Proof.Laws.Encoding
end

