-- ==== Sys2Proof/Laws/TreeBuilder.lean ====
section
/-!
SUPPORT. What the frequency scan and the tree builder's operations do (spec/41_tree_builder.md).
-/

namespace Sys2Proof.Machine

/-! ### FREQ -/

/-- The table with one more of each byte of the list. -/
def addCounts (t : WordTable) (bs : List Byte) : WordTable := bs.foldl (fun t b => setEntry t b (entry t b + 1)) t

theorem entry_addCounts (t : WordTable) (bs : List Byte) (b : Byte) :
    entry (addCounts t bs) b = entry t b + BitVec.ofNat 32 (bs.count b) := by
  induction bs generalizing t with
  | nil => simp [addCounts]
  | cons x bs ih =>
    rw [show addCounts t (x :: bs) = addCounts (setEntry t x (entry t x + 1)) bs from rfl, ih, entry_setEntry,
      List.count_cons]
    by_cases h : b = x
    · subst h
      simp only [if_true, beq_self_eq_true]
      rw [BitVec.ofNat_add, BitVec.add_comm (BitVec.ofNat 32 (bs.count b)), ← BitVec.add_assoc]
      rfl
    · simp [h, Ne.symm h]

/-- From an all-zero table the counts are those of the input (R140). -/
theorem addCounts_zero (bs : List Byte) : addCounts (Vector.replicate 256 0) bs = countTable bs := by
  apply table_ext
  intro b
  rw [entry_addCounts, entry_replicate]
  simp [entry, countTable]

theorem entry_countTable (bs : List Byte) (b : Byte) : entry (countTable bs) b = BitVec.ofNat 32 (bs.count b) := by
  rw [← addCounts_zero, entry_addCounts, entry_replicate]; simp

/-- R141: `k` rounds of the scan. -/
theorem countByte_iterate (e : Env) (k : Nat) (d : Datapath) :
    (countByte e)^[k] d =
      { d with
        freq := addCounts d.freq ((List.range k).map (fun j => e.inByte (d.rp + BitVec.ofNat 32 j)))
        rp := d.rp + BitVec.ofNat 32 k } := by
  induction k with
  | zero => simp [addCounts]
  | succ k ih =>
    rw [Function.iterate_succ_apply', ih, countByte, List.range_succ, List.map_append, addCounts, addCounts,
      List.foldl_append]
    have : d.rp + BitVec.ofNat 32 k + 1 = d.rp + BitVec.ofNat 32 (k + 1) := by
      rw [BitVec.ofNat_add, ← BitVec.add_assoc]; rfl
    simp only [List.map_cons, List.map_nil, List.foldl_cons, List.foldl_nil, this]

/-- The input as the phases read it. -/
theorem inByte_ofNat (e : Env) {j : Nat} (h : j < 2 ^ 32) : e.inByte (BitVec.ofNat 32 j) = e.inp.read j := by
  rw [Env.inByte, BitVec.toNat_ofNat, Nat.mod_eq_of_lt h]

theorem map_inByte (e : Env) {n : Nat} (h : n ≤ 2 ^ 32) :
    (List.range n).map (fun j => e.inByte (BitVec.ofNat 32 j)) = (List.range n).map e.inp.read := by
  apply List.map_congr_left
  intro j hj
  exact inByte_ofNat e (by simp at hj; omega)

/-- R141: the phase FREQ on a non-empty input. -/
theorem phaseFreq_ok {e : Env} (d : Datapath) (h : e.inLen ≠ 0) :
    phaseFreq e d =
      .ok { d with freq := countTable ((List.range e.inLen.toNat).map e.inp.read), rp := e.inLen } := by
  have hl := e.inLen.isLt
  simp only [phaseFreq, if_neg h, countByte_iterate]
  have := map_inByte e (n := e.inLen.toNat) (by omega)
  have h0 : ∀ w : Word, (0 : Word) + w = w := by intro w; simp
  simp only [h0, BitVec.ofNat_toNat, BitVec.setWidth_eq, this, addCounts_zero]

theorem phaseFreq_empty {e : Env} (d : Datapath) (h : e.inLen = 0) : phaseFreq e d = .error (.raise .emptyInput) := by
  simp [phaseFreq, h]

/-! ### PQ -/

/-- R147 in numbers. -/
theorem before_iff (t : NodeTable) (i j : NodeIdx) :
    before t i j = true ↔ (weightOf t i).toNat < (weightOf t j).toNat ∨
      ((weightOf t i).toNat = (weightOf t j).toNat ∧ i.toNat < j.toNat) := by
  simp only [before, Bool.or_eq_true, Bool.and_eq_true, decide_eq_true_eq, BitVec.lt_def, BitVec.toNat_inj]

theorem before_irrefl (t : NodeTable) (i : NodeIdx) : before t i i = false := by simp [before]

/-- R147: the order is total. -/
theorem before_total (t : NodeTable) {i j : NodeIdx} (h : i ≠ j) : before t i j = true ∨ before t j i = true := by
  have : i.toNat ≠ j.toNat := fun h' => h (BitVec.toNat_inj.1 h')
  rw [before_iff, before_iff]; omega

theorem before_trans (t : NodeTable) {i j k : NodeIdx} (h1 : before t i j = true) (h2 : before t j k = true) :
    before t i k = true := by
  rw [before_iff] at *; omega

/-- The least of a list is one of its members, and no member comes before it. -/
theorem leastOf_spec (t : NodeTable) (i : NodeIdx) (q : List NodeIdx) :
    leastOf t i q ∈ i :: q ∧ ∀ j ∈ i :: q, j ≠ leastOf t i q → before t (leastOf t i q) j = true := by
  induction q generalizing i with
  | nil => simp [leastOf]
  | cons k q ih =>
    simp only [leastOf]
    obtain ⟨hm, hl⟩ := ih (if before t k i then k else i)
    refine ⟨?_, ?_⟩
    · rcases List.mem_cons.1 hm with h | h
      · rw [h]; split <;> simp
      · simp [h]
    · intro j hj hne
      by_cases hjc : j = (if before t k i then k else i)
      · exact hl j (by rw [hjc]; exact List.mem_cons_self) hne
      by_cases hjq : j ∈ q
      · exact hl j (List.mem_cons_of_mem _ hjq) hne
      -- `j` is the one of `i`, `k` that lost
      have hlose : before t (if before t k i then k else i) j = true := by
        rcases List.mem_cons.1 hj with h | h
        · subst h
          by_cases hb : before t k j = true
          · simp [hb]
          · simp [hb] at hjc
        · rcases List.mem_cons.1 h with h | h
          · subst h
            by_cases hb : before t j i = true
            · simp [hb] at hjc
            · have hne' : i ≠ j := by rintro rfl; simp at hjc
              simpa [hb] using (before_total t hne').resolve_right hb
          · exact absurd h hjq
      by_cases hc : (if before t k i then k else i) = leastOf t (if before t k i then k else i) q
      · exact hc ▸ hlose
      · exact before_trans t (hl _ List.mem_cons_self hc) hlose

/-- R146: EXTRACT_MIN of a set that is not empty: the least member leaves. -/
theorem extractMin_spec (t : NodeTable) (pq : List NodeIdx) (h : pq ≠ []) :
    ∃ m q, extractMin t pq = some (m, q) ∧ m ∈ pq ∧ q = pq.erase m ∧
      ∀ j ∈ pq, j ≠ m → before t m j = true := by
  cases pq with
  | nil => exact absurd rfl h
  | cons i q =>
    obtain ⟨hm, hl⟩ := leastOf_spec t i q
    exact ⟨_, _, rfl, hm, rfl, hl⟩

/-- R144, R148: one merge with at least two members in PQ. -/
theorem mergeStep_spec (b : Builder) (h : 2 ≤ b.pq.length) :
    ∃ m1 m2, m1 ∈ b.pq ∧ m2 ∈ b.pq.erase m1 ∧
      (∀ j ∈ b.pq, j ≠ m1 → before b.node m1 j = true) ∧
      (∀ j ∈ b.pq.erase m1, j ≠ m2 → before b.node m2 j = true) ∧
      mergeStep b =
        { node := b.node.setIfInBounds b.k ⟨.internal, 0, weightOf b.node m1 + weightOf b.node m2, m2, m1⟩
          pq := (b.pq.erase m1).erase m2 ++ [BitVec.ofNat 9 b.k]
          k := b.k + 1 } := by
  obtain ⟨m1, q1, h1, hm1, rfl, hl1⟩ := extractMin_spec b.node b.pq (by rintro h0; simp [h0] at h)
  have hlen : (b.pq.erase m1).length = b.pq.length - 1 := List.length_erase_of_mem hm1
  obtain ⟨m2, q2, h2, hm2, rfl, hl2⟩ := extractMin_spec b.node (b.pq.erase m1) (by
    rintro h0; rw [h0] at hlen; simp at hlen; omega)
  refine ⟨m1, m2, hm1, hm2, hl1, hl2, ?_⟩
  simp only [mergeStep, h1, h2, Builder.alloc]

end Sys2Proof.Machine
end

