-- ==== Sys2Proof/Tests/Slice0.lean ====
section
/-!
SUPPORT. Tests. The expected results come from spec/95_test_vectors.md (V<n>.<m>) or from the encodings of spec/30_encoding.md.
The second half shows, for each statement with hypotheses, a concrete state and operands that meet all of them.
-/

namespace Sys2Proof.Tests

open Sys2Proof Sys2Proof.Machine

set_option Elab.async false

/-! ### Helpers -/

/-- A core just out of reset with these bytes in IN and room for `cap` bytes in each buffer. -/
def loadCap (cap : Nat) (bs : List Byte) (s : State) : State :=
  { s with
    inp := ⟨bs.zipIdx.map (fun x => (x.2, x.1)), 0⟩, inLen := BitVec.ofNat 32 bs.length, inCap := cap, outCap := cap }

/-- The same with 128 bytes of room. -/
def load (bs : List Byte) : State := loadCap 128 bs State.reset

/-- The state an outcome gives. -/
def nextOf (o : Host.Outcome State Fault Refusal) : State :=
  match o with
  | .next t => t
  | _ => State.reset

/-- The outcome is a next state. -/
def isNext (o : Host.Outcome State Fault Refusal) : Bool :=
  match o with
  | .next _ => true
  | _ => false

theorem eq_nextOf {o : Host.Outcome State Fault Refusal} (h : isNext o = true) : o = .next (nextOf o) := by
  cases o with
  | next t => rfl
  | fault x => simp [isNext] at h
  | refused x => simp [isNext] at h

/-- The state after the commands, one after the other. -/
def after (is : List Instr) (s : State) : State := nextOf (execAll is s)

/-- The value of a computation. -/
def got {ε α : Type} [Inhabited α] (x : Except ε α) : α :=
  match x with
  | .ok a => a
  | .error _ => default

/-- The computation has a value. -/
def isOk {ε α : Type} (x : Except ε α) : Bool :=
  match x with
  | .ok _ => true
  | .error _ => false

theorem eq_got {ε α : Type} [Inhabited α] {x : Except ε α} (h : isOk x = true) : x = .ok (got x) := by
  cases x with
  | ok a => rfl
  | error e => simp [isOk] at h

/-- The computation raises the fault `x`. -/
def raises {α : Type} (x : HwFault) (r : Except Stop α) : Bool :=
  match r with
  | .error (.raise y) => decide (x = y)
  | _ => false

theorem exec_raises {i : Instr} {s : State} {x : HwFault}
    (h : (operational i && !s.status.busy && !s.status.err && prerequisite i s &&
      raises x (runAll ((phasesOf i).map phaseFn) s.env s.dp)) = true) : exec i s = .next (faultEntry x s) := by
  simp only [Bool.and_eq_true, Bool.not_eq_true'] at h
  obtain ⟨⟨⟨⟨ho, hb⟩, he⟩, hp⟩, hr⟩ := h
  refine exec_of_raise ho ⟨hb, he⟩ hp ?_
  cases hx : runAll ((phasesOf i).map phaseFn) s.env s.dp with
  | ok d => simp [hx, raises] at hr
  | error y =>
    cases y with
    | raise y => simp only [hx, raises, decide_eq_true_eq] at hr; rw [hr]
    | stuck y => simp [hx, raises] at hr

/-- What a host that polls sees: STATUS, ERRCODE, OUT_LEN. -/
def seen (o : Host.Outcome State Fault Refusal) : Nat × Nat × Nat :=
  ((nextOf o).status.toWord.toNat, (nextOf o).errcode.toNat, (nextOf o).outLen.toNat)

/-- OUT[0 .. OUT_LEN − 1]. -/
def result (o : Host.Outcome State Fault Refusal) : List Byte := (nextOf o).outBytes 0 (nextOf o).outLen.toNat

/-- A write of a word to CMD. -/
def cmd (w : Word) (s : State) : Host.Outcome State Fault Refusal := step { s with host := [.regWrite 0 w] }

/-- "aaab", and its container (V4.1). -/
def aaab : List Byte := [0x61, 0x61, 0x61, 0x62]
def aaabBox : List Byte :=
  [0x02, 0, 0, 0, 0x61, 0x01, 0, 0, 0, 0, 0, 0, 0, 0x62, 0x01, 0, 0, 0, 0x01, 0, 0, 0, 0x10, 0x04, 0, 0, 0]

/-- The sparse trie of V5.e: one code "10" of 0x78, then payload byte and pad count. -/
def sparseBox (payload pad : Byte) : List Byte := [0x01, 0, 0, 0, 0x78, 0x02, 0, 0, 0, 0x02, 0, 0, 0, payload, pad, 0, 0, 0]

/-! ### Well-formedness: a word that each check refuses, and words that pass -/

theorem test_zeroField_refuses_bit4 : zeroFieldWf 0x00000017 = false := by decide
theorem test_zeroField_refuses_bit31 : zeroFieldWf 0x80000000 = false := by decide
theorem test_opcode_refuses_12 : opcodeWf 0x0000000C = false := by decide
theorem test_opcode_refuses_15 : opcodeWf 0x0000000F = false := by decide
theorem test_wordWf_refuses_either : commandWordWf 0x80000000 = false ∧ commandWordWf 0x0000000C = false := by decide
theorem test_wordWf_accepts_11 : commandWordWf 0x0000000B = true ∧ Instr.ack.wf = true := by decide

/-! ### Decoding: each command's word bit by bit (R90: 28 zeros, then OP) -/

theorem test_decode_nop : decodeWord 0b00000000000000000000000000000000 = .ok .nop := by rfl
theorem test_decode_clr : decodeWord 0b00000000000000000000000000000001 = .ok .clr := by rfl
theorem test_decode_freq : decodeWord 0b00000000000000000000000000000010 = .ok .freq := by rfl
theorem test_decode_build : decodeWord 0b00000000000000000000000000000011 = .ok .build := by rfl
theorem test_decode_assign : decodeWord 0b00000000000000000000000000000100 = .ok .assign := by rfl
theorem test_decode_wrhdr : decodeWord 0b00000000000000000000000000000101 = .ok .wrhdr := by rfl
theorem test_decode_pack : decodeWord 0b00000000000000000000000000000110 = .ok .pack := by rfl
theorem test_decode_encode : decodeWord 0b00000000000000000000000000000111 = .ok .encode := by rfl
theorem test_decode_rdhdr : decodeWord 0b00000000000000000000000000001000 = .ok .rdhdr := by rfl
theorem test_decode_dwalk : decodeWord 0b00000000000000000000000000001001 = .ok .dwalk := by rfl
theorem test_decode_decode : decodeWord 0b00000000000000000000000000001010 = .ok .decode := by rfl
theorem test_decode_ack : decodeWord 0b00000000000000000000000000001011 = .ok .ack := by rfl
theorem test_decode_reserved_opcode : decodeWord 0b00000000000000000000000000001100 = .error .reservedOpcode := by rfl
theorem test_decode_reserved_bits : decodeWord 0b10000000000000000000000000000000 = .error .reservedBits := by rfl
theorem test_table_word : decodeTableWord 32 7 = some .encode ∧ decodeTableWord 32 12 = none := by decide

/-! ### Commands -/

/-- V2.14: NOP in the fault state. V2.22: NOP after an ENCODE. -/
theorem test_nop_keeps_fault : seen (cmd 0 (nextOf (cmd 0xB (nextOf (cmd 4 State.reset))))) = (0x004, 8, 0) := by
  decide +kernel
theorem test_nop_keeps_result : seen (cmd 0 (after [.encode] (load aaab))) = (0x172, 0, 27) := by decide +kernel

/-- V2.21, V2.13: ACK after an ENCODE, and after a dropped command in the fault state. -/
theorem test_ack_after_encode : seen (cmd 0xB (after [.encode] (load aaab))) = (0x170, 0, 27) := by decide +kernel
theorem test_ack_in_fault : seen (cmd 0xB (nextOf (cmd 7 (nextOf (cmd 4 State.reset))))) = (0x004, 8, 0) := by
  decide +kernel

/-- V2.4 from reset, V2.15 out of the fault state with DROPPED set. -/
theorem test_clr_from_reset : seen (cmd 1 State.reset) = (0x002, 0, 0) := by decide +kernel
theorem test_clr_leaves_fault : seen (cmd 1 (nextOf (cmd 0xC (nextOf (cmd 4 State.reset))))) = (0x002, 0, 0) := by
  decide +kernel

/-- V2.8, V2.9, V2.10: illegal words. V2.12: one dropped. -/
theorem test_illegal_words :
    seen (cmd 0x0000000C State.reset) = (0x006, 8, 0) ∧ seen (cmd 0x00000017 State.reset) = (0x006, 8, 0) ∧
      seen (cmd 0x80000000 State.reset) = (0x006, 8, 0) ∧
      seen (cmd 0xC (nextOf (cmd 3 State.reset))) = (0x00E, 2, 0) := by decide +kernel

/-- V2.17, V3.1: FREQ of nothing and of "aaab", read through its window. -/
theorem test_freq_empty : seen (cmd 2 State.reset) = (0x006, 1, 0) := by decide +kernel
theorem test_freq_aaab :
    regValue (nextOf (cmd 2 (load aaab))) 0x584 = 3 ∧ regValue (nextOf (cmd 2 (load aaab))) 0x588 = 1 := by decide +kernel

/-- V2.5: BUILD on a cleared table. V3.4 "abc": ties, and a leaf before an internal node. -/
theorem test_build_empty : seen (cmd 3 State.reset) = (0x006, 2, 0) := by decide +kernel
theorem test_build_abc :
    let t := nextOf (cmd 3 (after [.freq] (load [0x61, 0x62, 0x63])))
    regValue t 0x1018 = 2 ∧ regValue t 0x101C = 0x08000200 ∧ regValue t 0x1024 = 0x08000602 ∧ regValue t 0x20 = 4 ∧
      regValue t 0x102C = 0 := by decide +kernel

/-- V2.6: ASSIGN without a tree. V3.4: the codes "01", "00", "1". -/
theorem test_assign_needs_tree : seen (cmd 4 State.reset) = (0x006, 8, 0) := by decide +kernel
theorem test_assign_abc :
    let t := nextOf (cmd 4 (after [.freq, .build] (load [0x61, 0x62, 0x63])))
    codeOf t.codes 0x61 = [false, true] ∧ codeOf t.codes 0x62 = [false, false] ∧ codeOf t.codes 0x63 = [true] ∧
      codeOf t.codes 0x64 = [] := by decide +kernel

/-- R174's example: the header of "aaab"; OUT_LEN stays 0. -/
theorem test_wrhdr_aaab :
    let t := nextOf (cmd 5 (after [.freq, .build, .assign] (load aaab)))
    t.outBytes 0 22 = aaabBox.take 22 ∧ t.status.toWord = 0x072 ∧ t.outLen = 0 := by decide +kernel

/-- V4.14: PACK of "abba" with the codes of "aaab", and of "abc" (NoCode). -/
theorem test_pack_abba :
    let t := nextOf (cmd 6 (loadCap 128 [0x61, 0x62, 0x62, 0x61] (after [.freq, .build, .assign, .wrhdr] (load aaab))))
    t.outBytes 22 5 = [0x60, 4, 0, 0, 0] ∧ t.outLen = 27 ∧ t.dp.pad = 4 := by decide +kernel
theorem test_pack_noCode :
    seen (cmd 6 (loadCap 128 [0x61, 0x62, 0x63] (after [.freq, .build, .assign, .wrhdr] (load aaab)))) = (0x006, 9, 0) := by
  decide +kernel

/-- V4.2: ENCODE "abracadabra". V4.13: ENCODE "aaab" with one byte of OUT too few. -/
theorem test_encode_abracadabra :
    result (cmd 7 (load [0x61, 0x62, 0x72, 0x61, 0x63, 0x61, 0x64, 0x61, 0x62, 0x72, 0x61])) =
      [5, 0, 0, 0, 0x61, 1, 0, 0, 0, 1, 0, 0, 0, 0x62, 3, 0, 0, 0, 1, 0, 0, 0, 0x63, 3, 0, 0, 0, 3, 0, 0, 0,
        0x64, 3, 0, 0, 0, 2, 0, 0, 0, 0x72, 3, 0, 0, 0, 0, 0, 0, 0, 0x91, 0x75, 0x22, 1, 0, 0, 0] := by decide +kernel
theorem test_encode_overflow : seen (cmd 7 (loadCap 26 aaab State.reset)) = (0x006, 7, 0) := by decide +kernel

/-- V5.c: a 32-bit code. V5.21's conflict: the code "0" before "00". -/
theorem test_rdhdr_long_code :
    (nextOf (cmd 8 (load [1, 0, 0, 0, 0x7A, 0x20, 0, 0, 0, 0xFF, 0xFF, 0xFF, 0xFF]))).dp.tnn = 33 := by decide +kernel
theorem test_rdhdr_passes_leaf :
    seen (cmd 8 (load [2, 0, 0, 0, 0x61, 1, 0, 0, 0, 0, 0, 0, 0, 0x62, 2, 0, 0, 0, 0, 0, 0, 0])) = (0x006, 3, 0) := by
  decide +kernel

/-- V5.e and V5.34 on the sparse trie. -/
theorem test_dwalk_sparse : result (cmd 9 (after [.rdhdr] (load (sparseBox 0xA0 4)))) = [0x78, 0x78] := by decide +kernel
theorem test_dwalk_ends_inside : seen (cmd 9 (after [.rdhdr] (load (sparseBox 0x80 7)))) = (0x006, 5, 0) := by
  decide +kernel

/-- V4.1 decoded; V5.1: its payload byte lost. -/
theorem test_decode_aaab :
    result (cmd 10 (load aaabBox)) = aaab ∧ seen (cmd 10 (load aaabBox)) = (0x182, 0, 4) := by decide +kernel
theorem test_decode_no_payload : seen (cmd 10 (load (aaabBox.take 22 ++ [4, 0, 0, 0]))) = (0x006, 4, 0) := by
  decide +kernel

/-! ### The host's side -/

/-- V2.28: an ENCODE in phase steps; the CMD and CTRL writes meanwhile are lost and leave 0x17A. -/
def encodeUnderWay : State := nextOf (step { load aaab with host := [.startCommand 7] })

theorem test_busy_drops :
    let t := nextOf (step { encodeUnderWay with host := [.regWrite 0x14 1] })
    encodeUnderWay.status.toWord = 0x001 ∧ t.status.toWord = 0x009 ∧ t.ie = false ∧
      seen (sequencerRun 5 t) = (0x17A, 0, 27) := by decide +kernel

/-- P1 and V2.29: a STATUS read shows the flags as acceptance left them, here after three of ENCODE's phases (log 23). -/
theorem test_status_while_busy :
    let t := nextOf (sequencerRun 3 encodeUnderWay)
    t.status.busy = true ∧ (nextOf (step { t with host := [.regRead 4] })).rdata = 0x001 ∧
      (nextOf (step { nextOf (sequencerRun 5 encodeUnderWay) with host := [.regRead 4] })).rdata = 0x172 := by decide +kernel

/-- V2.32: CTRL keeps bit 0 only. V2.24: irq rises at once. -/
theorem test_ctrl :
    let t := nextOf (step { after [.encode] (load aaab) with host := [.regWrite 0x14 0xFFFFFFFF] })
    regValue t 0x14 = 1 ∧ t.irq = true := by decide +kernel

/-- A host write and read of IN; the read past IN_CAP is no access of this core. -/
theorem test_in_access :
    (nextOf (step { nextOf (step { load aaab with host := [.inWrite 1 0xAB] }) with host := [.inRead 1] })).rdata = 0xAB ∧
      isNext (step { load aaab with host := [.inRead 128] }) = false := by decide +kernel

/-! ### Witnesses: for each statement with hypotheses, a state and operands that meet all of them -/

/-- The state after an ENCODE of "aaab" has all four validity flags of the encoder. -/
def encoded : State := after [.encode] (load aaab)

/-- The frequency table of "aaab" (V3.1), and of seven 'b'. -/
def freqAB : WordTable := setEntry (setEntry (Vector.replicate 256 0) 0x61 3) 0x62 1
def freqB : WordTable := setEntry (Vector.replicate 256 0) 0x62 7

/-- The tree of a table. -/
@[irreducible] def treeOf (f : WordTable) : Tree := got (buildTree f)

theorem eq_treeOf {f : WordTable} (h : isOk (buildTree f) = true) : buildTree f = .ok (treeOf f) := by
  rw [treeOf]
  exact eq_got h

/-- The code table of "aaab" (V3.1): a = "0", b = "1". -/
def codesAB : CodeTable := (CodeTable.empty.record 0x61 1 0).record 0x62 1 1

/-- V3.13: 34 symbols with Fibonacci counts. -/
def fibTable : Nat → Byte → Word → Word → WordTable → WordTable
  | 0, _, _, _, t => t
  | n + 1, s, a, b, t => fibTable n (s + 1) b (a + b) (setEntry t s a)
def deepFreq : WordTable := fibTable 34 0 1 1 (Vector.replicate 256 0)

/-- A ready core whose tree is the one of `f`. -/
def withTree (f : WordTable) : State :=
  { State.reset with
    status := { Status.zero with treeValid := true }
    dp := { State.reset.dp with
      freq := f, node := (treeOf f).node, nsyms := (treeOf f).nsyms, nnodes := (treeOf f).nnodes, root := (treeOf f).root } }

theorem encoded_ready : encoded.ready := by unfold State.ready; decide +kernel
theorem load_ready (bs : List Byte) : (load bs).ready := ⟨rfl, rfl⟩

theorem witness_DecodeAfterEncodeIsIdentity : Instr.dwalk.wf = true := by decide

theorem witness_StepRunsTheDecodedCommand :
    decodeWord 7 = .ok .encode ∧ { load aaab with host := [.regWrite 0 7] }.host = .regWrite 0 7 :: [] ∧
      { load aaab with host := [.startCommand 7] }.host = .startCommand 7 :: [] ∧
      { load aaab with host := [.startCommand 12] }.host = .startCommand 12 :: [] ∧ (∀ i, decodeWord 12 ≠ .ok i) ∧
      { encodeUnderWay with host := [.wait] }.host = .wait :: [] ∧ encodeUnderWay.seq = .run .freq ∧
      State.reset.host = [] ∧ State.reset.seq = .idle :=
  ⟨rfl, rfl, rfl, rfl, fun i => by cases i <;> decide, rfl, by decide +kernel, rfl, rfl⟩

theorem witness_IllegalWordIsDroppedOrRaisesIllegalCommand :
    { State.reset with host := [.regWrite 0 0xC] }.host = .regWrite 0 0xC :: [] ∧
      12 ≤ ((0xC : Word).extractLsb' 0 4).toNat ∧ (0x10 : Word).extractLsb' 4 28 ≠ 0 ∧
      (0x80000000 : Word).extractLsb' 4 28 ≠ 0 := ⟨rfl, by decide⟩

theorem witness_BusyOrFaultedCoreDropsCommands :
    encodeUnderWay.status.busy = true ∧
      (nextOf (cmd 3 State.reset)).status.err = true ∧ Instr.freq ≠ .nop ∧ Instr.freq ≠ .ack ∧ Instr.freq ≠ .clr := by
  decide +kernel

theorem witness_UnmetPrerequisiteRaisesIllegalCommand :
    State.reset.ready ∧ State.reset.status.treeValid = false ∧ State.reset.status.codeValid = false ∧
      State.reset.status.hdrDone = false ∧ State.reset.status.trieValid = false ∧
      (loadCap 3 aaab State.reset).ready ∧ (loadCap 3 aaab State.reset).inCap < (loadCap 3 aaab State.reset).inLen.toNat :=
  ⟨⟨rfl, rfl⟩, rfl, rfl, rfl, rfl, ⟨rfl, rfl⟩, by decide⟩

theorem witness_FaultedCommandIsOnlyFaultEntry :
    State.reset.ready ∧ exec .build State.reset = .next (nextOf (exec .build State.reset)) ∧
      exec .encode (load aaab) = .next (nextOf (exec .encode (load aaab))) :=
  ⟨⟨rfl, rfl⟩, eq_nextOf (by decide +kernel), eq_nextOf (by decide +kernel)⟩

theorem witness_EncodeRaisesOnlyItsOwnFaults :
    State.reset.ready ∧ exec .encode State.reset = .next (nextOf (exec .encode State.reset)) ∧
      (nextOf (exec .encode State.reset)).status.err = true :=
  ⟨⟨rfl, rfl⟩, eq_nextOf (by decide +kernel), by decide +kernel⟩

/-- For NOP, ACK and CLR: a core with BUSY = 0, in the fault state too, and one with BUSY = 1. -/
theorem witness_control_commands :
    State.reset.status.busy = false ∧ (nextOf (cmd 3 State.reset)).status.busy = false ∧
      (nextOf (cmd 3 State.reset)).status.err = true ∧ encodeUnderWay.status.busy = true := by decide +kernel

theorem witness_FreqCountsTheInput :
    (load aaab).ready ∧ 0 < (load aaab).inLen.toNat ∧ (load aaab).inLen.toNat ≤ (load aaab).inCap :=
  ⟨load_ready _, by decide⟩

theorem witness_EmptyInputIsRefused :
    State.reset.ready ∧ State.reset.inLen = 0 ∧ { encoded with inLen := 0 }.ready ∧
      { encoded with inLen := 0 }.status.hdrDone = true := by
  unfold State.ready
  decide +kernel

theorem witness_BuildRefusesTheEmptyAlphabet : State.reset.ready ∧ ∀ b : Byte, entry State.reset.dp.freq b = 0 :=
  ⟨⟨rfl, rfl⟩, fun b => entry_replicate 0 b⟩

theorem witness_BuildCompletes : (withTree freqAB).ready ∧ ∃ b : Byte, entry (withTree freqAB).dp.freq b ≠ 0 :=
  ⟨⟨rfl, rfl⟩, 0x61, by decide +kernel⟩

/-- The tree of "aaab" is V3.1's. -/
theorem treeAB :
    buildTree freqAB = .ok (treeOf freqAB) ∧ (treeOf freqAB).nsyms = 2 ∧ (treeOf freqAB).nnodes = 3 ∧
      (treeOf freqAB).root = 2 ∧
      nodeAt (treeOf freqAB).node 0 = some ⟨.leaf, 0x61, 3, 0, 0⟩ ∧ nodeAt (treeOf freqAB).node 1 = some ⟨.leaf, 0x62, 1, 0, 0⟩ ∧
      nodeAt (treeOf freqAB).node 2 = some ⟨.internal, 0, 4, 0, 1⟩ :=
  ⟨eq_treeOf (by decide +kernel), by decide +kernel⟩

/-- The code table of "aaab" is V3.1's. -/
theorem assignAB : assignCodes (treeOf freqAB).node (treeOf freqAB).root = .ok codesAB := by
  obtain ⟨-, -, -, hroot, h0, h1, h2⟩ := treeAB
  rw [assignCodes, hroot, visit_internal 31 _ _ _ h2 rfl, visit_leaf _ _ _ _ h0 rfl]
  exact visit_leaf _ _ _ _ h1 rfl

theorem alphabetAB : alphabet freqAB = [0x61, 0x62] := by decide +kernel
theorem alphabetB : alphabet freqB = [0x62] := by decide +kernel

theorem countAB : countTable aaab = freqAB := by
  refine table_ext fun b => ?_
  rw [entry_countTable, freqAB, entry_setEntry, entry_setEntry, entry_replicate]
  by_cases h1 : b = 0x62
  · subst h1; decide
  · by_cases h2 : b = 0x61
    · subst h2; decide
    · have : aaab.count b = 0 := by
        rw [List.count_eq_zero]
        simpa [aaab] using And.intro h2 h1
      rw [if_neg h1, if_neg h2, this]
      rfl

/-- For BuildPutsLeavesInSymbolOrder, RootWeighsTheWholeInput, HeaderHasNineBytesPerSymbol. -/
theorem witness_built_tree :
    buildTree freqAB = .ok (treeOf freqAB) ∧
      assignCodes (treeOf freqAB).node (treeOf freqAB).root = .ok codesAB ∧ freqSum freqAB < 2 ^ 32 ∧
      (alphabet freqAB)[1]? = some 0x62 ∧ (treeOf freqAB).node[1]? = some ⟨.leaf, 0x62, 1, 0, 0⟩ :=
  ⟨treeAB.1, assignAB, by decide +kernel, by rw [alphabetAB]; rfl, treeAB.2.2.2.2.2.1⟩

theorem witness_EveryMergeTakesTheTwoLeast :
    buildTree freqAB = .ok (treeOf freqAB) ∧ 2 ≤ (alphabet freqAB).length ∧ (alphabet freqAB).length ≤ 2 ∧
      2 < (treeOf freqAB).nnodes.toNat ∧ (treeOf freqAB).node[2]? = some ⟨.internal, 0, 4, 0, 1⟩ :=
  ⟨treeAB.1, by simp [alphabetAB], by simp [alphabetAB], by rw [treeAB.2.2.1]; decide, treeAB.2.2.2.2.2.2⟩

theorem witness_OneSymbolTreeHasPlaceholder : alphabet freqB = [0x62] := alphabetB

theorem witness_AssignGivesEachLeafItsPath :
    (withTree freqAB).ready ∧ (withTree freqAB).status.treeValid = true ∧
      buildTree (withTree freqAB).dp.freq =
        .ok ⟨(withTree freqAB).dp.node, (withTree freqAB).dp.nsyms, (withTree freqAB).dp.nnodes, (withTree freqAB).dp.root⟩ ∧
      (∀ p r, p.length = 32 → nodeOnPath (withTree freqAB).dp.node (withTree freqAB).dp.root p = some r →
        r.kind ≠ .internal) := by
  refine ⟨⟨rfl, rfl⟩, rfl, treeAB.1, ?_⟩
  obtain ⟨-, -, -, hroot, h0, h1, h2⟩ := treeAB
  intro p r hp h
  have h' : nodeOnPath (treeOf freqAB).node (treeOf freqAB).root p = some r := h
  rw [hroot] at h'
  rcases p with _ | ⟨b, _ | ⟨b', q⟩⟩
  · simp at hp
  · simp at hp
  · exfalso
    cases b <;> simp only [nodeOnPath, h2, h0, h1, Node.child, if_true, if_false, Bool.false_eq_true, reduceCtorEq] at h'

theorem witness_AssignRefusesTooDeepTrees :
    (withTree deepFreq).ready ∧ (withTree deepFreq).status.treeValid = true ∧
      buildTree (withTree deepFreq).dp.freq =
        .ok ⟨(withTree deepFreq).dp.node, (withTree deepFreq).dp.nsyms, (withTree deepFreq).dp.nnodes, (withTree deepFreq).dp.root⟩ ∧
      ∃ p r, p.length = 32 ∧ nodeOnPath (withTree deepFreq).dp.node (withTree deepFreq).dp.root p = some r ∧
        r.kind = .internal :=
  ⟨⟨rfl, rfl⟩, rfl, eq_treeOf (by decide +kernel), List.replicate 32 false, ⟨.internal, 0, 2, 1, 0⟩, rfl,
    by decide +kernel, rfl⟩

theorem witness_AtMost33SymbolsNeverTooLong :
    buildTree freqAB = .ok (treeOf freqAB) ∧ (alphabet freqAB).length ≤ 33 := ⟨treeAB.1, by simp [alphabetAB]⟩

theorem witness_AssignedCodesArePrefixFree :
    buildTree freqAB = .ok (treeOf freqAB) ∧ assignCodes (treeOf freqAB).node (treeOf freqAB).root = .ok codesAB ∧
      (0x61 : Byte) ≠ 0x62 ∧ entry freqAB 0x61 ≠ 0 ∧ entry freqAB 0x62 ≠ 0 :=
  ⟨treeAB.1, assignAB, by decide, by decide +kernel, by decide +kernel⟩

theorem witness_CodeIsComplete :
    buildTree freqAB = .ok (treeOf freqAB) ∧ assignCodes (treeOf freqAB).node (treeOf freqAB).root = .ok codesAB ∧
      2 ≤ (alphabet freqAB).length ∧
      buildTree freqB = .ok (treeOf freqB) ∧
      assignCodes (treeOf freqB).node (treeOf freqB).root = .ok (got (assignCodes (treeOf freqB).node (treeOf freqB).root)) ∧
      (alphabet freqB).length = 1 :=
  ⟨treeAB.1, assignAB, by simp [alphabetAB], eq_treeOf (by decide +kernel), eq_got (by decide +kernel), by simp [alphabetB]⟩

theorem witness_WrhdrWritesTheHeader :
    encoded.ready ∧ encoded.status.codeValid = true ∧ encoded.outCap < 2 ^ 32 ∧
      encoded.header.length ≤ encoded.outCap := by
  unfold State.ready
  decide +kernel

theorem witness_PackWritesPayloadAndTrailer :
    encoded.ready ∧ encoded.status.hdrDone = true ∧ 0 < encoded.inLen.toNat ∧ encoded.inLen.toNat ≤ encoded.inCap ∧
      encoded.outCap < 2 ^ 32 ∧ (∀ b ∈ encoded.input, entry encoded.dp.codeLen b ≠ 0) ∧
      4 + 9 * encoded.dp.nsyms.toNat + payloadLength (payloadBits encoded.codes encoded.input) + 4 ≤ encoded.outCap := by
  unfold State.ready
  decide +kernel

theorem witness_PadCountIsAlwaysLegal :
    encoded.ready ∧ exec .pack encoded = .next (nextOf (exec .pack encoded)) ∧
      (nextOf (exec .pack encoded)).status.err = false ∧
      exec .encode (load aaab) = .next (nextOf (exec .encode (load aaab))) ∧
      (nextOf (exec .encode (load aaab))).status.err = false :=
  ⟨encoded_ready, eq_nextOf (by decide +kernel), by decide +kernel, eq_nextOf (by decide +kernel), by decide +kernel⟩

theorem witness_PackRefusesByteWithoutCode :
    let s := loadCap 128 [0x61, 0x62, 0x63] encoded
    s.ready ∧ s.status.hdrDone = true ∧ s.inLen.toNat ≤ s.inCap ∧ s.outCap < 2 ^ 32 ∧
      s.input = [0x61, 0x62] ++ 0x63 :: [] ∧ (∀ x ∈ ([0x61, 0x62] : List Byte), entry s.dp.codeLen x ≠ 0) ∧
      entry s.dp.codeLen 0x63 = 0 ∧
      4 + 9 * s.dp.nsyms.toNat + (payloadBits s.codes [0x61, 0x62]).length / 8 ≤ s.outCap := by
  unfold State.ready
  decide +kernel

/-- For EncodeEqualsItsFivePhases and DecodeEqualsItsTwoPhases, both sides are met by a success, and by a fault of a later
phase (V4.13: OUT one byte too short for PACK; V5.1: no payload byte for DWALK). -/
theorem witness_composites :
    (load aaab).ready ∧ (after [.encode] (load aaab)).status.err = false ∧
      (after [.freq, .build, .assign, .wrhdr, .pack] (load aaab)).status.err = false ∧
      (load aaabBox).ready ∧ (after [.decode] (load aaabBox)).status.err = false ∧
      (after [.rdhdr, .dwalk] (load aaabBox)).status.err = false := by
  unfold State.ready
  decide +kernel

theorem witness_composites_faulted :
    let s := loadCap 26 aaab State.reset
    let u := after [.freq, .build, .assign, .wrhdr] s
    let s' := load (aaabBox.take 22 ++ [4, 0, 0, 0])
    let u' := after [.rdhdr] s'
    exec .encode s = .next (faultEntry .outputOverflow s) ∧ u.status.err = false ∧
      exec .pack u = .next (faultEntry .outputOverflow u) ∧
      exec .decode s' = .next (faultEntry .invalidPadding s') ∧ u'.status.err = false ∧
      exec .dwalk u' = .next (faultEntry .invalidPadding u') := by
  refine ⟨exec_raises ?_, ?_, exec_raises ?_, exec_raises ?_, ?_, exec_raises ?_⟩ <;> decide +kernel

theorem input_aaab : (load aaab).input = aaab := by decide +kernel

theorem witness_EncodeWritesTheContainer :
    (load aaab).ready ∧ 0 < (load aaab).inLen.toNat ∧ (load aaab).inLen.toNat ≤ (load aaab).inCap ∧
      (load aaab).outCap < 2 ^ 32 ∧ buildTree (countTable (load aaab).input) = .ok (treeOf freqAB) ∧
      assignCodes (treeOf freqAB).node (treeOf freqAB).root = .ok codesAB ∧
      (container (treeOf freqAB).nsyms codesAB (load aaab).input).length ≤ (load aaab).outCap :=
  ⟨load_ready _, by decide, by decide, by decide, by rw [input_aaab, countAB]; exact treeAB.1, assignAB,
    by decide +kernel⟩

theorem goodHeader_aaabBox : (load aaabBox).goodHeader := by
  unfold State.goodHeader State.headerFits HeaderEntry.legal prefixFree
  decide +kernel

theorem witness_RdhdrAcceptsExactlyGoodHeaders :
    (load aaabBox).ready ∧ (load aaabBox).inLen.toNat ≤ (load aaabBox).inCap ∧ (load aaabBox).goodHeader ∧
      State.reset.ready ∧ (load [2, 0, 0]).inLen.toNat ≤ (load [2, 0, 0]).inCap ∧ ¬ (load [2, 0, 0]).goodHeader := by
  refine ⟨load_ready _, by decide, goodHeader_aaabBox, ⟨rfl, rfl⟩, by decide, fun h => ?_⟩
  exact absurd h.1.1 (by decide)

theorem witness_RdhdrTrieHoldsExactlyTheCodes :
    exec .rdhdr (load aaabBox) = .next (nextOf (exec .rdhdr (load aaabBox))) := eq_nextOf (by decide +kernel)

theorem witness_DwalkRefusesMissingTrailerAndBadPadding :
    let s := after [.rdhdr] (load (aaabBox.take 25))
    let u := after [.rdhdr] (load (aaabBox.take 26))
    let v := after [.rdhdr] (load (aaabBox.take 23 ++ [8, 0, 0, 0]))
    let w := after [.rdhdr] (load (aaabBox.take 23 ++ [0xFF, 0xFF, 0xFF, 0xFF]))
    s.ready ∧ s.status.trieValid = true ∧ s.inLen.toNat ≤ s.inCap ∧ s.inLen.toNat < s.dp.dh.toNat + 4 ∧
      u.ready ∧ u.status.trieValid = true ∧ u.inLen.toNat = u.dp.dh.toNat + 4 ∧
      8 * (u.inLen.toNat - 4 - u.dp.dh.toNat) ≤ u.trailer.toNat ∧
      v.status.trieValid = true ∧ v.dp.dh.toNat + 4 ≤ v.inLen.toNat ∧ 7 < v.trailer ∧
      w.status.trieValid = true ∧ w.dp.dh.toNat + 4 ≤ w.inLen.toNat ∧ w.trailer < 0 := by
  unfold State.ready
  decide +kernel

/-- The picks of "aaab". -/
def aaabPicks : List (List Bool × Byte) := [([false], 0x61), ([false], 0x61), ([false], 0x61), ([true], 0x62)]

theorem witness_DwalkEmitsTheSymbols :
    let s := after [.rdhdr] (load aaabBox)
    s.ready ∧ s.status.trieValid = true ∧ s.inLen.toNat ≤ s.inCap ∧ s.outCap < 2 ^ 32 ∧ s.paddingOk s.dp.dh.toNat ∧
      (∀ x ∈ aaabPicks, trieSymbol s.dp.tnode 0 x.1 = some x.2) ∧
      s.payload s.dp.dh.toNat = aaabPicks.flatMap Prod.fst ∧ aaabPicks.length ≤ s.outCap := by
  unfold State.ready State.paddingOk
  decide +kernel

/-- A ready core with the trie of V5.e, the pad count 7 and this payload byte. -/
def sparse (payload : Byte) : State := after [.rdhdr] (load (sparseBox payload 7))

theorem sparse_trieFromHeader (payload : Byte) (h : isOk (readHeader (load (sparseBox payload 7)).env ⟨[], 0⟩) = true)
    (hg : got (readHeader (load (sparseBox payload 7)).env ⟨[], 0⟩) =
      (1, ⟨(sparse payload).dp.tnode, (sparse payload).dp.tnn⟩))
    (ha : (sparse payload).dp.da.toNat = 1 ∧ (sparse payload).dp.dh.toNat = 4 + 9 * 1) :
    (sparse payload).trieFromHeader :=
  ⟨_, _, 1, hg ▸ eq_got h, ha⟩

/-- V5.34: the bits end inside the tree. V5.33: an absent child. -/
theorem witness_DwalkRefusesBitsThatReachNoLeaf :
    let s := sparse 0x80
    let u := sparse 0x00
    s.trieFromHeader ∧ u.trieFromHeader ∧ (s.ready ∧ s.status.trieValid = true ∧ s.inLen.toNat ≤ s.inCap ∧ s.outCap < 2 ^ 32 ∧ s.paddingOk s.dp.dh.toNat ∧
      s.payload s.dp.dh.toNat = [] ++ [true] ∧
      ∀ p ∈ ([true] : List Bool).inits, trieSymbol s.dp.tnode 0 p = none) ∧
    (u.ready ∧ u.status.trieValid = true ∧ u.inLen.toNat ≤ u.inCap ∧ u.outCap < 2 ^ 32 ∧ u.paddingOk u.dp.dh.toNat ∧
      u.payload u.dp.dh.toNat = [] ++ [false] ∧
      ∀ p ∈ ([false] : List Bool).inits, trieSymbol u.dp.tnode 0 p = none) := by
  refine ⟨sparse_trieFromHeader _ ?_ ?_ ?_, sparse_trieFromHeader _ ?_ ?_ ?_, ?_⟩
  all_goals try unfold State.ready State.paddingOk
  all_goals decide +kernel

theorem witness_ShortOutputOverflows :
    let s := { encoded with outCap := 21 }
    let u := { encoded with outCap := 26 }
    let v := after [.rdhdr] (loadCap 128 aaabBox { State.reset with host := [] })
    let w := { v with outCap := 3 }
    let pre := List.replicate 8 (0x61 : Byte)
    let x := { loadCap 128 (pre ++ [0x63]) encoded with outCap := 22 }
    (x.ready ∧ x.outCap < 2 ^ 32 ∧ x.status.hdrDone = true ∧ x.inLen.toNat ≤ x.inCap ∧ x.input = pre ++ [0x63] ∧
      (∀ b ∈ pre, entry x.dp.codeLen b ≠ 0) ∧ 8 ≤ (payloadBits x.codes pre).length ∧
      x.outCap < 4 + 9 * x.dp.nsyms.toNat + (payloadBits x.codes pre).length / 8) ∧
    (s.ready ∧ s.outCap < 2 ^ 32 ∧ s.status.codeValid = true ∧
      s.outCap < s.header.length) ∧
    (u.ready ∧ u.status.hdrDone = true ∧ 0 < u.inLen.toNat ∧ u.inLen.toNat ≤ u.inCap ∧
      (∀ b ∈ u.input, entry u.dp.codeLen b ≠ 0) ∧
      u.outCap < 4 + 9 * u.dp.nsyms.toNat + payloadLength (payloadBits u.codes u.input) + 4) ∧
    (w.ready ∧ w.status.trieValid = true ∧ w.inLen.toNat ≤ w.inCap ∧ w.paddingOk w.dp.dh.toNat ∧
      (∀ x ∈ aaabPicks, trieSymbol w.dp.tnode 0 x.1 = some x.2) ∧
      w.payload w.dp.dh.toNat = aaabPicks.flatMap Prod.fst ++ [] ∧ aaabPicks.length = w.outCap + 1) := by
  unfold State.ready State.paddingOk
  decide +kernel

theorem witness_DecodeWritesTheSymbols :
    let s := load aaabBox
    let picks : List HeaderEntry := [⟨0x61, 1, 0⟩, ⟨0x61, 1, 0⟩, ⟨0x61, 1, 0⟩, ⟨0x62, 1, 1⟩]
    s.ready ∧ s.inLen.toNat ≤ s.inCap ∧ s.outCap < 2 ^ 32 ∧ s.goodHeader ∧ s.paddingOk (4 + 9 * s.headerCount.toNat) ∧
      (∀ x ∈ picks, x ∈ s.entries) ∧
      s.payload (4 + 9 * s.headerCount.toNat) = picks.flatMap HeaderEntry.code ∧ picks.length ≤ s.outCap := by
  refine ⟨load_ready _, by decide, by decide, goodHeader_aaabBox, ?_⟩
  unfold State.paddingOk
  decide +kernel

theorem witness_DecodeInvertsEncode :
    let s := load aaab
    let t := nextOf (exec .encode s)
    let s' := load aaabBox
    s.ready ∧ s.outCap < 2 ^ 32 ∧ exec .encode s = .next t ∧ t.status.err = false ∧ s'.ready ∧ s'.outCap < 2 ^ 32 ∧
      s'.input = t.outBytes 0 t.outLen.toNat ∧ s'.inLen.toNat ≤ s'.inCap ∧ s.inLen.toNat ≤ s'.outCap :=
  ⟨load_ready _, by decide, eq_nextOf (by decide +kernel), by decide +kernel, load_ready _, by decide, by decide +kernel,
    by decide, by decide⟩

/-- For the frames: commands of both units that answer a next state with ERR = 0. -/
theorem witness_frames :
    exec .encode (load aaab) = .next (after [.encode] (load aaab)) ∧ encoded.status.err = false ∧
      exec .decode (load aaabBox) = .next (after [.decode] (load aaabBox)) ∧
      (after [.decode] (load aaabBox)).status.err = false := by
  have h : ∀ i s, isNext (exec i s) = true → exec i s = .next (after [i] s) := by
    intro i s h
    cases hx : exec i s with
    | next t => simp only [after, execAll, hx, nextOf]
    | fault x => simp [hx, isNext] at h
    | refused x => simp [hx, isNext] at h
  exact ⟨h _ _ (by decide +kernel), by decide +kernel, h _ _ (by decide +kernel), by decide +kernel⟩

/-- Another byte above IN_LEN. -/
theorem witness_BytesAboveInLenDoNotMatter :
    ((load aaab).inp.write 4 0xEE).read 4 ≠ 0 ∧
      ∀ a, a < (load aaab).inLen.toNat → ((load aaab).inp.write 4 0xEE).read a = (load aaab).inp.read a := by
  decide +kernel

theorem witness_PhaseStepsEqualOneStep : (load aaab).status.busy = false ∧ (load aaab).seq = .idle := ⟨rfl, rfl⟩

theorem witness_AcceptanceFixesTheFlags :
    operational .encode = true ∧ (load aaab).status.busy = false ∧ (load aaab).status.err = false ∧
      prerequisite .encode (load aaab) = true ∧ operational .clr = true ∧ prerequisite .clr State.reset = true := by
  decide +kernel

theorem witness_CompletionFixesTheFlagsAndIrq :
    operational .clr = true ∧ (nextOf (cmd 3 State.reset)).status.busy = false ∧
      isNext (exec .clr (nextOf (cmd 3 State.reset))) = true ∧ isNext (exec .encode (load aaab)) = true := by
  decide +kernel

/-- A core that has run FREQ, BUILD, ASSIGN and WRHDR on "aaab": its flags, its tables and the header in OUT. -/
def headed (ms : List HostMove) : State :=
  { withTree freqAB with
    status := ⟨false, true, false, false, true, true, true, false, false⟩
    inCap := 128, outCap := 128, host := ms
    dp := { (withTree freqAB).dp with
      codeLen := codesAB.len, codeVal := codesAB.val
      out := Memory.writeAll ⟨[], 1⟩ 0 (header (treeOf freqAB).nsyms codesAB) } }

theorem header_length : (header (treeOf freqAB).nsyms codesAB).length ≤ 128 := by decide +kernel

theorem headed_legal (ms : List HostMove) : Legal (headed ms) where
  control := by constructor <;> simp [headed, withTree, State.reset]
  buffers := by
    refine ⟨by simp [headed], by simp [headed], rfl, Memory.wf_writeAll _ _ _ rfl, rfl, by simp [headed, withTree, State.reset], ?_⟩
    have h : ∀ c ∈ (headed []).dp.out.cells, c.1 < 128 := by decide +kernel
    exact h
  tables := by
    refine ⟨fun _ => witness_built_tree.2.2.1, fun _ => treeAB.1, fun _ => assignAB, fun _ => ⟨header_length, ?_⟩,
      fun h => ?_, fun h => ?_, fun _ => ?_, fun _ b => ?_, fun _ => ⟨rfl, rfl, rfl, rfl, rfl⟩⟩
    · exact Memory.map_read_writeAll _ 0 _
    · simp [headed] at h
    · simp [headed] at h
    · simp [headed, withTree, State.reset, Datapath.cleared]
    · show (entry codesAB.len b).toNat ≤ 32 ∧ (entry codesAB.val b).toNat < 2 ^ (entry codesAB.len b).toNat
      simp only [codesAB, entry_record_len, entry_record_val, CodeTable.empty, entry_replicate]
      split
      · decide
      · split <;> decide

/-- For the invariants: a legal state and a step of it. -/
theorem witness_invariants :
    Legal (headed [.regWrite 0 0xB]) ∧ isNext (step (headed [.regWrite 0 0xB])) = true :=
  ⟨headed_legal _, by decide +kernel⟩

/-- What OUT_VALID promises, met by the result of an ENCODE and by that of a DECODE. -/
theorem witness_result : encoded.resultInOut ∧ (after [.decode] (load aaabBox)).resultInOut := by
  refine ⟨⟨?_, fun _ => ⟨aaab, ?_⟩, fun h => absurd h ?_⟩, ⟨?_, fun h => absurd h ?_, fun _ => ⟨?_, aaabPicks, ?_⟩⟩⟩ <;>
    decide +kernel

theorem witness_LegalStatesNeverGetStuck :
    Legal (headed [.inRead 128]) ∧ step (headed [.inRead 128]) = .fault .noSuchInByte := ⟨headed_legal _, rfl⟩

/-- Every case of a register write, at the ends of the ranges. -/
theorem witness_RegisterWritesStoreDropOrIgnore :
    { encoded with host := [.regWrite 0x0C 5] }.host = .regWrite 0x0C 5 :: [] ∧
      (∀ off ∈ ([4, 0x0C, 0x14, 0x28, 0x1FF8, 0x1FFC] : List Nat), off < 0x2000 ∧ off % 4 = 0 ∧ off ≠ 0) ∧
      encodeUnderWay.status.busy = true := ⟨rfl, by decide, by decide +kernel⟩

theorem witness_RegistersReadAsTheMapSays :
    encoded.dp.node[0]? = some ⟨.leaf, 0x61, 3, 0, 0⟩ ∧ encoded.dp.node[510]? = some Node.empty ∧
      regValue encoded 0x1000 = 3 ∧ regValue encoded 0x1FF4 = 0 ∧ regValue encoded 0x28 = 0 ∧ regValue encoded 0x3FC = 0 ∧
      regValue encoded 0x400 = 0 ∧ regValue encoded 0x1FF8 = 0 ∧ regValue encoded 0x1FFC = 0 := by decide +kernel

theorem witness_HostAccessesAreExact :
    encoded.status.busy = false ∧ 0 < 0x2000 ∧ 0x1FFC < 0x2000 ∧ 0x1FFC % 4 = 0 ∧ 0 < encoded.inCap ∧ 127 < encoded.inCap ∧
      127 < encoded.outCap := by decide +kernel

/-- While BUSY = 1: a taken command under way with a read pending, at the ends of the ranges. -/
theorem witness_HostAccessesAreExact_busy :
    (∀ off ∈ ([0, 4, 0x0C, 0x14, 0x28, 0x3FC, 0x1FF8, 0x1FFC] : List Nat), off % 4 = 0 ∧ off < 0x2000) ∧
      operational .encode = true ∧ (load aaab).status.busy = false ∧ (load aaab).status.err = false ∧
      prerequisite .encode (load aaab) = true ∧
      (nextOf (sequencerRun 4 (startCommand .encode (load aaab)))).status.busy = true ∧
      (nextOf (sequencerRun 4 (startCommand .encode (load aaab)))).status.hdrDone = true := by decide +kernel

theorem witness_HardwareResetGivesTheResetState :
    { encodeUnderWay with host := [.hwReset] }.host = .hwReset :: [] ∧ encodeUnderWay.status.busy = true :=
  ⟨rfl, by decide +kernel⟩

end Sys2Proof.Tests
end

/-!
PROOFS. O48: a command taken in phase steps (R11, R276) ends where its one step ends. The sequencer's run over the last phases
of a command is `runPhases` over them, by induction on the phases to come; what R120 settles before acceptance leaves the
sequencer IDLE, and an idle sequencer keeps the state (R254).
-/

namespace Sys2Proof.Machine

/-- R90: the opcode that acceptance latches in OPL names the command. -/
@[simp] theorem ofOpcode_opcode (c : Instr) : Instr.ofOpcode c.opcode = some c := by
  cases c <;> rfl

/-- R129: no command has a phase twice, so OPL and SEQ together say how far it has come. -/
theorem phasesOf_nodup (c : Instr) : (phasesOf c).Nodup := by
  cases c <;> decide

theorem phasesAfter_append {p : Phase} {pre ps : List Phase} (hp : p ∉ pre) :
    phasesAfter p (pre ++ p :: ps) = some ps := by
  induction pre with
  | nil => simp [phasesAfter]
  | cons q pre ih =>
    obtain ⟨hq, hpre⟩ := List.ne_and_not_mem_of_not_mem_cons hp
    simp [phasesAfter, Ne.symm hq, ih hpre]

/-- The phases of `c` that come after `p`, read off any place of `p` among them. -/
theorem phasesAfter_phasesOf {c : Instr} {p : Phase} {pre ps : List Phase} (h : phasesOf c = pre ++ p :: ps) :
    phasesAfter p (phasesOf c) = some ps := by
  have hn : (pre ++ p :: ps).Nodup := h ▸ phasesOf_nodup c
  rw [h]
  exact phasesAfter_append fun hp => (List.nodup_append.1 hn).2.2 p hp p List.mem_cons_self rfl

/-- SEQ and OPL say that the command `c` has come to its phase `p`, with the phases `ps` after it (R27). -/
structure AtPhase (c : Instr) (p : Phase) (ps : List Phase) (s : State) : Prop where
  seq : s.seq = .run p
  opl : Instr.ofOpcode s.opl = some c
  after : phasesAfter p (phasesOf c) = some ps

theorem atPhase_accept {c : Instr} {p : Phase} {ps : List Phase} (s : State) (h : phasesOf c = p :: ps) :
    AtPhase c p ps (accept c s) where
  seq := by simp [h]
  opl := by simp
  after := phasesAfter_phasesOf (pre := []) h

/-! ### One step of the sequencer -/

theorem sequencerStep_idle {s : State} (h : s.seq = .idle) : sequencerStep s = .next s := by
  simp [sequencerStep, h]

section
variable {c : Instr} {p : Phase} {s : State}

theorem sequencerStep_last {d : Datapath} (h : AtPhase c p [] s) (hd : phaseFn p s.env s.dp = .ok d) :
    sequencerStep s = .next (complete c (endPhase p [] d s)) := by
  simp [sequencerStep, h.seq, h.opl, h.after, hd]

theorem sequencerStep_more {q : Phase} {qs : List Phase} {d : Datapath} (h : AtPhase c p (q :: qs) s)
    (hd : phaseFn p s.env s.dp = .ok d) : sequencerStep s = .next (endPhase p (q :: qs) d s) := by
  simp [sequencerStep, h.seq, h.opl, h.after, hd]

theorem sequencerStep_raise {ps : List Phase} {x : HwFault} (h : AtPhase c p ps s)
    (hx : phaseFn p s.env s.dp = .error (.raise x)) : sequencerStep s = .next (faultEntry x s) := by
  simp [sequencerStep, h.seq, h.opl, h.after, hx]

theorem sequencerStep_stuck {ps : List Phase} {x : Fault} (h : AtPhase c p ps s)
    (hx : phaseFn p s.env s.dp = .error (.stuck x)) : sequencerStep s = .fault x := by
  simp [sequencerStep, h.seq, h.opl, h.after, hx]

end

/-! ### Several steps of the sequencer -/

theorem sequencerRun_succ_next {s t : State} (n : Nat) (h : sequencerStep s = .next t) :
    sequencerRun (n + 1) s = sequencerRun n t := by
  simp [sequencerRun, h]

/-- R254: an idle sequencer does nothing, however often it steps. -/
theorem sequencerRun_idle {s : State} (h : s.seq = .idle) (n : Nat) : sequencerRun n s = .next s := by
  induction n with
  | zero => rfl
  | succ n ih => rw [sequencerRun_succ_next n (sequencerStep_idle h), ih]

section
variable {c : Instr} {p : Phase} {ps : List Phase} {s : State}

/-- R240: a phase that raises ends the command, and the steps that are left find the sequencer IDLE. -/
theorem sequencerRun_raise {x : HwFault} (n : Nat) (h : AtPhase c p ps s)
    (hx : phaseFn p s.env s.dp = .error (.raise x)) : sequencerRun (n + 1) s = .next (faultEntry x s) := by
  rw [sequencerRun_succ_next n (sequencerStep_raise h hx), sequencerRun_idle (faultEntry_seq x s)]

theorem sequencerRun_stuck {x : Fault} (n : Nat) (h : AtPhase c p ps s)
    (hx : phaseFn p s.env s.dp = .error (.stuck x)) : sequencerRun (n + 1) s = .fault x := by
  simp [sequencerRun, sequencerStep_stuck h hx]

end

/-- R129: from the phase `p` on, the sequencer does phase by phase what `runPhases` does. -/
theorem sequencerRun_eq_runPhases {c : Instr} (ps : List Phase) :
    ∀ {pre : List Phase} {p : Phase} {s : State}, phasesOf c = pre ++ p :: ps → AtPhase c p ps s →
      sequencerRun (ps.length + 1) s = runPhases c ((p :: ps).map fun q => (q, phaseFn q)) s := by
  induction ps with
  | nil =>
    intro pre p s _ hat
    cases hf : phaseFn p s.env s.dp with
    | ok d => simp [sequencerRun, sequencerStep_last hat hf, runPhases, hf]
    | error x =>
      cases x with
      | raise x => simp [sequencerRun_raise _ hat hf, runPhases, hf]
      | stuck x => simp [sequencerRun_stuck _ hat hf, runPhases, hf]
  | cons q qs ih =>
    intro pre p s hph hat
    cases hf : phaseFn p s.env s.dp with
    | ok d =>
      have hph' : phasesOf c = (pre ++ [p]) ++ q :: qs := by simp [hph]
      have hat' : AtPhase c q qs (endPhase p (q :: qs) d s) := ⟨rfl, hat.opl, phasesAfter_phasesOf hph'⟩
      rw [List.length_cons, sequencerRun_succ_next _ (sequencerStep_more hat hf), ih hph' hat']
      simp [runPhases, hf, Function.comp_def]
    | error x =>
      cases x with
      | raise x => simp [sequencerRun_raise _ hat hf, runPhases, hf]
      | stuck x => simp [sequencerRun_stuck _ hat hf, runPhases, hf]

/-! ### A command in phase steps -/

/-- R120: what an idle core makes of a command. It is settled at once with the sequencer IDLE, or it is accepted. -/
theorem offer_cases (c : Instr) {s : State} (h : s.seq = .idle) :
    (∃ t, offer c s = .inl t ∧ t.seq = .idle) ∨ offer c s = .inr (accept c s) := by
  unfold offer
  split
  · exact .inl ⟨drop s, rfl, h⟩
  · split
    · exact .inl ⟨drop s, rfl, h⟩
    · split
      · exact .inr rfl
      · exact .inl ⟨faultEntry .illegalCommand s, rfl, rfl⟩

section
variable {c : Instr} {s : State} (hc : operational c = true)
include hc

/-- R122, R129: every operational command has a first phase. -/
theorem phasesOf_operational : ∃ p ps, phasesOf c = p :: ps := by
  cases c with
  | nop | ack => cases hc
  | _ => exact ⟨_, _, rfl⟩

/-- In phase steps the write of CMD ends where R120 settles the command or accepts it. -/
theorem startCommand_operational (s : State) : startCommand c s = (offer c s).elim id id := by
  cases c with
  | nop | ack => cases hc
  | _ => simp only [startCommand]; cases offer _ s <;> rfl

theorem sequencerRun_startCommand (hs : s.seq = .idle) :
    sequencerRun (phasesOf c).length (startCommand c s) = exec c s := by
  rw [exec_eq_command hc, startCommand_operational hc, command]
  rcases offer_cases c hs with ⟨t, ho, ht⟩ | ho
  · rw [ho]
    exact sequencerRun_idle ht _
  · obtain ⟨p, ps, hp⟩ := phasesOf_operational hc
    rw [ho, hp]
    exact sequencerRun_eq_runPhases ps (pre := []) hp (atPhase_accept s hp)

end

/-- Settles O48. NOP and ACK have no phases, so `startCommand` is all of them; every other command is run by the sequencer
phase by phase as by `exec`. -/
theorem phaseStepsEqualOneStep : Obligations.PhaseStepsEqualOneStep := by
  intro i s _ hs
  cases ho : operational i with
  | true => exact sequencerRun_startCommand ho hs
  | false =>
    cases i with
    | nop => rfl
    | ack => rfl
    | _ => cases ho

end Sys2Proof.Machine

/-!
PROOFS. O51. Every step is the host's access, the acceptance of a command, or one step of the sequencer; a command in one step
is the same as in phase steps (O48), so an invariant need only be shown of the single moves (`StepInvariant`).
-/

namespace Sys2Proof.Machine

/-! ### What a step is made of -/

theorem phasesAfter_singleton {p q : Phase} {ps : List Phase} (h : phasesAfter p [q] = some ps) : q = p ∧ ps = [] := by
  by_cases hq : q = p
  · rw [phasesAfter, if_pos hq] at h
    exact ⟨hq, (Option.some.inj h).symm⟩
  · rw [phasesAfter, if_neg hq] at h
    cases h

/-- R129: a phase of a command with another one behind it: the four of ENCODE and the one of DECODE. -/
theorem phasesAfter_more {c : Instr} {p q : Phase} {qs : List Phase}
    (h : phasesAfter p (phasesOf c) = some (q :: qs)) :
    (c = .encode ∧ p = .freq ∧ q = .build) ∨ (c = .encode ∧ p = .build ∧ q = .assign) ∨
    (c = .encode ∧ p = .assign ∧ q = .wrhdr) ∨ (c = .encode ∧ p = .wrhdr ∧ q = .pack) ∨
    (c = .decode ∧ p = .rdhdr ∧ q = .dwalk) := by
  cases c with
  | nop | ack => cases h
  | encode | decode => cases p <;> cases h <;> simp
  | _ => cases (phasesAfter_singleton h).2

/-- R129: the last phase of a command: its only one, PACK of ENCODE, or DWALK of DECODE. -/
theorem phasesAfter_last {c : Instr} {p : Phase} (h : phasesAfter p (phasesOf c) = some []) :
    phasesOf c = [p] ∨ (c = .encode ∧ p = .pack) ∨ (c = .decode ∧ p = .dwalk) := by
  cases c with
  | nop | ack => cases h
  | encode | decode =>
    cases p <;> cases h
    simp
  | _ =>
    obtain ⟨rfl, -⟩ := phasesAfter_singleton h
    exact .inl rfl

theorem mem_of_phasesAfter {p : Phase} {l ps : List Phase} (h : phasesAfter p l = some ps) : p ∈ l := by
  induction l with
  | nil => cases h
  | cons q qs ih =>
    by_cases hq : q = p
    · exact hq ▸ List.mem_cons_self
    · rw [phasesAfter, if_neg hq] at h
      exact List.mem_cons_of_mem _ (ih h)

theorem next_mem_of_phasesAfter {p q : Phase} {l qs : List Phase} (h : phasesAfter p l = some (q :: qs)) : q ∈ l := by
  induction l with
  | nil => cases h
  | cons r rs ih =>
    by_cases hr : r = p
    · rw [phasesAfter, if_pos hr, Option.some.injEq] at h
      simp [h]
    · rw [phasesAfter, if_neg hr] at h
      exact List.mem_cons_of_mem _ (ih h)

/-- R27, R129: everything the sequencer can do that answers a next state. -/
theorem sequencerStep_cases {s t : State} (h : sequencerStep s = .next t) :
    (s.seq = .idle ∧ t = s) ∨
    ∃ c p, (∃ x, t = faultEntry x s) ∨
      (∃ d, AtPhase c p [] s ∧ phaseFn p s.env s.dp = .ok d ∧ t = complete c (endPhase p [] d s)) ∨
      (∃ d q qs, AtPhase c p (q :: qs) s ∧ phaseFn p s.env s.dp = .ok d ∧ t = endPhase p (q :: qs) d s) := by
  cases hs : s.seq with
  | idle => rw [sequencerStep_idle hs] at h; cases h; exact .inl ⟨rfl, rfl⟩
  | run p =>
    refine .inr ?_
    cases hc : Instr.ofOpcode s.opl with
    | none => simp [sequencerStep, hs, hc] at h
    | some c =>
      cases hp : phasesAfter p (phasesOf c) with
      | none => simp [sequencerStep, hs, hc, hp] at h
      | some ps =>
        have hat : AtPhase c p ps s := ⟨hs, hc, hp⟩
        refine ⟨c, p, ?_⟩
        cases hf : phaseFn p s.env s.dp with
        | error x =>
          cases x with
          | raise x => rw [sequencerStep_raise hat hf] at h; cases h; exact .inl ⟨x, rfl⟩
          | stuck x => rw [sequencerStep_stuck hat hf] at h; cases h
        | ok d =>
          cases ps with
          | nil => rw [sequencerStep_last hat hf] at h; cases h; exact .inr (.inl ⟨d, hat, rfl, rfl⟩)
          | cons q qs => rw [sequencerStep_more hat hf] at h; cases h; exact .inr (.inr ⟨d, q, qs, hat, rfl, rfl⟩)

/-- R120: everything that can come of a write of CMD before a phase runs. -/
theorem startCommand_cases (c : Instr) (s : State) :
    startCommand c s = s ∨ startCommand c s = drop s ∨ startCommand c s = faultEntry .illegalCommand s ∨
    startCommand c s = { s with status := { s.status with done := false, dropped := false } } ∨
    (operational c = true ∧ s.status.busy = false ∧ (s.status.err = true → c = .clr) ∧ prerequisite c s = true ∧
      startCommand c s = accept c s) := by
  cases ho : operational c with
  | false =>
    cases c with
    | nop => unfold startCommand nopWritten; dsimp only; split <;> simp
    | ack => unfold startCommand ackWritten; dsimp only; split <;> simp
    | _ => cases ho
  | true =>
    rw [startCommand_operational ho]
    unfold offer
    split
    · exact .inr (.inl rfl)
    · next hb =>
      split
      · exact .inr (.inl rfl)
      · next he =>
        split
        · next hp =>
          have hclr : s.status.err = true → c = .clr := by
            intro h
            cases c with
            | clr => rfl
            | _ => simp_all [takenInFault, operational]
          exact .inr (.inr (.inr (.inr ⟨rfl, by simpa using hb, hclr, hp, rfl⟩)))
        · exact .inr (.inr (.inl rfl))

/-- A busy core drops every command (R120 step 1). -/
theorem exec_busy (i : Instr) {s : State} (h : s.status.busy = true) : exec i s = .next (drop s) := by
  cases ho : operational i with
  | true => rw [exec_eq_command ho, command_busy h]
  | false =>
    cases i with
    | nop => simp [exec, execNop, nopWritten, h]
    | ack => simp [exec, execAck, ackWritten, h]
    | _ => cases ho

theorem illegalWord_cases (s : State) : illegalWord s = drop s ∨ illegalWord s = faultEntry .illegalCommand s := by
  unfold illegalWord
  split
  · exact .inl rfl
  · split
    · exact .inl rfl
    · exact .inr rfl

/-! ### A predicate that every single move keeps, every step keeps -/

/-- An invariant by its single moves: `P` is kept by each of the moves that steps are made of. -/
structure StepInvariant (P : State → Prop) : Prop where
  /-- R27: an idle core has an idle sequencer. -/
  seq_idle : ∀ s, P s → s.status.busy = false → s.seq = .idle
  /-- The access is taken from the queue. -/
  queue : ∀ s ms, P s → P { s with host := ms }
  /-- A value is put on the read bus. -/
  bus : ∀ s v n, P s → P { s with rdata := v, fresh := n }
  /-- R35. -/
  inLen : ∀ s v, P s → P { s with inLen := v }
  /-- R37. -/
  ie : ∀ s b, P s → P { s with ie := b }
  /-- R49. -/
  inp : ∀ s a b, P s → a < s.inCap → P { s with inp := s.inp.write a b }
  /-- R131. -/
  drop : ∀ s, P s → P (drop s)
  /-- R127. -/
  ack : ∀ s, P s → P { s with status := { s.status with done := false, dropped := false } }
  /-- R240. -/
  fault : ∀ s x, P s → P (faultEntry x s)
  /-- R260. -/
  reset : ∀ s, P s → P (hwReset s)
  /-- R123. -/
  accept : ∀ s c, P s → operational c = true → s.status.busy = false → (s.status.err = true → c = .clr) →
    prerequisite c s = true → P (accept c s)
  /-- R129: a phase ends with another one behind it. -/
  more : ∀ s c p q qs d, P s → AtPhase c p (q :: qs) s → phaseFn p s.env s.dp = .ok d → P (endPhase p (q :: qs) d s)
  /-- R129, R130: the last phase ends. -/
  last : ∀ s c p d, P s → AtPhase c p [] s → phaseFn p s.env s.dp = .ok d → P (complete c (endPhase p [] d s))

namespace StepInvariant

variable {P : State → Prop} (hP : StepInvariant P)
include hP

theorem sequencerStep {s t : State} (hs : P s) (h : sequencerStep s = .next t) : P t := by
  rcases sequencerStep_cases h with ⟨-, rfl⟩ | ⟨c, p, ⟨x, rfl⟩ | ⟨d, hat, hd, rfl⟩ | ⟨d, q, qs, hat, hd, rfl⟩⟩
  · exact hs
  · exact hP.fault s x hs
  · exact hP.last s c p d hs hat hd
  · exact hP.more s c p q qs d hs hat hd

theorem sequencerRun {s t : State} (n : Nat) (hs : P s) (h : sequencerRun n s = .next t) : P t := by
  induction n generalizing s with
  | zero => cases h; exact hs
  | succ n ih =>
    cases hq : Machine.sequencerStep s with
    | next u => exact ih (hP.sequencerStep hs hq) ((sequencerRun_succ_next n hq).symm.trans h)
    | fault x => simp [Machine.sequencerRun, hq] at h
    | refused x => simp [Machine.sequencerRun, hq] at h

theorem startCommand {s : State} (c : Instr) (hs : P s) : P (startCommand c s) := by
  rcases startCommand_cases c s with h | h | h | h | ⟨ho, hb, he, hp, h⟩ <;> rw [h]
  · exact hs
  · exact hP.drop s hs
  · exact hP.fault s _ hs
  · exact hP.ack s hs
  · exact hP.accept s c hs ho hb he hp

/-- A command in one step: dropped by a busy core, and else the same as in phase steps. -/
theorem exec {s t : State} {i : Instr} (hs : P s) (h : exec i s = .next t) : P t := by
  cases hb : s.status.busy with
  | true =>
    rw [exec_busy i hb] at h
    cases h
    exact hP.drop s hs
  | false =>
    rw [← phaseStepsEqualOneStep i s hb (hP.seq_idle s hs hb)] at h
    exact hP.sequencerRun _ (hP.startCommand i hs) h

theorem illegalWord {s : State} (hs : P s) : P (illegalWord s) := by
  rcases illegalWord_cases s with h | h <;> rw [h]
  · exact hP.drop s hs
  · exact hP.fault s _ hs

theorem regWrite {s t : State} {off : Nat} {v : Word} (hs : P s) (h : regWrite off v s = .next t) : P t := by
  unfold Machine.regWrite at h
  split at h
  · cases h
  · split at h
    · cases h
      split
      · exact hP.drop s hs
      · exact hP.inLen s v hs
    · split at h
      · cases h
        split
        · exact hP.drop s hs
        · exact hP.ie s _ hs
      · cases h
        exact hs

theorem regRead {s t : State} {off : Nat} (hs : P s) (h : regRead off s = .next t) : P t := by
  unfold Machine.regRead at h
  split at h
  · cases h
  · split at h
    · cases h
      exact hP.bus s _ _ hs
    · cases h
      exact hP.bus s _ s.fresh hs

theorem inWrite {s t : State} {a : Nat} {b : Byte} (hs : P s) (h : inWrite a b s = .next t) : P t := by
  unfold Machine.inWrite at h
  split at h
  · cases h
  · split at h
    · cases h
    · next ha =>
      cases h
      exact hP.inp s a b hs (Nat.lt_of_not_le ha)

theorem inRead {s t : State} {a : Nat} (hs : P s) (h : inRead a s = .next t) : P t := by
  unfold Machine.inRead at h
  split at h
  · cases h
  · split at h
    · cases h
    · cases h
      exact hP.bus s _ s.fresh hs

theorem outRead {s t : State} {a : Nat} (hs : P s) (h : outRead a s = .next t) : P t := by
  unfold Machine.outRead at h
  split at h
  · cases h
  · split at h
    · cases h
    · cases h
      exact hP.bus s _ s.fresh hs

theorem hostAccess {s t : State} {m : HostMove} (hs : P s) (h : hostAccess m s = .next t) : P t := by
  cases m with
  | regWrite off v => exact hP.regWrite hs h
  | regRead off => exact hP.regRead hs h
  | inWrite a b => exact hP.inWrite hs h
  | inRead a => exact hP.inRead hs h
  | outRead a => exact hP.outRead hs h
  | startCommand w =>
    unfold Machine.hostAccess at h
    dsimp only at h
    split at h
    · cases h
      exact hP.startCommand _ hs
    · cases h
      exact hP.illegalWord hs
  | wait => exact hP.sequencerStep hs h
  | hwReset =>
    cases h
    exact hP.reset s hs

/-- What every single move keeps, every step keeps. -/
theorem step {s t : State} (hs : P s) (h : step s = .next t) : P t := by
  unfold Machine.step at h
  split at h
  · exact hP.sequencerStep hs h
  · next m ms _ =>
    have hq := hP.queue s ms hs
    split at h
    · exact hP.hostAccess hq h
    · split at h
      · exact hP.exec hq h
      · cases h
        exact hP.illegalWord hq

end StepInvariant

/-! ### The control part -/

theorem setAtPhaseEnd_busy (p : Phase) (f : Status) : (setAtPhaseEnd p f).busy = f.busy := by
  cases p <;> rfl

theorem setAtPhaseEnd_done (p : Phase) (f : Status) : (setAtPhaseEnd p f).done = f.done := by
  cases p <;> rfl

theorem setAtPhaseEnd_outValid (p : Phase) (f : Status) : (setAtPhaseEnd p f).outValid = f.outValid := by
  cases p <;> rfl

/-- The only command with the phase CLR is CLR (R129). -/
theorem eq_clr_of_clr_mem {c : Instr} (h : Phase.clr ∈ phasesOf c) : c = .clr := by
  cases c <;> simp [phasesOf] at h ⊢

/-- No phase comes after CLR (R129). -/
theorem ne_clr_of_more {c : Instr} {p q : Phase} {qs : List Phase} (h : phasesAfter p (phasesOf c) = some (q :: qs)) :
    p ≠ .clr := by
  rintro rfl
  obtain rfl := eq_clr_of_clr_mem (mem_of_phasesAfter h)
  cases h

/-- R121, R123: the flags as acceptance leaves them are those the first phase wants. -/
theorem phaseFlagsOk_accept {c : Instr} {p : Phase} {ps : List Phase} {f : Status} (hp : phasesOf c = p :: ps)
    (hn : neededFlag c f = true) :
    phaseFlagsOk p { clearAtAcceptance c f with busy := true, done := false, outValid := false } := by
  cases c <;> cases hp <;> simp_all [phaseFlagsOk, clearAtAcceptance, neededFlag]

/-- R129: the flags as the end of a phase leaves them are those the next phase wants. -/
theorem phaseFlagsOk_more {c : Instr} {p q : Phase} {qs : List Phase} {f : Status}
    (h : phasesAfter p (phasesOf c) = some (q :: qs)) (hf : phaseFlagsOk p f)
    (hd : c = .decode → p = .rdhdr → f.hdrDone = false) : phaseFlagsOk q (setAtPhaseEnd p f) := by
  rcases phasesAfter_more h with ⟨rfl, rfl, rfl⟩ | ⟨rfl, rfl, rfl⟩ | ⟨rfl, rfl, rfl⟩ | ⟨rfl, rfl, rfl⟩ | ⟨rfl, rfl, rfl⟩
  · exact hf
  · exact ⟨rfl, hf.2⟩
  · exact ⟨rfl, hf.2.2⟩
  · exact rfl
  · exact ⟨rfl, hd rfl rfl⟩

/-- R30: the order of the encoder's flags outlasts acceptance. -/
theorem clearAtAcceptance_chain {c : Instr} {f : Status} (ht : f.codeValid = true → f.treeValid = true)
    (hh : f.hdrDone = true → f.codeValid = true) :
    ((clearAtAcceptance c f).codeValid = true → (clearAtAcceptance c f).treeValid = true) ∧
    ((clearAtAcceptance c f).hdrDone = true → (clearAtAcceptance c f).codeValid = true) := by
  cases c <;> simp_all [clearAtAcceptance]

/-- R30: the order of the encoder's flags outlasts the end of a phase. -/
theorem setAtPhaseEnd_chain {p : Phase} {f : Status} (hf : phaseFlagsOk p f)
    (ht : f.codeValid = true → f.treeValid = true) (hh : f.hdrDone = true → f.codeValid = true) :
    ((setAtPhaseEnd p f).codeValid = true → (setAtPhaseEnd p f).treeValid = true) ∧
    ((setAtPhaseEnd p f).hdrDone = true → (setAtPhaseEnd p f).codeValid = true) := by
  cases p <;> simp_all [setAtPhaseEnd, phaseFlagsOk]

/-- R121, R129: what success sets beyond the flag of the last phase is OUT_VALID, after PACK and DWALK. -/
theorem setAtSuccess_last {c : Instr} {p : Phase} {f : Status} (h : phasesAfter p (phasesOf c) = some [])
    (hf : phaseFlagsOk p f) (ht : f.codeValid = true → f.treeValid = true)
    (hh : f.hdrDone = true → f.codeValid = true) :
    setAtSuccess c (setAtPhaseEnd p f) =
      { setAtPhaseEnd p f with outValid := f.outValid || decide (p = .pack ∨ p = .dwalk) } := by
  obtain ⟨busy, done, err, dropped, tree, code, hdr, trie, out⟩ := f
  rcases phasesAfter_last h with h1 | ⟨rfl, rfl⟩ | ⟨rfl, rfl⟩
  · cases c <;> cases h1 <;> simp [setAtSuccess, setAtPhaseEnd]
  · obtain rfl : hdr = true := hf
    obtain rfl : code = true := hh rfl
    obtain rfl : tree = true := ht rfl
    simp [setAtSuccess, setAtPhaseEnd]
  · obtain rfl : trie = true := hf.1
    simp [setAtSuccess, setAtPhaseEnd]

/-- R121, last column: OUT_LEN at success is WP after PACK and DWALK, and 0 after every other last phase. -/
theorem outLenAtSuccess_last {c : Instr} {p : Phase} (d : Datapath) (h : phasesAfter p (phasesOf c) = some []) :
    outLenAtSuccess c d = if p = .pack ∨ p = .dwalk then d.wp else 0 := by
  rcases phasesAfter_last h with h1 | ⟨rfl, rfl⟩ | ⟨rfl, rfl⟩
  · cases c <;> cases h1 <;> rfl
  · rfl
  · rfl

theorem HwFault.code_ne_zero (x : HwFault) : x.code ≠ 0 := by cases x <;> decide

section
variable {s : State} {c : Instr} {p : Phase} {ps : List Phase} {d : Datapath} (h : ControlOk s)
include h

/-- R120 step 2: a phase other than CLR runs with ERR = 0. -/
theorem ControlOk.err_false (hat : AtPhase c p ps s) (hp : p ≠ .clr) : s.status.err = false := by
  cases he : s.status.err with
  | false => rfl
  | true => exact absurd (h.running_err he p hat.seq) hp

theorem ControlOk.busy (hat : AtPhase c p ps s) : s.status.busy = true := by
  cases hb : s.status.busy with
  | true => rfl
  | false => exact absurd (hat.seq.symm.trans (h.seq_busy.2 hb)) (by simp)

/-- R130: STATUS when the last phase of a command has ended. -/
theorem ControlOk.status_last (hat : AtPhase c p [] s) :
    (complete c (endPhase p [] d s)).status =
      { setAtPhaseEnd p s.status with
        busy := false, done := true, err := false
        dropped := if c = .clr then false else s.status.dropped
        outValid := decide (p = .pack ∨ p = .dwalk) } := by
  obtain ⟨hf, ho, -⟩ := h.running_flags p hat.seq
  have hs := setAtSuccess_last hat.after hf h.code_tree h.hdr_code
  rw [ho, Bool.false_or] at hs
  rw [complete_status, endPhase_status, hs]
  by_cases hc : c = .clr
  · simp [hc]
  · have hp : p ≠ .clr := fun hp => hc (eq_clr_of_clr_mem (hp ▸ mem_of_phasesAfter hat.after))
    simp [hc, setAtPhaseEnd_err, setAtPhaseEnd_dropped, h.err_false hat hp]

/-- R34, R130: a command that completes leaves ERRCODE 0. -/
theorem ControlOk.errcode_last (hat : AtPhase c p [] s) : (complete c (endPhase p [] d s)).errcode = 0 := by
  rw [complete_errcode, endPhase_errcode]
  by_cases hc : c = .clr
  · rw [if_pos hc]
  · have hp : p ≠ .clr := fun hp => hc (eq_clr_of_clr_mem (hp ▸ mem_of_phasesAfter hat.after))
    rw [if_neg hc, h.errcode_err, h.err_false hat hp]

end

theorem outLen_last {s : State} {c : Instr} {p : Phase} {d : Datapath} (hat : AtPhase c p [] s) :
    (complete c (endPhase p [] d s)).outLen = if p = .pack ∨ p = .dwalk then d.wp else 0 := by
  rw [complete_outLen, endPhase_dp, outLenAtSuccess_last d hat.after]

theorem controlOk_drop {s : State} (h : ControlOk s) : ControlOk (drop s) :=
  { h with }

theorem controlOk_ack {s : State} (h : ControlOk s) :
    ControlOk { s with status := { s.status with done := false, dropped := false } } :=
  { h with busy_done := fun _ => rfl }

theorem controlOk_faultEntry (x : HwFault) (s : State) : ControlOk (faultEntry x s) where
  seq_busy := by simp
  opl_idle := by simp
  running := by simp
  running_flags := by simp
  running_decode := by simp
  running_err := by simp
  busy_done := by simp
  err_flags := by simp
  errcode_err := by simpa using x.code_ne_zero
  code_tree := by simp
  hdr_code := by simp
  outLen_valid := by simp
  outLen_cap := by simp

theorem controlOk_hwReset (s : State) : ControlOk (hwReset s) where
  seq_busy := by simp [Status.zero]
  opl_idle := by simp
  running := by simp
  running_flags := by simp
  running_decode := by simp
  running_err := by simp
  busy_done := by simp [Status.zero]
  err_flags := by simp [Status.zero]
  errcode_err := by simp [Status.zero]
  code_tree := by simp [Status.zero]
  hdr_code := by simp [Status.zero]
  outLen_valid := by simp
  outLen_cap := by simp

theorem controlOk_accept {s : State} {c : Instr} (h : ControlOk s) (ho : operational c = true)
    (he : s.status.err = true → c = .clr) (hp : prerequisite c s = true) : ControlOk (accept c s) := by
  obtain ⟨p, ps, hc⟩ := phasesOf_operational ho
  obtain ⟨hn, -⟩ : neededFlag c s.status = true ∧ _ := by simpa [prerequisite] using hp
  obtain ⟨hct, hhc⟩ := clearAtAcceptance_chain (c := c) h.code_tree h.hdr_code
  exact {
    seq_busy := by simp [hc]
    opl_idle := by simp [hc]
    running := by simp [hc]
    running_flags := by
      intro q hq
      obtain rfl : p = q := by simpa [hc] using hq
      exact ⟨phaseFlagsOk_accept hc hn, rfl, rfl⟩
    running_decode := by
      intro _ hd
      obtain rfl : c = .decode := by simpa using hd
      rfl
    running_err := by
      intro her q hq
      obtain rfl : c = .clr := he (by simpa [clearAtAcceptance_err] using her)
      simpa [phasesOf, eq_comm] using hq
    busy_done := by simp
    err_flags := by
      intro her
      obtain rfl : c = .clr := he (by simpa [clearAtAcceptance_err] using her)
      simp [clearAtAcceptance]
    errcode_err := by simpa [clearAtAcceptance_err] using h.errcode_err
    code_tree := hct
    hdr_code := hhc
    outLen_valid := by simp
    outLen_cap := by simp }

theorem controlOk_more {s : State} {c : Instr} {p q : Phase} {qs : List Phase} {d : Datapath} (h : ControlOk s)
    (hat : AtPhase c p (q :: qs) s) : ControlOk (endPhase p (q :: qs) d s) := by
  have herr := h.err_false hat (ne_clr_of_more hat.after)
  have hbusy := h.busy hat
  obtain ⟨hf, hov, hol⟩ := h.running_flags p hat.seq
  obtain ⟨hct, hhc⟩ := setAtPhaseEnd_chain hf h.code_tree h.hdr_code
  have hdec : c = .decode → p = .rdhdr → s.status.hdrDone = false := by
    rintro rfl rfl
    exact h.running_decode hat.seq hat.opl
  exact {
    seq_busy := by simp [setAtPhaseEnd_busy, hbusy]
    opl_idle := by simp
    running := by
      intro r hr
      obtain rfl : q = r := by simpa using hr
      exact ⟨c, hat.opl, next_mem_of_phasesAfter hat.after⟩
    running_flags := by
      intro r hr
      obtain rfl : q = r := by simpa using hr
      exact ⟨phaseFlagsOk_more hat.after hf hdec, (setAtPhaseEnd_outValid p _).trans hov, hol⟩
    running_decode := by
      intro hr
      rcases phasesAfter_more hat.after with ⟨-, -, h⟩ | ⟨-, -, h⟩ | ⟨-, -, h⟩ | ⟨-, -, h⟩ | ⟨-, -, h⟩ <;>
        simp [h] at hr
    running_err := by simp [setAtPhaseEnd_err, herr]
    busy_done := by simpa [setAtPhaseEnd_busy, setAtPhaseEnd_done] using h.busy_done
    err_flags := by simp [setAtPhaseEnd_err, herr]
    errcode_err := by simpa [setAtPhaseEnd_err] using h.errcode_err
    code_tree := hct
    hdr_code := hhc
    outLen_valid := by simp [hol]
    outLen_cap := h.outLen_cap }

/-- R28, R68: a command completes legally if the result it reports lies in OUT. -/
theorem controlOk_last {s : State} {c : Instr} {p : Phase} {d : Datapath} (h : ControlOk s)
    (hat : AtPhase c p [] s) (hw : p = .pack ∨ p = .dwalk → d.wp.toNat ≤ s.outCap) :
    ControlOk (complete c (endPhase p [] d s)) := by
  obtain ⟨hf, -, -⟩ := h.running_flags p hat.seq
  obtain ⟨hct, hhc⟩ := setAtPhaseEnd_chain hf h.code_tree h.hdr_code
  have hst := h.status_last (d := d) hat
  have hec := h.errcode_last (d := d) hat
  have hol := outLen_last (d := d) hat
  exact {
    seq_busy := by simp [hst, -complete_status]
    opl_idle := by simp
    running := by simp
    running_flags := by simp
    running_decode := by simp
    running_err := by simp
    busy_done := by simp [hst, -complete_status]
    err_flags := by simp [hst, -complete_status]
    errcode_err := by simp [hst, hec, -complete_status, -complete_errcode]
    code_tree := by simpa [hst, -complete_status] using hct
    hdr_code := by simpa [hst, -complete_status] using hhc
    outLen_valid := by
      rw [hol, hst]
      split
      · next hp => exact fun _ => by simp [hp]
      · simp
    outLen_cap := by
      rw [hol]
      split
      · next hp => exact hw hp
      · simp }

/-! ### The buffers -/

/-- OUT is in canonical form and lists nothing at or above its capacity (R68, R69). -/
structure OutOk (cap : Nat) (m : Memory) : Prop where
  wf : m.wf = true
  bound : ∀ x ∈ m.cells, x.1 < cap

theorem OutOk.write {cap : Nat} {m : Memory} {a : Nat} (v : Byte) (h : OutOk cap m) (ha : a < cap) :
    OutOk cap (m.write a v) where
  wf := m.wf_write a v h.wf
  bound := by
    intro x hx
    rcases mem_insert hx with rfl | hx
    · exact ha
    · exact h.bound x hx

/-- What a phase that puts bytes keeps of the datapath `d0` it began with: OUT stays legal, and TNODE is left alone. -/
structure KeepsBuffers (cap : Nat) (d0 d : Datapath) : Prop where
  out : OutOk cap d0.out → OutOk cap d.out
  tnode : d.tnode = d0.tnode

theorem KeepsBuffers.refl (cap : Nat) (d : Datapath) : KeepsBuffers cap d d := ⟨id, rfl⟩

theorem KeepsBuffers.trans {cap : Nat} {d1 d2 d3 : Datapath} (h1 : KeepsBuffers cap d1 d2)
    (h2 : KeepsBuffers cap d2 d3) : KeepsBuffers cap d1 d3 :=
  ⟨fun h => h2.out (h1.out h), h2.tnode.trans h1.tnode⟩

theorem loop_keepsBuffers {f : Datapath → Except Stop Datapath} {cap n : Nat} {d d' : Datapath}
    (hf : ∀ a b, f a = .ok b → KeepsBuffers cap a b) (h : loop f n d = .ok d') : KeepsBuffers cap d d' :=
  loop_keeps f (fun a b ha hb => ha.trans (hf a b hb)) n d d' (.refl cap d) h

section
variable {e : Env} {d d' : Datapath}

/-- R68: what a successful put8 leaves, its place below OUT_CAP. -/
theorem put8_inv {v : Byte} (h : put8 e v d = .ok d') :
    d.wp.toNat < e.outCap ∧ d' = { d with out := d.out.write d.wp.toNat v, wp := d.wp + 1 } := by
  rcases put8_cases e v d with ⟨hw, hp⟩ | ⟨-, hp⟩ <;> rw [hp] at h <;> cases h
  exact ⟨hw, rfl⟩

theorem put8_keepsBuffers {v : Byte} (h : put8 e v d = .ok d') : KeepsBuffers e.outCap d d' := by
  obtain ⟨hw, rfl⟩ := put8_inv h
  exact ⟨fun ho => ho.write v hw, rfl⟩

/-- R28: after a put WP is at most OUT_CAP. -/
theorem put8_wp_le {v : Byte} (hc : e.outCap < 2 ^ 32) (h : put8 e v d = .ok d') : d'.wp.toNat ≤ e.outCap := by
  obtain ⟨hw, rfl⟩ := put8_inv h
  exact (wp_succ hw hc).trans_le hw

theorem putAll_cons_inv {v : Byte} {vs : List Byte} (h : putAll e (v :: vs) d = .ok d') :
    ∃ d1, put8 e v d = .ok d1 ∧ putAll e vs d1 = .ok d' := by
  cases hp : put8 e v d with
  | ok d1 => exact ⟨d1, rfl, by simpa [putAll, hp] using h⟩
  | error x => simp [putAll, hp] at h

theorem putAll_keepsBuffers {bs : List Byte} (h : putAll e bs d = .ok d') : KeepsBuffers e.outCap d d' := by
  induction bs generalizing d with
  | nil => cases h; exact .refl _ _
  | cons v vs ih =>
    obtain ⟨d1, hp, h⟩ := putAll_cons_inv h
    exact (put8_keepsBuffers hp).trans (ih h)

theorem putAll_wp_le {bs : List Byte} (hc : e.outCap < 2 ^ 32) (hb : bs ≠ []) (h : putAll e bs d = .ok d') :
    d'.wp.toNat ≤ e.outCap := by
  induction bs generalizing d with
  | nil => exact absurd rfl hb
  | cons v vs ih =>
    obtain ⟨d1, hp, h⟩ := putAll_cons_inv h
    cases vs with
    | nil => cases h; exact put8_wp_le hc hp
    | cons w ws => exact ih (by simp) h

theorem pushBit_keepsBuffers {b : Bool} (h : pushBit e b d = .ok d') : KeepsBuffers e.outCap d d' := by
  unfold pushBit at h
  dsimp only at h
  split at h
  · split at h
    · next hp =>
      cases h
      have hk := put8_keepsBuffers hp
      exact ⟨hk.out, hk.tnode⟩
    · cases h
  · cases h
    exact ⟨id, rfl⟩

theorem pushAll_keepsBuffers {bs : List Bool} (h : pushAll e bs d = .ok d') : KeepsBuffers e.outCap d d' := by
  induction bs generalizing d with
  | nil => cases h; exact .refl _ _
  | cons b bs ih =>
    cases hp : pushBit e b d with
    | ok d1 => exact (pushBit_keepsBuffers hp).trans (ih (by simpa [pushAll, hp] using h))
    | error x => simp [pushAll, hp] at h

/-- R175, R176: a byte of the input is coded, and its code is pushed. -/
theorem packByte_inv (h : packByte e d = .ok d') :
    entry d.codeLen (e.inByte d.rp) ≠ 0 ∧
    pushAll e (codeOf ⟨d.codeLen, d.codeVal⟩ (e.inByte d.rp))
      { d with rp := d.rp + 1, csr := entry d.codeVal (e.inByte d.rp), crem := 0 } = .ok d' := by
  unfold packByte at h
  dsimp only at h
  split at h
  · cases h
  · next hl =>
    rw [send_eq] at h
    exact ⟨hl, h⟩

theorem packByte_keepsBuffers (h : packByte e d = .ok d') : KeepsBuffers e.outCap d d' :=
  have hk := pushAll_keepsBuffers (packByte_inv h).2
  ⟨hk.out, hk.tnode⟩

/-- R172: what a successful flush leaves. -/
theorem flush_inv {pad : BitVec 4} (h : flush e d = .ok (pad, d')) :
    (d.nb = 0 ∧ pad = 0 ∧ d' = { d with acc := 0, nb := 0 }) ∨
    (d.nb ≠ 0 ∧ pad = 8 - d.nb ∧ d.wp.toNat < e.outCap ∧
      d' = { d with out := d.out.write d.wp.toNat (d.acc <<< pad.toNat), wp := d.wp + 1, acc := 0, nb := 0 }) := by
  unfold flush at h
  split at h
  · next hn => cases h; exact .inl ⟨hn, rfl, rfl⟩
  · next hn =>
    dsimp only at h
    split at h
    · next hp =>
      obtain ⟨hw, rfl⟩ := put8_inv hp
      cases h
      exact .inr ⟨hn, rfl, hw, rfl⟩
    · cases h

theorem flush_keepsBuffers {pad : BitVec 4} (h : flush e d = .ok (pad, d')) : KeepsBuffers e.outCap d d' := by
  rcases flush_inv h with ⟨-, -, rfl⟩ | ⟨-, -, hw, rfl⟩
  · exact ⟨id, rfl⟩
  · exact ⟨fun ho => ho.write _ hw, rfl⟩

/-- R175: the end of PACK is the flush and the trailer. -/
theorem finishPack_inv (h : finishPack e d = .ok d') :
    ∃ pad d1 d2, flush e d = .ok (pad, d1) ∧ putAll e (le32 (pad.setWidth 32)) d1 = .ok d2 ∧
      d' = { d2 with pad := pad.setWidth 3 } := by
  unfold finishPack at h
  split at h
  · cases h
  · next pad d1 hf =>
    split at h
    · cases h
    · next d2 hp => cases h; exact ⟨pad, d1, d2, hf, hp, rfl⟩

/-- The datapath as PACK begins to read the input (R175). -/
def packStart (d : Datapath) : Datapath := { d with wp := payloadStart d, acc := 0, nb := 0, rp := 0 }

/-- R175: PACK is its loop and its end. -/
theorem phasePack_inv (h : phasePack e d = .ok d') :
    e.inLen ≠ 0 ∧ ∃ d1, loop (packByte e) e.inLen.toNat (packStart d) = .ok d1 ∧ finishPack e d1 = .ok d' := by
  unfold phasePack at h
  split at h
  · cases h
  · next hl =>
    split at h
    · cases h
    · next d1 hd => exact ⟨hl, d1, hd, h⟩

theorem phasePack_keepsBuffers (h : phasePack e d = .ok d') : KeepsBuffers e.outCap d d' := by
  obtain ⟨-, d1, hl, hf⟩ := phasePack_inv h
  obtain ⟨pad, d2, d3, hfl, hp, rfl⟩ := finishPack_inv hf
  have h1 : KeepsBuffers e.outCap (packStart d) d1 := loop_keepsBuffers (fun _ _ => packByte_keepsBuffers) hl
  have h3 := (h1.trans (flush_keepsBuffers hfl)).trans (putAll_keepsBuffers hp)
  exact ⟨h3.out, h3.tnode⟩

theorem phasePack_wp_le (hc : e.outCap < 2 ^ 32) (h : phasePack e d = .ok d') : d'.wp.toNat ≤ e.outCap := by
  obtain ⟨-, d1, -, hf⟩ := phasePack_inv h
  obtain ⟨pad, d2, d3, -, hp, rfl⟩ := finishPack_inv hf
  have hwp : d3.wp.toNat ≤ e.outCap := putAll_wp_le hc (by simp [le32]) hp
  exact hwp

theorem phaseWrhdr_keepsBuffers (h : phaseWrhdr e d = .ok d') : KeepsBuffers e.outCap d d' :=
  have hk := putAll_keepsBuffers h
  ⟨hk.out, hk.tnode⟩

/-- R200, R201: one bit of the walk that stops nowhere: to a record without symbol, or to a leaf whose symbol is put. -/
theorem walkBit_inv (h : walkBit e d = .ok d') :
    ∃ bit rp usr ub bl, (d.tnode.read d.cur).child bit ≠ 0 ∧ ((d.tnode.read d.cur).child bit).toNat < trieCap ∧
      ((d.tnode.read ((d.tnode.read d.cur).child bit)).leaf = false ∧
        d' = { d with rp := rp, usr := usr, ub := ub, bitsLeft := bl
                      cur := (d.tnode.read d.cur).child bit, dstate := .atInternal } ∨
      (d.tnode.read ((d.tnode.read d.cur).child bit)).leaf = true ∧ d.wp.toNat < e.outCap ∧
        d' = { d with rp := rp, usr := usr, ub := ub, bitsLeft := bl
                      out := d.out.write d.wp.toNat (d.tnode.read ((d.tnode.read d.cur).child bit)).sym
                      wp := d.wp + 1, cur := 0, dstate := .atRoot }) := by
  obtain ⟨rp, usr, ub, hb⟩ := nextBit_frame e d
  unfold walkBit at h
  rw [hb] at h
  refine ⟨(nextBit e d).1, rp, usr, ub, d.bitsLeft - 1, ?_⟩
  rcases walkStep_eq e (nextBit e d).1 { d with rp := rp, usr := usr, ub := ub, bitsLeft := d.bitsLeft - 1 } with
    ⟨-, hw⟩ | ⟨-, -, hw⟩ | ⟨h0, hcap, hl, hw⟩ | ⟨h0, hcap, hl, ⟨hlt, hw⟩ | ⟨-, hw⟩⟩
  · rw [hw] at h; cases h
  · rw [hw] at h; cases h
  · rw [hw] at h; cases h; exact ⟨h0, hcap, .inl ⟨hl, rfl⟩⟩
  · rw [hw] at h; cases h; exact ⟨h0, hcap, .inr ⟨hl, hlt, rfl⟩⟩
  · rw [hw] at h; cases h

theorem walkBit_keepsBuffers (h : walkBit e d = .ok d') : KeepsBuffers e.outCap d d' := by
  obtain ⟨bit, rp, usr, ub, bl, -, -, ⟨-, rfl⟩ | ⟨-, hw, rfl⟩⟩ := walkBit_inv h
  · exact ⟨id, rfl⟩
  · exact ⟨fun ho => ho.write _ hw, rfl⟩

/-- The datapath as DWALK begins its walk over `n` bits (R200). -/
def walkStart (n : Nat) (d : Datapath) : Datapath :=
  { d with bitsLeft := BitVec.ofNat 35 n, rp := d.dh.setWidth 32, ub := 0, wp := 0, cur := 0, dstate := .atRoot }

/-- R199, R200: DWALK is its walk over at least one bit, which ends at the root. -/
theorem phaseDwalk_inv (h : phaseDwalk e d = .ok d') :
    ∃ n d1 pad, n ≠ 0 ∧ loop (walkBit e) n (walkStart n d) = .ok d1 ∧ d1.cur = 0 ∧ d' = { d1 with pad := pad } := by
  unfold phaseDwalk at h
  split at h
  · cases h
  · dsimp only at h
    split at h
    · cases h
    · split at h
      · cases h
      · next hn =>
        split at h
        · cases h
        · next d1 hd =>
          unfold finishWalk at h
          split at h
          · cases h
          · next hcur =>
            cases h
            exact ⟨_, d1, _, by omega, hd, by simpa using hcur, rfl⟩

theorem phaseDwalk_keepsBuffers (h : phaseDwalk e d = .ok d') : KeepsBuffers e.outCap d d' := by
  obtain ⟨n, d1, pad, -, hl, -, rfl⟩ := phaseDwalk_inv h
  have h1 : KeepsBuffers e.outCap (walkStart n d) d1 := loop_keepsBuffers (fun _ _ => walkBit_keepsBuffers) hl
  exact ⟨h1.out, h1.tnode⟩

theorem walkBit_wp_le (hc : e.outCap < 2 ^ 32) (hd : d.wp.toNat ≤ e.outCap) (h : walkBit e d = .ok d') :
    d'.wp.toNat ≤ e.outCap := by
  obtain ⟨bit, rp, usr, ub, bl, -, -, ⟨-, rfl⟩ | ⟨-, hw, rfl⟩⟩ := walkBit_inv h
  · exact hd
  · exact (wp_succ hw hc).trans_le hw

theorem phaseDwalk_wp_le (hc : e.outCap < 2 ^ 32) (h : phaseDwalk e d = .ok d') : d'.wp.toNat ≤ e.outCap := by
  obtain ⟨n, d1, pad, -, hl, -, rfl⟩ := phaseDwalk_inv h
  exact loop_keeps (P := fun d => d.wp.toNat ≤ e.outCap) (walkBit e) (fun _ _ => walkBit_wp_le hc) n (walkStart n d) d1
    (Nat.zero_le _) hl

end

/-! ### TNODE stays in canonical form -/

theorem grow_wf {t : Trie} (c : TrieIdx) (bit : Bool) (h : t.mem.wf = true) : (t.grow c bit).mem.wf = true :=
  TrieMem.wf_write _ _ _ (TrieMem.wf_write _ _ _ h)

theorem descend_wf {val : Word} {k : Nat} {c c' : TrieIdx} {t t' : Trie} (ht : t.mem.wf = true)
    (h : Trie.descend val k c t = .ok (c', t')) : t'.mem.wf = true := by
  induction k generalizing c t with
  | zero => cases h; exact ht
  | succ k ih =>
    rw [descend_succ] at h
    split at h
    · cases h
    · split at h
      · exact ih (grow_wf c _ ht) h
      · exact ih ht h

/-- R194, R195: a successful insertion: the descent, then the symbol at a record without child. -/
theorem insert_inv {t t' : Trie} {sym : Byte} {len : Nat} {val : Word} (h : t.insert sym len val = .ok t') :
    ∃ c t1, Trie.descend val len 0 t = .ok (c, t1) ∧
      t' = { t1 with mem := t1.mem.write c { t1.mem.read c with leaf := true, sym := sym } } := by
  unfold Trie.insert at h
  split at h
  · cases h
  · next c t1 hd =>
    dsimp only at h
    split at h
    · cases h
    · split at h
      · cases h
      · cases h; exact ⟨c, t1, hd, rfl⟩

/-- R193: an entry that is read is inserted with a length of 1 to 32. -/
theorem readEntry_inv {m : Memory} {o : Nat} {t t' : Trie} (h : readEntry m o t = .ok t') :
    ∃ sym len val, len ≤ 32 ∧ t.insert sym len val = .ok t' := by
  unfold readEntry at h
  dsimp only at h
  split at h
  · cases h
  · split at h
    · cases h
    · exact ⟨_, _, _, by omega, h⟩

theorem readEntry_wf {m : Memory} {o : Nat} {t t' : Trie} (ht : t.mem.wf = true) (h : readEntry m o t = .ok t') :
    t'.mem.wf = true := by
  obtain ⟨sym, len, val, -, hi⟩ := readEntry_inv h
  obtain ⟨c, t1, hd, rfl⟩ := insert_inv hi
  exact TrieMem.wf_write _ _ _ (descend_wf ht hd)

theorem readEntries_succ_inv {m : Memory} {n o : Nat} {t t' : Trie} (h : readEntries m (n + 1) o t = .ok t') :
    ∃ t1, readEntry m o t = .ok t1 ∧ readEntries m n (o + 9) t1 = .ok t' := by
  cases hr : readEntry m o t with
  | ok t1 => exact ⟨t1, rfl, by simpa [readEntries, hr] using h⟩
  | error x => simp [readEntries, hr] at h

theorem readEntries_wf {m : Memory} {n o : Nat} {t t' : Trie} (ht : t.mem.wf = true)
    (h : readEntries m n o t = .ok t') : t'.mem.wf = true := by
  induction n generalizing o t with
  | zero => cases h; exact ht
  | succ n ih =>
    obtain ⟨t1, hr, h⟩ := readEntries_succ_inv h
    exact ih (readEntry_wf ht hr) h

/-- R191, R192: a header that is read has 1 to 256 entries, all of which are inserted. -/
theorem readHeader_inv {e : Env} {old : TrieMem} {a : Nat} {t : Trie} (h : readHeader e old = .ok (a, t)) :
    a ≤ 256 ∧ readEntries e.inp a 4 (Trie.root old) = .ok t := by
  unfold readHeader at h
  split at h
  · cases h
  · dsimp only at h
    split at h
    · cases h
    · split at h
      · cases h
      · split at h
        · next hr => cases h; exact ⟨by omega, hr⟩
        · cases h

theorem readHeader_wf {e : Env} {old : TrieMem} {a : Nat} {t : Trie} (ho : old.wf = true)
    (h : readHeader e old = .ok (a, t)) : t.mem.wf = true :=
  readEntries_wf (t := Trie.root old) (TrieMem.wf_write _ _ _ ho) (readHeader_inv h).2

/-- R191: RDHDR is the reading of the header. -/
theorem phaseRdhdr_inv {e : Env} {d d' : Datapath} (h : phaseRdhdr e d = .ok d') :
    ∃ a t, readHeader e d.tnode = .ok (a, t) ∧
      d' = { d with tnode := t.mem, tnn := t.tnn, da := BitVec.ofNat 9 a, dh := BitVec.ofNat 12 (4 + 9 * a) } := by
  unfold phaseRdhdr at h
  split at h
  · cases h
  · next a t hr => cases h; exact ⟨a, t, hr, rfl⟩

theorem phaseBuild_inv {e : Env} {d d' : Datapath} (h : phaseBuild e d = .ok d') :
    ∃ t, buildTree d.freq = .ok t ∧
      d' = { d with node := t.node, nsyms := t.nsyms, nnodes := t.nnodes, root := t.root, pq := [] } := by
  unfold phaseBuild at h
  split at h
  · cases h
  · next t ht => cases h; exact ⟨t, ht, rfl⟩

theorem phaseAssign_inv {e : Env} {d d' : Datapath} (h : phaseAssign e d = .ok d') :
    ∃ c, assignCodes d.node d.root = .ok c ∧ d' = { d with codeLen := c.len, codeVal := c.val, stack := [] } := by
  unfold phaseAssign at h
  split at h
  · cases h
  · next c hc => cases h; exact ⟨c, hc, rfl⟩

theorem phaseFreq_inv {e : Env} {d d' : Datapath} (h : phaseFreq e d = .ok d') :
    d' = { d with freq := countTable ((List.range e.inLen.toNat).map e.inp.read), rp := e.inLen } := by
  by_cases hl : e.inLen = 0
  · rw [phaseFreq_empty d hl] at h; cases h
  · rw [phaseFreq_ok d hl] at h; cases h; rfl

/-- R68, R69, R44: what every phase keeps of OUT and TNODE. -/
theorem phaseFn_keeps_buffers {p : Phase} {e : Env} {d d' : Datapath} (h : phaseFn p e d = .ok d')
    (ho : OutOk e.outCap d.out) (ht : d.tnode.wf = true) : OutOk e.outCap d'.out ∧ d'.tnode.wf = true := by
  have of_keeps (hk : KeepsBuffers e.outCap d d') : OutOk e.outCap d'.out ∧ d'.tnode.wf = true :=
    ⟨hk.out ho, hk.tnode ▸ ht⟩
  cases p with
  | clr => cases h; exact ⟨ho, ht⟩
  | freq => obtain rfl := phaseFreq_inv h; exact ⟨ho, ht⟩
  | build => obtain ⟨t, -, rfl⟩ := phaseBuild_inv (e := e) h; exact ⟨ho, ht⟩
  | assign => obtain ⟨c, -, rfl⟩ := phaseAssign_inv (e := e) h; exact ⟨ho, ht⟩
  | wrhdr => exact of_keeps (phaseWrhdr_keepsBuffers h)
  | pack => exact of_keeps (phasePack_keepsBuffers h)
  | rdhdr => obtain ⟨a, t, hr, rfl⟩ := phaseRdhdr_inv h; exact ⟨ho, readHeader_wf ht hr⟩
  | dwalk => exact of_keeps (phaseDwalk_keepsBuffers h)

/-- R28, R68: the result of PACK and of DWALK lies in OUT. -/
theorem phaseFn_wp_le {p : Phase} {e : Env} {d d' : Datapath} (hc : e.outCap < 2 ^ 32) (h : phaseFn p e d = .ok d')
    (hp : p = .pack ∨ p = .dwalk) : d'.wp.toNat ≤ e.outCap := by
  rcases hp with rfl | rfl
  · exact phasePack_wp_le hc h
  · exact phaseDwalk_wp_le hc h

/-- Everything but the datapath being kept, the buffers stay legal through a phase. -/
theorem BuffersOk.phase {s t : State} {p : Phase} {d : Datapath} (h : BuffersOk s)
    (hd : phaseFn p s.env s.dp = .ok d) (hdp : t.dp = d) (hinp : t.inp = s.inp) (hin : t.inCap = s.inCap)
    (hout : t.outCap = s.outCap) : BuffersOk t := by
  subst hdp
  obtain ⟨ho, ht⟩ := phaseFn_keeps_buffers hd ⟨h.out_wf, h.out_bound⟩ h.tnode_wf
  exact {
    inCap_range := hin ▸ h.inCap_range
    outCap_range := hout ▸ h.outCap_range
    inp_wf := hinp ▸ h.inp_wf
    out_wf := ho.wf
    tnode_wf := ht
    inp_bound := by rw [hinp, hin]; exact h.inp_bound
    out_bound := by rw [hout]; exact ho.bound }

theorem buffersOk_faultEntry {s : State} (x : HwFault) (h : BuffersOk s) : BuffersOk (faultEntry x s) :=
  { h with
    out_wf := Memory.wf_nil _
    tnode_wf := TrieMem.wf_nil _
    out_bound := by simp [Datapath.unspecified] }

theorem buffersOk_hwReset {s : State} (h : BuffersOk s) : BuffersOk (hwReset s) :=
  { h with
    inp_wf := Memory.wf_nil _
    out_wf := Memory.wf_nil _
    tnode_wf := TrieMem.wf_nil _
    inp_bound := by simp
    out_bound := by simp [Datapath.cleared] }

theorem buffersOk_inp_write {s : State} {a : Nat} (b : Byte) (h : BuffersOk s) (ha : a < s.inCap) :
    BuffersOk { s with inp := s.inp.write a b } :=
  have hi := OutOk.write b ⟨h.inp_wf, h.inp_bound⟩ ha
  { h with inp_wf := hi.wf, inp_bound := hi.bound }

/-- Each single move keeps the control part and the buffers legal. -/
theorem stepInvariant_control_buffers : StepInvariant (fun s => ControlOk s ∧ BuffersOk s) where
  seq_idle _ h hb := h.1.seq_busy.2 hb
  queue _ _ h := ⟨{ h.1 with }, { h.2 with }⟩
  bus _ _ _ h := ⟨{ h.1 with }, { h.2 with }⟩
  inLen _ _ h := ⟨{ h.1 with }, { h.2 with }⟩
  ie _ _ h := ⟨{ h.1 with }, { h.2 with }⟩
  inp _ _ b h ha := ⟨{ h.1 with }, buffersOk_inp_write b h.2 ha⟩
  drop _ h := ⟨controlOk_drop h.1, { h.2 with }⟩
  ack _ h := ⟨controlOk_ack h.1, { h.2 with }⟩
  fault s x h := ⟨controlOk_faultEntry x s, buffersOk_faultEntry x h.2⟩
  reset s h := ⟨controlOk_hwReset s, buffersOk_hwReset h.2⟩
  accept _ _ h ho _ he hp := ⟨controlOk_accept h.1 ho he hp, { h.2 with }⟩
  more _ _ _ _ _ _ h hat hd := ⟨controlOk_more h.1 hat, h.2.phase hd rfl rfl rfl rfl⟩
  last _ _ _ _ h hat hd :=
    ⟨controlOk_last h.1 hat (phaseFn_wp_le h.2.outCap_range.2 hd), h.2.phase hd rfl rfl rfl rfl⟩

/-- Settles O51: every single move keeps the two, so every step does. -/
theorem everyStepKeepsControlAndBuffersLegal : Obligations.EveryStepKeepsControlAndBuffersLegal :=
  fun _ _ hc hb h => stepInvariant_control_buffers.step ⟨hc, hb⟩ h

end Sys2Proof.Machine

/-!
PROOFS. O55, O57, O58, O59: the reset values, the STATUS word, the register map, and what host accesses do.
-/

namespace Sys2Proof.Machine

/-! ### Reset -/

/-- R41, R51: after reset every record of NODE is FREE. -/
theorem node_replicate_empty {i : Nat} {r : Node} (h : (Vector.replicate 511 Node.empty)[i]? = some r) :
    r = Node.empty := by
  rw [Vector.getElem?_replicate] at h
  split at h
  · exact (Option.some.inj h).symm
  · cases h

/-- Settles O55: the tables entry by entry, every register as `State.reset` has it. -/
theorem resetValues : Obligations.ResetValues := by
  have hnode : ∀ (i : Nat) (r : Node), State.reset.dp.node[i]? = some r → r = ⟨.free, 0, 0, 0, 0⟩ :=
    fun _ _ => node_replicate_empty
  have htab (b : Byte) : entry State.reset.dp.freq b = 0 ∧ entry State.reset.dp.codeLen b = 0 ∧
      entry State.reset.dp.codeVal b = 0 := by
    simp [State.reset, Datapath.cleared]
  exact ⟨rfl, rfl, rfl, rfl, rfl, rfl, rfl, rfl, htab, hnode, rfl, rfl, rfl, rfl, rfl, rfl, rfl, rfl, rfl, rfl, rfl, rfl,
    rfl, rfl, rfl, rfl, rfl, rfl, rfl⟩

/-! ### The STATUS word -/

/-- A flag's word has the flag at its bit and 0 everywhere else. -/
@[simp] theorem getLsbD_flagBit (b : Bool) (k i : Nat) :
    (flagBit b k).getLsbD i = (decide (i < 32) && b && decide (i = k)) := by
  cases b with
  | false => simp [flagBit]
  | true =>
    have hw : flagBit true k = BitVec.twoPow 32 k := rfl
    rw [hw, BitVec.getLsbD_twoPow, Bool.and_true]
    by_cases hi : i = k
    · simp [hi]
    · simp [hi, Ne.symm hi]

/-- R33: bit `i` of STATUS. -/
theorem getLsbD_toWord (f : Status) (i : Nat) :
    f.toWord.getLsbD i =
      match i with
      | 0 => f.busy | 1 => f.done | 2 => f.err | 3 => f.dropped | 4 => f.treeValid | 5 => f.codeValid
      | 6 => f.hdrDone | 7 => f.trieValid | 8 => f.outValid | _ => false := by
  simp only [Status.toWord, BitVec.getLsbD_or, getLsbD_flagBit]
  rcases Nat.lt_or_ge i 9 with hi | hi
  · interval_cases i <;> simp
  · have hne : ∀ k, k < 9 → i ≠ k := fun k hk => by omega
    simp [hne]

/-- Settles O57: bit by bit. -/
theorem statusWordHasTheFlagsInPlace : Obligations.StatusWordHasTheFlagsInPlace := by
  intro f
  simp only [getLsbD_toWord, true_and]
  apply BitVec.eq_of_getLsbD_eq
  intro i hi
  rw [BitVec.getLsbD_extractLsb', getLsbD_toWord]
  split <;> simp <;> omega

/-! ### The register map -/

/-- R37: the word of CTRL. -/
theorem flagBit_zero (b : Bool) : flagBit b 0 = if b then 1 else 0 := rfl

/-- R48: entry `b` of a table, in its window. -/
theorem tableWindow_entry {w : Nat} (t : Vector (BitVec w) 256) (b : Byte) :
    tableWindow t b.toNat = (entry t b).setWidth 32 := by
  simp [tableWindow, entry, Vector.getElem?_eq_getElem b.isLt]

section
variable (s : State)

theorem regValue_reserved {off : Nat} (h1 : 0x28 ≤ off) (h2 : off < 0x400) : regValue s off = 0 := by
  simp only [regValue]
  rw [if_neg (by omega), if_neg (by omega), if_neg (by omega), if_neg (by omega), if_neg (by omega), if_neg (by omega),
    if_neg (by omega), if_neg (by omega), if_neg (by omega), if_pos h2]

/-- From 0x400 on only the windows are left of the map (R48). -/
theorem regValue_window {off : Nat} (h : 0x400 ≤ off) :
    regValue s off =
      if off < 0x800 then tableWindow s.dp.freq ((off - 0x400) / 4)
      else if off < 0xC00 then tableWindow s.dp.codeLen ((off - 0x800) / 4)
      else if off < 0x1000 then tableWindow s.dp.codeVal ((off - 0xC00) / 4)
      else nodeWindow s.dp.node ((off - 0x1000) / 8) (decide (off % 8 = 4)) := by
  simp only [regValue]
  rw [if_neg (by omega), if_neg (by omega), if_neg (by omega), if_neg (by omega), if_neg (by omega), if_neg (by omega),
    if_neg (by omega), if_neg (by omega), if_neg (by omega), if_neg (by omega)]

theorem regValue_freq (b : Byte) : regValue s (0x400 + 4 * b.toNat) = entry s.dp.freq b := by
  have hb := b.isLt
  have hi : (0x400 + 4 * b.toNat - 0x400) / 4 = b.toNat := by omega
  rw [regValue_window s (by omega), if_pos (by omega), hi, tableWindow_entry, BitVec.setWidth_eq]

theorem regValue_codeLen (b : Byte) : regValue s (0x800 + 4 * b.toNat) = (entry s.dp.codeLen b).setWidth 32 := by
  have hb := b.isLt
  have hi : (0x800 + 4 * b.toNat - 0x800) / 4 = b.toNat := by omega
  rw [regValue_window s (by omega), if_neg (by omega), if_pos (by omega), hi, tableWindow_entry]

theorem regValue_codeVal (b : Byte) : regValue s (0xC00 + 4 * b.toNat) = entry s.dp.codeVal b := by
  have hb := b.isLt
  have hi : (0xC00 + 4 * b.toNat - 0xC00) / 4 = b.toNat := by omega
  rw [regValue_window s (by omega), if_neg (by omega), if_neg (by omega), if_pos (by omega), hi, tableWindow_entry,
    BitVec.setWidth_eq]

/-- R48: from 0x1000 on, the two words of each NODE record. -/
theorem regValue_node {off : Nat} (h : 0x1000 ≤ off) :
    regValue s off = nodeWindow s.dp.node ((off - 0x1000) / 8) (decide (off % 8 = 4)) := by
  rw [regValue_window s (by omega), if_neg (by omega), if_neg (by omega), if_neg (by omega)]

variable {s} {i : Nat} {r : Node} (h : s.dp.node[i]? = some r)
include h

theorem regValue_node_word0 : regValue s (0x1000 + 8 * i) = r.weight := by
  have hi : (0x1000 + 8 * i - 0x1000) / 8 = i := by omega
  rw [regValue_node s (by omega), hi]
  simp [nodeWindow, h]

theorem regValue_node_word1 : regValue s (0x1004 + 8 * i) = r.word1 := by
  have hi : (0x1004 + 8 * i - 0x1000) / 8 = i := by omega
  have h4 : (0x1004 + 8 * i) % 8 = 4 := by omega
  rw [regValue_node s (by omega), hi]
  simp [nodeWindow, h, h4]

end

/-- Past the last record of NODE its window is reserved (R39, R48). -/
theorem regValue_past_node (s : State) {off : Nat} (h : 0x1FF8 ≤ off) : regValue s off = 0 := by
  have hi : s.dp.node[(off - 0x1000) / 8]? = none := Vector.getElem?_eq_none (by omega)
  rw [regValue_node s (by omega), nodeWindow, hi]

/-- R104: the fields of word 1 of a NODE record at their bits. -/
theorem word1_fields (r : Node) :
    r.word1.extractLsb' 28 4 = 0 ∧ r.word1.extractLsb' 26 2 = r.kind.bits ∧ r.word1.extractLsb' 18 8 = r.sym ∧
    r.word1.extractLsb' 9 9 = r.left ∧ r.word1.extractLsb' 0 9 = r.right := by
  unfold Node.word1
  refine ⟨?_, ?_, ?_, ?_, ?_⟩
  · rw [BitVec.extractLsb'_append_eq_of_le (by decide), BitVec.extractLsb'_append_eq_of_le (by decide),
      BitVec.extractLsb'_append_eq_of_le (by decide)]
    rfl
  · rw [BitVec.extractLsb'_append_eq_of_le (by decide), BitVec.extractLsb'_append_eq_of_le (by decide),
      BitVec.extractLsb'_append_eq_of_add_le (by decide), BitVec.extractLsb'_eq_self]
  · rw [BitVec.extractLsb'_append_eq_of_le (by decide), BitVec.extractLsb'_append_eq_of_add_le (by decide),
      BitVec.extractLsb'_eq_self]
  · rw [BitVec.extractLsb'_append_eq_of_add_le (by decide), BitVec.extractLsb'_append_eq_left]
  · rw [BitVec.extractLsb'_append_eq_of_add_le (by decide), BitVec.extractLsb'_append_eq_of_add_le (by decide),
      BitVec.extractLsb'_eq_self]

/-- Settles O58, row by row of the map. -/
theorem registersReadAsTheMapSays : Obligations.RegistersReadAsTheMapSays := by
  intro s
  refine ⟨rfl, fun hb => ?_, rfl, rfl, rfl, rfl, rfl, rfl, rfl, rfl, fun _ => regValue_reserved s,
    fun b => ⟨regValue_freq s b, regValue_codeLen s b, regValue_codeVal s b⟩, fun i r h => ?_,
    fun _ h _ => regValue_past_node s h⟩
  · rw [regValue_status, shownStatus_idle hb]
  · obtain ⟨hz, hk, hs, hl, hr⟩ := word1_fields r
    rw [regValue_node_word0 h, regValue_node_word1 h]
    exact ⟨rfl, hz, by rw [hk]; cases r.kind <;> rfl, hs, hl, hr⟩

/-! ### Host accesses -/

/-- R31: a pending read of REG is the next step. -/
theorem step_regRead {s : State} {ms : List HostMove} {off : Nat} (h : s.host = .regRead off :: ms) :
    step s = regRead off { s with host := ms } := by
  simp [step, h, commandWord, hostAccess]

/-- R48: a read that is exact, at all times or because BUSY = 0, gives the register's value. -/
theorem regRead_exact {s : State} {off : Nat} (hok : regOffsetOk off = true)
    (hex : (s.status.busy && inexactWhileBusy off) = false) :
    regRead off s = .next { s with rdata := regValue s off } := by
  simp [regRead, hok, hex]

/-- R121: a second acceptance would clear nothing more. -/
theorem clearAtAcceptance_accept (i : Instr) (s : State) :
    clearAtAcceptance i (accept i s).status = (accept i s).status := by
  cases i <;> rfl

/-- R121, R129: the flags that the phases of a command set are among those it cleared at acceptance. -/
theorem clearAtAcceptance_setAtPhaseEnd {i : Instr} {p : Phase} (f : Status) (h : p ∈ phasesOf i) :
    clearAtAcceptance i (setAtPhaseEnd p f) = clearAtAcceptance i f := by
  cases i with
  | nop | ack => cases h
  | encode =>
    simp only [phasesOf, List.mem_cons, List.not_mem_nil, or_false] at h
    rcases h with rfl | rfl | rfl | rfl | rfl <;> rfl
  | decode =>
    simp only [phasesOf, List.mem_cons, List.not_mem_nil, or_false] at h
    rcases h with rfl | rfl <;> rfl
  | _ =>
    obtain rfl := List.mem_singleton.1 h
    rfl

theorem complete_busy (c : Instr) (s : State) : (complete c s).status.busy = false := by
  rw [complete_status]
  dsimp only
  split <;> rfl

/-- What the host can see of the command `i`, accepted in `s`, at any time after (R124): it has ended, or its flags are those
of acceptance once more, and IN_LEN and CTRL are as they were. -/
structure UnderWay (i : Instr) (s u : State) : Prop where
  ended : u.status.busy = false → u.seq = .idle
  opl : u.status.busy = true → u.opl = i.opcode
  shown : u.status.busy = true → clearAtAcceptance i u.status = (accept i s).status
  inLen : u.inLen = s.inLen
  ie : u.ie = s.ie

theorem underWay_accept (i : Instr) (s : State) : UnderWay i s (accept i s) :=
  ⟨by simp, fun _ => rfl, fun _ => clearAtAcceptance_accept i s, rfl, rfl⟩

theorem UnderWay.sequencerStep {i : Instr} {s u v : State} (h : UnderWay i s u)
    (hv : sequencerStep u = .next v) : UnderWay i s v := by
  rcases sequencerStep_cases hv with ⟨-, rfl⟩ | ⟨c, p, ⟨x, rfl⟩ | ⟨d, hat, hd, rfl⟩ | ⟨d, q, qs, hat, hd, rfl⟩⟩
  · exact h
  · exact ⟨by simp, by simp, by simp, h.inLen, h.ie⟩
  · have hbusy : ¬ (complete c (endPhase p [] d u)).status.busy = true := by simp [complete_busy, -complete_status]
    exact ⟨fun _ => rfl, fun hb => absurd hb hbusy, fun hb => absurd hb hbusy, h.inLen, h.ie⟩
  · have hbusy : u.status.busy = true := by
      cases hb : u.status.busy with
      | true => rfl
      | false => exact absurd (hat.seq.symm.trans (h.ended hb)) (by simp)
    have hci : c = i := by
      have := hat.opl
      rw [h.opl hbusy, ofOpcode_opcode] at this
      exact (Option.some.inj this).symm
    subst hci
    exact ⟨by simp [setAtPhaseEnd_busy, hbusy], fun _ => h.opl hbusy,
      fun _ => (clearAtAcceptance_setAtPhaseEnd _ (mem_of_phasesAfter hat.after)).trans (h.shown hbusy), h.inLen, h.ie⟩

theorem UnderWay.sequencerRun {i : Instr} {s u v : State} (n : Nat) (h : UnderWay i s u)
    (hv : sequencerRun n u = .next v) : UnderWay i s v := by
  induction n generalizing u with
  | zero => cases hv; exact h
  | succ n ih =>
    cases hq : Machine.sequencerStep u with
    | next w => exact ih (h.sequencerStep hq) ((sequencerRun_succ_next n hq).symm.trans hv)
    | fault x => simp [Machine.sequencerRun, hq] at hv
    | refused x => simp [Machine.sequencerRun, hq] at hv

/-- R120 step 7: an idle core whose prerequisites are met accepts. -/
theorem startCommand_accepted {i : Instr} {s : State} (ho : operational i = true) (hb : s.status.busy = false)
    (he : s.status.err = false ∨ i = .clr) (hp : prerequisite i s = true) : startCommand i s = accept i s := by
  have hd : (s.status.err && !takenInFault i) = false := by
    rcases he with he | rfl
    · simp [he]
    · simp [takenInFault]
  simp [startCommand_operational ho, offer, hb, hd, hp]

/-- Settles O59: exact reads go through `regRead_exact`; while a command is under way, `UnderWay` says what is shown. -/
theorem hostAccessesAreExact : Obligations.HostAccessesAreExact := by
  refine ⟨fun s ms off hm h4 hoff => ?_, fun i s ho hb he hp n u hu hub => ?_, fun s ms hb => ⟨?_, ?_, ?_, ?_⟩⟩
  · rw [step_regRead hm]
    have hlt : off < 0x2000 ∧ inexactWhileBusy off = false := by
      simp only [List.mem_cons, List.not_mem_nil, or_false] at hoff
      simp only [inexactWhileBusy, Bool.or_eq_false_iff, Bool.and_eq_false_iff, decide_eq_false_iff_not]
      omega
    exact regRead_exact (by simp [regOffsetOk, hlt.1, h4]) (by simp [hlt.2])
  · rw [startCommand_accepted ho hb he hp] at hu ⊢
    have h := (underWay_accept i s).sequencerRun n hu
    have hopl : Instr.ofOpcode u.opl = some i := by rw [h.opl hub, ofOpcode_opcode]
    refine ⟨?_, h.inLen, ?_⟩
    · rw [regValue_status, shownStatus_busy hub hopl, h.shown hub]
    · rw [← h.ie]
      rfl
  · intro off hm hlt h4
    rw [step_regRead hm]
    exact regRead_exact (by simp [regOffsetOk, hlt, h4]) (by simp [hb])
  · intro a b hm ha
    refine ⟨s.inp.write a b, ?_, Memory.read_write_self _ _ _, fun a' => Memory.read_write_other _ _⟩
    simp [step, hm, commandWord, hostAccess, inWrite, hb, ha]
  · intro a hm ha
    simp [step, hm, commandWord, hostAccess, inRead, hb, ha]
  · intro a hm ha
    simp [step, hm, commandWord, hostAccess, outRead, hb, ha]

end Sys2Proof.Machine

/-!
PROOFS. The tree of BUILD and the codes of ASSIGN: the leaves hold the alphabet in ascending order (R145), every merge keeps every
leaf below a member of PQ (R144), so the walk of ASSIGN from the root gives a code to the alphabet and to nothing else (R166).
-/

namespace Sys2Proof.Machine

/-! ### Records of NODE -/

theorem nodeAt_ofNat (t : NodeTable) {k : Nat} (hk : k < 511) : nodeAt t (BitVec.ofNat 9 k) = t[k]? := by
  have hmod : k % 2 ^ 9 = k := by omega
  rw [nodeAt, BitVec.toNat_ofNat, hmod]

theorem lt_of_node {t : NodeTable} {j : Nat} {r : Node} (h : t[j]? = some r) : j < 511 := by
  by_contra hj
  rw [Vector.getElem?_eq_none (by omega)] at h
  cases h

/-! ### The leaves -/

theorem mem_alphabet {freq : WordTable} {b : Byte} : b ∈ alphabet freq ↔ entry freq b ≠ 0 := by
  simp only [alphabet, List.mem_filter, List.mem_map, List.mem_range, decide_eq_true_eq]
  exact ⟨And.right, fun h => ⟨⟨b.toNat, b.isLt, by simp⟩, h⟩⟩

theorem alphabet_length_le (freq : WordTable) : (alphabet freq).length ≤ 256 := by
  simpa [alphabet] using List.length_filter_le (fun s => decide (entry freq s ≠ 0)) ((List.range 256).map (BitVec.ofNat 8))

/-- R145: the leaf of the symbol `b`. -/
def leafOf (freq : WordTable) (b : Byte) : Node := ⟨.leaf, b, entry freq b, 0, 0⟩

/-- The builder of R144 before anything is given out. -/
def Builder.empty : Builder := ⟨Vector.replicate 511 Node.empty, [], 0⟩

/-- The records `rs` given out one after the other. -/
def Builder.allocAll (b : Builder) (rs : List Node) : Builder := rs.foldl Builder.alloc b

theorem toList_eq_map_entry {α : Type} (t : Vector α 256) :
    t.toList = (List.range 256).map fun i => entry t (BitVec.ofNat 8 i) := by
  apply List.ext_getElem
  · simp
  · intro i h1 h2
    have hi : i < 256 := by simpa using h1
    simp [entry, Nat.mod_eq_of_lt hi]

theorem toList_zipIdx (freq : WordTable) :
    freq.toList.zipIdx = (List.range 256).map (fun i => (entry freq (BitVec.ofNat 8 i), i)) := by
  rw [toList_eq_map_entry, List.zipIdx_map]
  apply List.ext_getElem
  · simp
  · intro i h1 h2
    simp

/-- R145: the leaves are those of the alphabet, in ascending order. -/
theorem buildLeaves_eq (freq : WordTable) :
    buildLeaves freq = Builder.empty.allocAll ((alphabet freq).map (leafOf freq)) := by
  have key (ns : List Nat) (b : Builder) :
      (ns.map fun i => (entry freq (BitVec.ofNat 8 i), i)).foldl (fun b ws => addLeaf b ws.1 ws.2) b =
        b.allocAll (((ns.map (BitVec.ofNat 8)).filter fun s => entry freq s ≠ 0).map (leafOf freq)) := by
    induction ns generalizing b with
    | nil => rfl
    | cons n ns ih =>
      rw [List.map_cons, List.foldl_cons, ih, List.map_cons, List.filter_cons]
      by_cases hn : entry freq (BitVec.ofNat 8 n) = 0
      · rw [addLeaf, if_pos hn, if_neg (by simpa using hn)]
      · rw [addLeaf, if_neg hn, if_pos (by simpa using hn)]
        rfl
  rw [buildLeaves, toList_zipIdx]
  exact key _ _

theorem allocAll_k (b : Builder) (rs : List Node) : (b.allocAll rs).k = b.k + rs.length := by
  induction rs generalizing b with
  | nil => rfl
  | cons r rs ih =>
    rw [List.length_cons, Nat.add_comm rs.length, ← Nat.add_assoc]
    exact ih (b.alloc r)

theorem alloc_node (b : Builder) (r : Node) {j : Nat} (hj : j < 511) :
    (b.alloc r).node[j]? = if j = b.k then some r else b.node[j]? := by
  rw [Builder.alloc, Vector.getElem?_setIfInBounds]
  by_cases h : b.k = j
  · subst h; simp [hj]
  · rw [if_neg h, if_neg (Ne.symm h)]

/-- The records given out stand one after the other, and no other record changes. -/
theorem allocAll_node (b : Builder) (rs : List Node) {j : Nat} (hj : j < 511) :
    (b.allocAll rs).node[j]? = if j < b.k then b.node[j]? else (rs[j - b.k]?).or b.node[j]? := by
  induction rs generalizing b with
  | nil => simp [Builder.allocAll]
  | cons r rs ih =>
    have h := ih (b.alloc r)
    rw [alloc_node b r hj] at h
    refine Eq.trans h ?_
    have hk : (b.alloc r).k = b.k + 1 := rfl
    rw [hk]
    rcases Nat.lt_trichotomy j b.k with hlt | rfl | hgt
    · simp [hlt, Nat.lt_succ_of_lt hlt, Nat.ne_of_lt hlt]
    · simp
    · obtain ⟨i, rfl⟩ := Nat.exists_eq_add_of_lt hgt
      have h1 : ¬ b.k + i + 1 < b.k + 1 := by omega
      have h2 : ¬ b.k + i + 1 < b.k := by omega
      have h3 : b.k + i + 1 - b.k = (b.k + i + 1 - (b.k + 1)) + 1 := by omega
      have h4 : ¬ b.k + i + 1 = b.k := by omega
      rw [if_neg h1, if_neg h2, if_neg h4, h3, List.getElem?_cons_succ]

theorem buildLeaves_k (freq : WordTable) : (buildLeaves freq).k = (alphabet freq).length := by
  rw [buildLeaves_eq, allocAll_k]
  simp [Builder.empty]

/-- R145: record `j` is the leaf of the `j`-th symbol of the alphabet, and FREE from there on. -/
theorem buildLeaves_node (freq : WordTable) {j : Nat} (hj : j < 511) :
    (buildLeaves freq).node[j]? = some (((alphabet freq)[j]?.map (leafOf freq)).getD Node.empty) := by
  have h0 : Builder.empty.node[j]? = some Node.empty := by simp [Builder.empty, hj]
  have hk : Builder.empty.k = 0 := rfl
  rw [buildLeaves_eq, allocAll_node _ _ hj, h0, hk, if_neg (Nat.not_lt_zero j), Nat.sub_zero, List.getElem?_map]
  cases (alphabet freq)[j]? <;> rfl

/-! ### The merges -/

/-- A record that is written where a FREE one was stands on no path to a leaf. -/
theorem nodeOnPath_set {t : NodeTable} {k : Nat} {r0 r x : Node} (hk : t[k]? = some r0) (hfree : r0.kind = .free)
    {i : NodeIdx} {p : List Bool} (hp : nodeOnPath t i p = some r) (hl : r.kind = .leaf) :
    nodeOnPath (t.setIfInBounds k x) i p = some r := by
  have hother {i : NodeIdx} {q : Node} (hq : nodeAt t i = some q) (hne : q.kind ≠ .free) :
      nodeAt (t.setIfInBounds k x) i = some q := by
    have hik : k ≠ i.toNat := by
      rintro rfl
      exact hne ((Option.some.inj (hk.symm.trans hq)) ▸ hfree)
    rw [nodeAt, Vector.getElem?_setIfInBounds, if_neg hik]
    exact hq
  induction p generalizing i with
  | nil => exact hother hp (by rw [hl]; decide)
  | cons b p ih =>
    rw [nodeOnPath] at hp
    split at hp
    · next q hq =>
      split at hp
      · next hint =>
        rw [nodeOnPath, hother hq (by rw [hint]; decide)]
        simpa [hint] using ih hp
      · cases hp
    · cases hp

/-- R144: the builder between two merges, over `n` leaves with the symbols `syms`. Every leaf is below a member of PQ. -/
structure Forest (syms : List Byte) (n : Nat) (b : Builder) : Prop where
  count : b.k + b.pq.length = 2 * n
  size : n ≤ 256
  free : ∀ (j : Nat) (r : Node), b.k ≤ j → b.node[j]? = some r → r.kind = .free
  leaf_sym : ∀ (j : Nat) (r : Node), b.node[j]? = some r → r.kind = .leaf → r.sym ∈ syms
  reach : ∀ x ∈ syms, ∃ i ∈ b.pq, ∃ p r, nodeOnPath b.node i p = some r ∧ r.kind = .leaf ∧ r.sym = x

/-- A path from a child is a path from its INTERNAL parent. -/
theorem nodeOnPath_cons {t : NodeTable} {i : NodeIdx} {r0 r : Node} {bit : Bool} {p : List Bool}
    (hi : nodeAt t i = some r0) (hint : r0.kind = .internal) (hp : nodeOnPath t (r0.child bit) p = some r) :
    nodeOnPath t i (bit :: p) = some r := by
  rw [nodeOnPath, hi]
  simpa [hint] using hp

/-- R144, R148: a merge keeps the forest, and puts its new record last in PQ. -/
theorem Forest.merge {syms : List Byte} {n : Nat} {b : Builder} (h : Forest syms n b) (hq : 2 ≤ b.pq.length) :
    Forest syms n (mergeStep b) ∧ (mergeStep b).k = b.k + 1 ∧ (mergeStep b).pq.length = b.pq.length - 1 ∧
    (∃ q, (mergeStep b).pq = q ++ [BitVec.ofNat 9 b.k]) ∧
    ∃ r, nodeAt (mergeStep b).node (BitVec.ofNat 9 b.k) = some r ∧ r.kind = .internal := by
  obtain ⟨m1, m2, hm1, hm2, -, -, heq⟩ := mergeStep_spec b hq
  have hk : b.k < 511 := by have := h.count; have := h.size; omega
  have hlen : ((b.pq.erase m1).erase m2).length = b.pq.length - 2 := by
    rw [List.length_erase_of_mem hm2, List.length_erase_of_mem hm1]; omega
  obtain ⟨r0, hr0⟩ : ∃ r0, b.node[b.k]? = some r0 := ⟨_, Vector.getElem?_eq_getElem hk⟩
  have hfree := h.free b.k r0 le_rfl hr0
  have hnew : nodeAt (mergeStep b).node (BitVec.ofNat 9 b.k) =
      some ⟨.internal, 0, weightOf b.node m1 + weightOf b.node m2, m2, m1⟩ := by
    have hmod : b.k % 2 ^ 9 = b.k := by omega
    rw [heq, nodeAt, BitVec.toNat_ofNat, hmod, Vector.getElem?_setIfInBounds]
    simp [hk]
  refine ⟨⟨?_, h.size, ?_, ?_, ?_⟩, by rw [heq], by rw [heq]; simp [hlen]; omega, ⟨_, by rw [heq]⟩,
    _, hnew, rfl⟩
  · have := h.count
    rw [heq]
    simp [hlen]
    omega
  · intro j r hj hr
    rw [heq] at hj hr
    rw [Vector.getElem?_setIfInBounds, if_neg (by dsimp only at hj; omega)] at hr
    exact h.free j r (by dsimp only at hj; omega) hr
  · intro j r hr hl
    rw [heq, Vector.getElem?_setIfInBounds] at hr
    split at hr
    · cases hr; cases hl
    · exact h.leaf_sym j r hr hl
  · intro x hx
    obtain ⟨i, hi, p, r, hp, hl, hs⟩ := h.reach x hx
    have hp' : nodeOnPath (mergeStep b).node i p = some r := by
      rw [heq]; exact nodeOnPath_set hr0 hfree hp hl
    have hlast : BitVec.ofNat 9 b.k ∈ (mergeStep b).pq := by rw [heq]; simp
    by_cases h1 : i = m1
    · subst h1
      exact ⟨_, hlast, true :: p, r, nodeOnPath_cons hnew rfl hp', hl, hs⟩
    · by_cases h2 : i = m2
      · subst h2
        exact ⟨_, hlast, false :: p, r, nodeOnPath_cons hnew rfl hp', hl, hs⟩
      · refine ⟨i, ?_, p, r, hp', hl, hs⟩
        rw [heq]
        exact List.mem_append_left _ ((List.mem_erase_of_ne h2).2 ((List.mem_erase_of_ne h1).2 hi))

/-- R144: `m` merges, as long as PQ has two members before each. -/
theorem Forest.merges {syms : List Byte} {n : Nat} (m : Nat) {b : Builder} (h : Forest syms n b)
    (hq : m + 1 ≤ b.pq.length) :
    Forest syms n (mergeStep^[m] b) ∧ (mergeStep^[m] b).k = b.k + m ∧
    (mergeStep^[m] b).pq.length = b.pq.length - m := by
  induction m with
  | zero => exact ⟨h, rfl, rfl⟩
  | succ m ih =>
    obtain ⟨hf, hk, hl⟩ := ih (by omega)
    rw [Function.iterate_succ_apply']
    obtain ⟨hf', hk', hl', -, -⟩ := hf.merge (by omega)
    exact ⟨hf', by omega, by omega⟩

/-- R144: the builder as the merges begin, all leaves in PQ. -/
def leafBuilder (freq : WordTable) : Builder :=
  { buildLeaves freq with pq := (List.range (buildLeaves freq).k).map (BitVec.ofNat 9) }

@[simp] theorem leafBuilder_pq_length (freq : WordTable) : (leafBuilder freq).pq.length = (alphabet freq).length := by
  simp [leafBuilder, buildLeaves_k]

/-- R144: the leaves, all of them in PQ, are a forest. -/
theorem forest_leaves (freq : WordTable) : Forest (alphabet freq) (alphabet freq).length (leafBuilder freq) := by
  have hsize := alphabet_length_le freq
  have hk := buildLeaves_k freq
  refine ⟨?_, hsize, ?_, ?_, ?_⟩
  · simp [leafBuilder, hk]; omega
  · intro j r hj hr
    have hr' := hr.symm.trans (buildLeaves_node freq (lt_of_node hr))
    rw [List.getElem?_eq_none (by rw [← hk]; exact hj)] at hr'
    cases hr'
    rfl
  · intro j r hr hl
    have hr' := hr.symm.trans (buildLeaves_node freq (lt_of_node hr))
    cases ha : (alphabet freq)[j]? with
    | none => rw [ha] at hr'; cases hr'; cases hl
    | some a => rw [ha] at hr'; cases hr'; exact List.mem_of_getElem? ha
  · intro x hx
    obtain ⟨j, hj, rfl⟩ := List.getElem_of_mem hx
    have hj' : j < 511 := by omega
    refine ⟨BitVec.ofNat 9 j, List.mem_map_of_mem (by simpa [hk] using hj), [], leafOf freq (alphabet freq)[j], ?_, rfl, rfl⟩
    rw [nodeOnPath, nodeAt_ofNat _ hj', leafBuilder, buildLeaves_node freq hj', List.getElem?_eq_getElem hj]
    rfl

/-! ### The tree -/

/-- What the tree of a frequency table is for ASSIGN: its leaves hold symbols of the alphabet, each symbol of the alphabet is on
a leaf below the root, and the root is no leaf (R144, R149). -/
structure BuiltTree (freq : WordTable) (t : Tree) : Prop where
  nsyms : t.nsyms.toNat = (alphabet freq).length
  leaf_sym : ∀ (j : Nat) (r : Node), t.node[j]? = some r → r.kind = .leaf → r.sym ∈ alphabet freq
  reach : ∀ x ∈ alphabet freq, ∃ p r, nodeOnPath t.node t.root p = some r ∧ r.kind = .leaf ∧ r.sym = x
  root : ∃ r, nodeAt t.node t.root = some r ∧ r.kind = .internal

/-- R149: the builder of a one-symbol alphabet: the leaf, the PLACEHOLDER, and the root over both. -/
def oneSymbolBuilder (freq : WordTable) : Builder :=
  ((buildLeaves freq).alloc ⟨.placeholder, 0, 0, 0, 0⟩).alloc ⟨.internal, 0, weightOf (buildLeaves freq).node 0, 0, 1⟩

/-- R144: the builder when the merges are done. -/
def mergedBuilder (freq : WordTable) : Builder :=
  mergeStep^[(buildLeaves freq).k - 1] (leafBuilder freq)

/-- R144, R149, R150: the tree by the size of the alphabet. -/
theorem buildTree_eq (freq : WordTable) :
    buildTree freq =
      if (alphabet freq).length = 0 then .error .emptyAlphabet
      else if (alphabet freq).length = 1 then .ok ((oneSymbolBuilder freq).finish 1)
      else .ok ((mergedBuilder freq).finish (alphabet freq).length) := by
  rw [← buildLeaves_k]
  rfl

/-- R149: the three records of a one-symbol tree. -/
theorem oneSymbolBuilder_node {freq : WordTable} {b : Byte} (h : alphabet freq = [b]) {j : Nat} (hj : j < 511) :
    (oneSymbolBuilder freq).node[j]? = some
      (if j = 0 then leafOf freq b else if j = 1 then ⟨.placeholder, 0, 0, 0, 0⟩
        else if j = 2 then ⟨.internal, 0, weightOf (buildLeaves freq).node 0, 0, 1⟩ else Node.empty) := by
  have hk : (buildLeaves freq).k = 1 := by rw [buildLeaves_k, h]; rfl
  have hk' : ((buildLeaves freq).alloc ⟨.placeholder, 0, 0, 0, 0⟩).k = 2 := by rw [Builder.alloc, hk]
  rw [oneSymbolBuilder, alloc_node _ _ hj, alloc_node _ _ hj, hk, hk', buildLeaves_node freq hj, h]
  match j with
  | 0 => rfl
  | 1 => rfl
  | 2 => rfl
  | j + 3 => rfl

theorem oneSymbolBuilder_k {freq : WordTable} {b : Byte} (h : alphabet freq = [b]) : (oneSymbolBuilder freq).k = 3 := by
  have hk : (buildLeaves freq).k = 1 := by rw [buildLeaves_k, h]; rfl
  simp [oneSymbolBuilder, Builder.alloc, hk]

/-- R149: the one symbol is the root's left child. -/
theorem builtTree_oneSymbol {freq : WordTable} {b : Byte} (h : alphabet freq = [b]) :
    BuiltTree freq ((oneSymbolBuilder freq).finish 1) := by
  have hroot : nodeAt (oneSymbolBuilder freq).node (BitVec.ofNat 9 ((oneSymbolBuilder freq).k - 1)) =
      some ⟨.internal, 0, weightOf (buildLeaves freq).node 0, 0, 1⟩ := by
    rw [oneSymbolBuilder_k h, nodeAt_ofNat _ (by decide), oneSymbolBuilder_node h (by decide)]
    rfl
  refine ⟨by simp [Builder.finish, h], ?_, ?_, ⟨_, hroot, rfl⟩⟩
  · intro j r hr hl
    have hr' := hr.symm.trans (oneSymbolBuilder_node h (lt_of_node hr))
    match j with
    | 0 => cases hr'; simp [h, leafOf]
    | 1 => cases hr'; cases hl
    | 2 => cases hr'; cases hl
    | j + 3 => cases hr'; cases hl
  · intro x hx
    obtain rfl : x = b := by simpa [h] using hx
    refine ⟨[false], leafOf freq x, nodeOnPath_cons hroot rfl ?_, rfl, rfl⟩
    exact oneSymbolBuilder_node h (j := 0) (by decide)

/-- R144: after `n - 1` merges PQ holds the last record alone, and it is the root. -/
theorem builtTree_merged {freq : WordTable} (h : 2 ≤ (alphabet freq).length) :
    BuiltTree freq ((mergedBuilder freq).finish (alphabet freq).length) := by
  have hsize := alphabet_length_le freq
  have hk := buildLeaves_k freq
  obtain ⟨n, hn⟩ : ∃ n, (alphabet freq).length = n + 2 := ⟨(alphabet freq).length - 2, by omega⟩
  have hm : mergedBuilder freq = mergeStep (mergeStep^[n] (leafBuilder freq)) := by
    rw [mergedBuilder, hk, hn, ← Function.iterate_succ_apply' mergeStep]; rfl
  -- the builder before the last merge
  obtain ⟨hf, -, hl⟩ := (forest_leaves freq).merges n (by simp; omega)
  rw [leafBuilder_pq_length, hn] at hl
  obtain ⟨hF, hkF, hlF, ⟨q, hq⟩, r, hr, hint⟩ := hf.merge (by omega)
  rw [← hm] at hF hkF hlF hq hr
  have hlast : (mergeStep^[n] (leafBuilder freq)).k = (mergedBuilder freq).k - 1 := by omega
  rw [hlast] at hq hr
  have hpq : (mergedBuilder freq).pq = [BitVec.ofNat 9 ((mergedBuilder freq).k - 1)] := by
    have hlen := congrArg List.length hq
    rw [List.length_append, List.length_singleton] at hlen
    rw [hq, List.length_eq_zero_iff.1 (show q.length = 0 by omega), List.nil_append]
  have hreach : ∀ x ∈ alphabet freq, ∃ p r, nodeOnPath (mergedBuilder freq).node
      (BitVec.ofNat 9 ((mergedBuilder freq).k - 1)) p = some r ∧ r.kind = .leaf ∧ r.sym = x := by
    intro x hx
    obtain ⟨i, hi, p, r, hp⟩ := hF.reach x hx
    rw [hpq, List.mem_singleton] at hi
    exact ⟨p, r, hi ▸ hp⟩
  refine ⟨by simp [Builder.finish]; omega, hF.leaf_sym, hreach, r, hr, hint⟩

/-- R144, R149, R150. -/
theorem builtTree {freq : WordTable} {t : Tree} (h : buildTree freq = .ok t) : BuiltTree freq t := by
  rw [buildTree_eq] at h
  split at h
  · cases h
  · next h0 =>
    split at h
    · next h1 =>
      obtain ⟨b, hb⟩ := List.length_eq_one_iff.1 h1
      cases h
      exact builtTree_oneSymbol hb
    · next h1 =>
      cases h
      exact builtTree_merged (by omega)

/-! ### The code table -/

/-- R161: what a successful visit has come to at record `i`, by the kind of the record. -/
theorem visit_inv {t : NodeTable} {room : Nat} {i : NodeIdx} {d : Nat} {v : Word} {c c' : CodeTable}
    (h : visit t room i d v c = .ok c') :
    ∃ r, nodeAt t i = some r ∧
      ((r.kind = .placeholder ∧ c' = c) ∨ (r.kind = .leaf ∧ c' = c.record r.sym d v) ∨
       (r.kind = .internal ∧ ∃ room' c1, room = room' + 1 ∧
          visit t room' r.left (d + 1) (2 * v) c = .ok c1 ∧ visit t room' r.right (d + 1) (2 * v + 1) c1 = .ok c')) := by
  cases hr : nodeAt t i with
  | none => unfold visit at h; simp [hr] at h
  | some r =>
    refine ⟨r, rfl, ?_⟩
    cases hk : r.kind with
    | free => unfold visit at h; simp [hr, hk] at h
    | placeholder =>
      rw [visit_placeholder room d v c hr hk] at h
      cases h
      exact .inl ⟨rfl, rfl⟩
    | leaf =>
      rw [visit_leaf room d v c hr hk] at h
      cases h
      exact .inr (.inl ⟨rfl, rfl⟩)
    | internal =>
      cases room with
      | zero => rw [visit_tooLong d v c hr hk] at h; cases h
      | succ room' =>
        rw [visit_internal room' d v c hr hk] at h
        cases h1 : visit t room' r.left (d + 1) (2 * v) c with
        | error x => rw [h1] at h; cases h
        | ok c1 => rw [h1] at h; exact .inr (.inr ⟨rfl, room', c1, rfl, h1, h⟩)

/-- R43: a code has at most 32 bits and a value that fits them; without a code the value is 0. -/
def CodesInRange (c : CodeTable) : Prop :=
  ∀ b : Byte, (entry c.len b).toNat ≤ 32 ∧ (entry c.val b).toNat < 2 ^ (entry c.len b).toNat

theorem codesInRange_empty : CodesInRange CodeTable.empty := by
  intro b
  simp [CodeTable.empty]

theorem codesInRange_record {c : CodeTable} {s : Byte} {d : Nat} {v : Word} (h : CodesInRange c) (hd : d ≤ 32)
    (hv : v.toNat < 2 ^ d) : CodesInRange (c.record s d v) := by
  intro b
  rw [entry_record_len, entry_record_val]
  split
  · have hmod : d % 2 ^ 6 = d := by omega
    rw [BitVec.toNat_ofNat, hmod]
    exact ⟨hd, hv⟩
  · exact h b

/-- R161: one bit more at the end of a value that fits `d` bits. -/
theorem child_value {d : Nat} {v : Word} (hd : d < 32) (hv : v.toNat < 2 ^ d) :
    (2 * v).toNat < 2 ^ (d + 1) ∧ (2 * v + 1).toNat < 2 ^ (d + 1) := by
  have hp : 2 ^ (d + 1) ≤ 2 ^ 32 := Nat.pow_le_pow_right (by decide) (by omega)
  have hs : 2 ^ (d + 1) = 2 * 2 ^ d := by ring
  have h2 : (2 * v).toNat = 2 * v.toNat := by
    rw [BitVec.toNat_mul]
    exact Nat.mod_eq_of_lt (by show 2 * v.toNat < 2 ^ 32; omega)
  have h3 : (2 * v + 1).toNat = 2 * v.toNat + 1 := by
    rw [BitVec.toNat_add, h2]
    exact Nat.mod_eq_of_lt (by show 2 * v.toNat + 1 < 2 ^ 32; omega)
  omega

/-- R43, R161, R162: a visit keeps the codes in range. -/
theorem visit_inRange {t : NodeTable} {room : Nat} {i : NodeIdx} {d : Nat} {v : Word} {c c' : CodeTable}
    (h : visit t room i d v c = .ok c') (hd : d + room = 32) (hv : v.toNat < 2 ^ d) (hc : CodesInRange c) :
    CodesInRange c' := by
  induction room generalizing i d v c c' with
  | zero =>
    obtain ⟨r, -, ⟨-, rfl⟩ | ⟨-, rfl⟩ | ⟨-, room', -, h0, -⟩⟩ := visit_inv h
    · exact hc
    · exact codesInRange_record hc (by omega) hv
    · cases h0
  | succ room ih =>
    obtain ⟨r, -, ⟨-, rfl⟩ | ⟨-, rfl⟩ | ⟨-, room', c1, hroom, h1, h2⟩⟩ := visit_inv h
    · exact hc
    · exact codesInRange_record hc (by omega) hv
    · cases hroom
      obtain ⟨hl, hr⟩ := child_value (by omega) hv
      exact ih h2 (by omega) hr (ih h1 (by omega) hl hc)

theorem record_coded {c : CodeTable} {s b : Byte} {d : Nat} {v : Word} (hd : d ≤ 32) (hd0 : d ≠ 0)
    (hb : b = s ∨ entry c.len b ≠ 0) : entry (c.record s d v).len b ≠ 0 := by
  rw [entry_record_len]
  split
  · intro h0
    have := congrArg BitVec.toNat h0
    simp only [BitVec.toNat_ofNat, BitVec.ofNat_eq_ofNat] at this
    omega
  · next h => exact hb.resolve_left h

/-- R161: a code that a symbol has is not lost in a visit below the root. -/
theorem visit_keeps_coded {t : NodeTable} {room : Nat} {i : NodeIdx} {d : Nat} {v : Word} {c c' : CodeTable} {b : Byte}
    (h : visit t room i d v c = .ok c') (hd : d + room = 32) (hd0 : d ≠ 0) (hb : entry c.len b ≠ 0) :
    entry c'.len b ≠ 0 := by
  induction room generalizing i d v c c' with
  | zero =>
    obtain ⟨r, -, ⟨-, rfl⟩ | ⟨-, rfl⟩ | ⟨-, room', -, h0, -⟩⟩ := visit_inv h
    · exact hb
    · exact record_coded (by omega) hd0 (.inr hb)
    · cases h0
  | succ room ih =>
    obtain ⟨r, -, ⟨-, rfl⟩ | ⟨-, rfl⟩ | ⟨-, room', c1, hroom, h1, h2⟩⟩ := visit_inv h
    · exact hb
    · exact record_coded (by omega) hd0 (.inr hb)
    · cases hroom
      exact ih h2 (by omega) (by omega) (ih h1 (by omega) (by omega) hb)

/-- R161: a visit gives every symbol on a leaf below its record a code, the leaf's own record apart from the root. -/
theorem visit_codes {t : NodeTable} {room : Nat} {i : NodeIdx} {d : Nat} {v : Word} {c c' : CodeTable} {p : List Bool}
    {r : Node} (h : visit t room i d v c = .ok c') (hd : d + room = 32) (hd0 : d ≠ 0 ∨ p ≠ [])
    (hp : nodeOnPath t i p = some r) (hl : r.kind = .leaf) : entry c'.len r.sym ≠ 0 := by
  induction p generalizing room i d v c c' with
  | nil =>
    obtain ⟨r0, hr0, hcase⟩ := visit_inv h
    obtain rfl : r = r0 := Option.some.inj (hp.symm.trans hr0)
    rw [hl] at hcase
    obtain ⟨hk, -⟩ | ⟨-, rfl⟩ | ⟨hk, -⟩ := hcase
    · cases hk
    · exact record_coded (by omega) (by simpa using hd0) (.inl rfl)
    · cases hk
  | cons bit q ih =>
    obtain ⟨r0, hr0, hcase⟩ := visit_inv h
    rw [nodeOnPath, hr0] at hp
    dsimp only at hp
    split at hp
    · next hk =>
      rw [hk] at hcase
      obtain ⟨hk, -⟩ | ⟨hk, -⟩ | ⟨-, room', c1, rfl, h1, h2⟩ := hcase
      · cases hk
      · cases hk
      · cases bit with
        | false => exact visit_keeps_coded h2 (by omega) (by omega) (ih h1 (by omega) (.inl (by omega)) hp)
        | true => exact ih h2 (by omega) (.inl (by omega)) hp
    · cases hp

/-- A record on a path stands in the table. -/
theorem exists_of_nodeOnPath {t : NodeTable} {i : NodeIdx} {p : List Bool} {r : Node}
    (h : nodeOnPath t i p = some r) : ∃ j : Nat, t[j]? = some r := by
  induction p generalizing i with
  | nil => exact ⟨_, h⟩
  | cons bit p ih =>
    rw [nodeOnPath] at h
    split at h
    · split at h
      · exact ih h
      · cases h
    · cases h

/-- R166: the code table of a built tree has codes for the alphabet and for nothing else. -/
theorem coded_iff_of_assignCodes {freq : WordTable} {t : Tree} {c : CodeTable} (ht : buildTree freq = .ok t)
    (hc : assignCodes t.node t.root = .ok c) (b : Byte) : entry c.len b ≠ 0 ↔ entry freq b ≠ 0 := by
  have hT := builtTree ht
  rw [← mem_alphabet]
  constructor
  · intro hb
    by_contra hn
    have hleaf : ∀ p r, nodeOnPath t.node t.root p = some r → r.kind = .leaf → r.sym ≠ b := by
      rintro p r hp hl rfl
      obtain ⟨j, hj⟩ := exists_of_nodeOnPath hp
      exact hn (hT.leaf_sym j r hj hl)
    exact hb ((visit_frame 32 hc hleaf).1.trans (entry_replicate 0 b))
  · intro hb
    obtain ⟨p, r, hp, hl, rfl⟩ := hT.reach b hb
    obtain ⟨r0, hr0, hint⟩ := hT.root
    refine visit_codes hc rfl (.inr ?_) hp hl
    rintro rfl
    rw [Option.some.inj (hp.symm.trans hr0), hint] at hl
    cases hl

theorem codedSymbols_of_assignCodes {freq : WordTable} {t : Tree} {c : CodeTable} (ht : buildTree freq = .ok t)
    (hc : assignCodes t.node t.root = .ok c) : codedSymbols c.len = alphabet freq :=
  List.filter_congr fun b _ => decide_eq_decide.2 (coded_iff_of_assignCodes ht hc b)

theorem codesInRange_of_assignCodes {t : NodeTable} {root : NodeIdx} {c : CodeTable}
    (hc : assignCodes t root = .ok c) : CodesInRange c :=
  visit_inRange hc rfl (by decide) codesInRange_empty

/-! ### The header -/

theorem headerEntryBytes_length (c : CodeTable) (b : Byte) : (headerEntryBytes c b).length = 9 := by
  simp [headerEntryBytes, fieldBytes]

/-- R95 to R97: four bytes, and nine for each coded symbol. -/
theorem header_length_eq (n : BitVec 9) (c : CodeTable) : (header n c).length = 4 + 9 * (codedSymbols c.len).length := by
  have h (l : List Byte) : (l.flatMap (headerEntryBytes c)).length = 9 * l.length := by
    induction l with
    | nil => rfl
    | cons b l ih => rw [List.flatMap_cons, List.length_append, headerEntryBytes_length, ih, List.length_cons]; ring
  rw [header, List.length_append, h]
  simp [fieldBytes]

/-- R174, R175: the header of a built tree ends where PACK begins the payload. -/
theorem header_length_of_assignCodes {freq : WordTable} {t : Tree} {c : CodeTable} (ht : buildTree freq = .ok t)
    (hc : assignCodes t.node t.root = .ok c) : (header t.nsyms c).length = 4 + 9 * t.nsyms.toNat := by
  rw [header_length_eq, codedSymbols_of_assignCodes ht hc, (builtTree ht).nsyms]

theorem payloadStart_toNat (d : Datapath) : (payloadStart d).toNat = 4 + 9 * d.nsyms.toNat := by
  have hn := d.nsyms.isLt
  have h9 : (9 * d.nsyms.setWidth 32 : Word).toNat = 9 * d.nsyms.toNat := by
    rw [BitVec.toNat_mul, BitVec.toNat_setWidth, Nat.mod_eq_of_lt (a := d.nsyms.toNat) (by omega)]
    exact Nat.mod_eq_of_lt (by show 9 * d.nsyms.toNat < 2 ^ 32; omega)
  rw [payloadStart, BitVec.toNat_add, h9]
  exact Nat.mod_eq_of_lt (by show 4 + 9 * d.nsyms.toNat < 2 ^ 32; omega)

/-! ### FREQ -/

/-- Every byte of an input is counted once, under its own value. -/
theorem sum_count_eq_length (bs : List Byte) :
    ((List.range 256).map fun i => bs.count (BitVec.ofNat 8 i)).sum = bs.length := by
  have hcount : ∀ i ∈ Finset.range 256, bs.count (BitVec.ofNat 8 i) = (bs.map BitVec.toNat : Multiset Nat).count i := by
    intro i hi
    have hmod : (BitVec.ofNat 8 i).toNat = i := Nat.mod_eq_of_lt (Finset.mem_range.1 hi)
    rw [Multiset.coe_count, ← hmod, List.count_map_of_injective _ _ BitVec.toNat_injective, hmod]
  calc ((List.range 256).map fun i => bs.count (BitVec.ofNat 8 i)).sum
      = ∑ i ∈ Finset.range 256, bs.count (BitVec.ofNat 8 i) := rfl
    _ = ∑ i ∈ Finset.range 256, (bs.map BitVec.toNat : Multiset Nat).count i := Finset.sum_congr rfl hcount
    _ = (bs.map BitVec.toNat : Multiset Nat).card := by
        refine Multiset.sum_count_eq_card fun a ha => ?_
        obtain ⟨b, -, rfl⟩ := List.mem_map.1 (Multiset.mem_coe.1 ha)
        exact Finset.mem_range.2 b.isLt
    _ = bs.length := by simp

/-- R40, R142: the counts of an input sum to its length at most. -/
theorem freqSum_countTable_le (bs : List Byte) : freqSum (countTable bs) ≤ bs.length := by
  rw [freqSum, toList_eq_map_entry, List.map_map, ← sum_count_eq_length bs]
  refine List.sum_le_sum fun i _ => ?_
  rw [Function.comp, entry_countTable, BitVec.toNat_ofNat]
  exact Nat.mod_le _ _

end Sys2Proof.Machine

/-!
PROOFS. What PACK leaves when it ends (R171, R172, R175): the codes of the input are one run of pushes, the flush fills the last
byte, the trailer follows.
-/

namespace Sys2Proof.Machine

/-! ### Pushes -/

/-- R175: the registers that `push` neither reads nor writes while a byte is sent: RP, CSR and CREM. -/
def Datapath.withSend (d : Datapath) (rp csr : Word) (crem : BitVec 6) : Datapath :=
  { d with rp := rp, csr := csr, crem := crem }

section
variable {e : Env} {d d' : Datapath}

theorem pushBit_withSend (b : Bool) (d : Datapath) (rp csr : Word) (crem : BitVec 6) :
    pushBit e b (d.withSend rp csr crem) = (pushBit e b d).map (·.withSend rp csr crem) := by
  unfold pushBit put8 Datapath.withSend
  dsimp only
  by_cases h8 : d.nb + 1 = 8
  · by_cases hw : e.outCap ≤ d.wp.toNat <;> simp only [h8, hw, ↓reduceIte] <;> rfl
  · simp only [h8, ↓reduceIte]
    rfl

theorem pushAll_withSend (bs : List Bool) (d : Datapath) (rp csr : Word) (crem : BitVec 6) :
    pushAll e bs (d.withSend rp csr crem) = (pushAll e bs d).map (·.withSend rp csr crem) := by
  induction bs generalizing d with
  | nil => rfl
  | cons b bs ih =>
    simp only [pushAll, pushBit_withSend]
    cases pushBit e b d with
    | ok d1 => exact ih d1
    | error x => rfl

/-- The pushes on other send registers, if they succeed, succeed on the datapath itself. -/
theorem pushAll_of_withSend {bs : List Bool} {rp csr : Word} {crem : BitVec 6}
    (h : pushAll e bs (d.withSend rp csr crem) = .ok d') :
    ∃ d1, pushAll e bs d = .ok d1 ∧ d' = d1.withSend rp csr crem := by
  rw [pushAll_withSend] at h
  cases hp : pushAll e bs d with
  | ok d1 => rw [hp] at h; cases h; exact ⟨d1, rfl, rfl⟩
  | error x => rw [hp] at h; cases h

theorem pushBit_frame {b : Bool} (h : pushBit e b d = .ok d') :
    ∃ out wp acc nb, d' = { d with out := out, wp := wp, acc := acc, nb := nb } := by
  unfold pushBit at h
  dsimp only at h
  split at h
  · split at h
    · next hp =>
      obtain ⟨-, rfl⟩ := put8_inv hp
      cases h
      exact ⟨_, _, _, _, rfl⟩
    · cases h
  · cases h
    exact ⟨d.out, d.wp, _, _, rfl⟩

theorem pushAll_frame {bs : List Bool} (h : pushAll e bs d = .ok d') :
    ∃ out wp acc nb, d' = { d with out := out, wp := wp, acc := acc, nb := nb } := by
  induction bs generalizing d with
  | nil => cases h; exact ⟨_, _, _, _, rfl⟩
  | cons b bs ih =>
    cases hp : pushBit e b d with
    | ok d1 =>
      obtain ⟨_, _, _, _, rfl⟩ := pushBit_frame hp
      obtain ⟨out, wp, acc, nb, rfl⟩ := ih (by simpa [pushAll, hp] using h)
      exact ⟨out, wp, acc, nb, rfl⟩
    | error x => simp [pushAll, hp] at h

/-- R68: pushes that succeed have put their full bytes below OUT_CAP. -/
theorem pushAll_fits {bs : List Bool} {q : List Bool} (hq : Pending d q) (hw : d.wp.toNat ≤ e.outCap)
    (hcap : e.outCap < 2 ^ 32) (h : pushAll e bs d = .ok d') :
    d.wp.toNat + (q ++ bs).length / 8 ≤ e.outCap := by
  induction bs generalizing d q with
  | nil =>
    have := hq.short
    rw [List.append_nil]
    omega
  | cons b bs ih =>
    have hlen : (q ++ b :: bs).length = (q ++ [b] ++ bs).length := by simp
    by_cases hq8 : q.length + 1 < 8
    · simp only [pushAll, pushBit_keep b hq hq8] at h
      rw [hlen]
      exact ih (d := { d with acc := accOf (q ++ [b]), nb := BitVec.ofNat 4 (q.length + 1) })
        ⟨by simpa using hq8, by simp, rfl⟩ hw h
    · have h8 : q.length + 1 = 8 := by have := hq.short; omega
      rcases put8_cases e (accOf (q ++ [b])) d with ⟨hlt, hp⟩ | ⟨-, hp⟩
      · simp only [pushAll, pushBit_full b hq h8, hp] at h
        have hwp := wp_succ hlt hcap
        have := ih (q := []) ⟨by simp, rfl, rfl⟩ (by simp only [hwp]; omega) h
        simp only [hwp, List.nil_append, List.length_append, List.length_cons] at this ⊢
        omega
      · simp only [pushAll, pushBit_full b hq h8, hp] at h
        cases h

/-- R175: the bytes read from RP on, and their codes as one run of pushes. -/
theorem loop_packByte_inv {n : Nat} (h : loop (packByte e) n d = .ok d') :
    (∀ b ∈ (List.range n).map (fun j => e.inByte (d.rp + BitVec.ofNat 32 j)), entry d.codeLen b ≠ 0) ∧
    ∃ d1 rp csr crem,
      pushAll e (payloadBits ⟨d.codeLen, d.codeVal⟩ ((List.range n).map fun j => e.inByte (d.rp + BitVec.ofNat 32 j))) d =
        .ok d1 ∧ d' = d1.withSend rp csr crem ∧ (d.crem = 0 → crem = 0) := by
  induction n generalizing d with
  | zero => cases h; exact ⟨by simp, d', d'.rp, d'.csr, d'.crem, rfl, rfl, id⟩
  | succ n ih =>
    cases hb : packByte e d with
    | error x => rw [loop_succ_error _ n hb] at h; cases h
    | ok d2 =>
      rw [loop_succ_ok _ n hb] at h
      obtain ⟨hcoded, hpush⟩ := packByte_inv hb
      obtain ⟨d3, hd3, rfl⟩ := pushAll_of_withSend (d := d) hpush
      obtain ⟨out, wp, acc, nb, rfl⟩ := pushAll_frame hd3
      obtain ⟨hrest, d4, rp, csr, crem, hd4, rfl, hcrem⟩ := ih h
      obtain ⟨d5, hd5, rfl⟩ := pushAll_of_withSend hd4
      have hbytes : (List.range (n + 1)).map (fun j => e.inByte (d.rp + BitVec.ofNat 32 j)) =
          e.inByte d.rp :: (List.range n).map (fun j => e.inByte (d.rp + 1 + BitVec.ofNat 32 j)) := by
        rw [List.range_succ_eq_map, List.map_cons, List.map_map]
        refine congrArg₂ List.cons (by simp) (List.map_congr_left fun j _ => ?_)
        rw [Function.comp, Nat.succ_eq_add_one, Nat.add_comm, BitVec.ofNat_add, ← BitVec.add_assoc]
        rfl
      rw [hbytes]
      refine ⟨?_, d5, rp, csr, crem, ?_, rfl, fun _ => hcrem rfl⟩
      · intro b hb
        rcases List.mem_cons.1 hb with rfl | hb
        · exact hcoded
        · exact hrest b hb
      · rw [payloadBits, List.flatMap_cons, pushAll_append, hd3]
        exact hd5

end

/-! ### Bytes put in one go -/

/-- The datapath with the bytes `bs` put (R68), all of them below OUT_CAP. -/
def Datapath.putBytes (d : Datapath) (bs : List Byte) : Datapath :=
  { d with out := d.out.writeAll d.wp.toNat bs, wp := d.wp + BitVec.ofNat 32 bs.length }

theorem putBytes_wp {d : Datapath} {bs : List Byte} {cap : Nat} (h : d.wp.toNat + bs.length ≤ cap)
    (hcap : cap < 2 ^ 32) : (d.putBytes bs).wp.toNat = d.wp.toNat + bs.length := wp_add h hcap

theorem putBytes_append {d : Datapath} {as : List Byte} {cap : Nat} (h : d.wp.toNat + as.length ≤ cap)
    (hcap : cap < 2 ^ 32) (bs : List Byte) : (d.putBytes as).putBytes bs = d.putBytes (as ++ bs) := by
  have hwp := putBytes_wp h hcap
  rw [Datapath.putBytes, hwp]
  simp only [Datapath.putBytes, Memory.writeAll_append, List.length_append, BitVec.ofNat_add, BitVec.add_assoc]

/-- R68: a run of puts that succeeds. -/
theorem putAll_inv {e : Env} {d d' : Datapath} {bs : List Byte} (hb : bs ≠ []) (hcap : e.outCap < 2 ^ 32)
    (h : putAll e bs d = .ok d') : d.wp.toNat + bs.length ≤ e.outCap ∧ d' = d.putBytes bs := by
  have hfit : d.wp.toNat + bs.length ≤ e.outCap := by
    by_contra hlt
    rw [putAll_overflow bs (by omega) hb hcap] at h
    cases h
  rw [putAll_ok bs hfit hcap] at h
  cases h
  exact ⟨hfit, rfl⟩

/-! ### The payload -/

/-- R172: the byte that the flush puts for the bits left over, if there are any. -/
def flushBytes (q : List Bool) : List Byte := if q = [] then [] else [accOf q <<< (8 - q.length)]

theorem accOf_append_zeros (p : List Bool) (n : Nat) : accOf (p ++ List.replicate n false) = accOf p <<< n := by
  induction n with
  | zero => simp
  | succ n ih =>
    rw [List.replicate_succ', ← List.append_assoc, accOf_concat, ih, ← BitVec.shiftLeft_add]
    simp

/-- R63: the bits of payload byte `j`, with 0 where they have run out. -/
theorem payloadByte_eq_accOf (bits : List Bool) (j : Nat) :
    payloadByte bits j = accOf ((List.range 8).map fun i => bits.getD (8 * j + i) false) := by
  rw [payloadByte, accOf, List.foldl_map]

theorem payloadByte_full {bits : List Bool} {j : Nat} (h : j < bits.length / 8) :
    payloadByte bits j = accOf ((bits.drop (8 * j)).take 8) := by
  rw [payloadByte_eq_accOf]
  congr 1
  apply List.ext_getElem
  · simp; omega
  · intro i h1 h2
    have hi : i < 8 := by simpa using h1
    have hlt : 8 * j + i < bits.length := by omega
    simp [hlt]

theorem payloadByte_last {bits : List Bool} :
    payloadByte bits (bits.length / 8) = accOf (leftOver bits) <<< (8 - (leftOver bits).length) := by
  rw [payloadByte_eq_accOf, ← accOf_append_zeros]
  congr 1
  have hlen := leftOver_length bits
  apply List.ext_getElem
  · simp; omega
  · intro i h1 h2
    have hi : i < 8 := by simpa using h1
    rw [List.getElem_map, List.getElem_range, List.getElem_append]
    split
    · next hlt =>
      have hlt' : 8 * (bits.length / 8) + i < bits.length := by omega
      simp [leftOver, hlt']
    · next hge =>
      have hge' : bits.length ≤ 8 * (bits.length / 8) + i := by omega
      simp [hge']

/-- R98: the payload is the bytes the pushes fill, and the one the flush puts. -/
theorem payloadBytes_eq (bits : List Bool) : payloadBytes bits = fullBytes bits ++ flushBytes (leftOver bits) := by
  have hlen := leftOver_length bits
  have hfull : (List.range (bits.length / 8)).map (payloadByte bits) = fullBytes bits :=
    List.map_congr_left fun j hj => payloadByte_full (List.mem_range.1 hj)
  rw [payloadBytes, payloadLength, flushBytes]
  by_cases h0 : bits.length % 8 = 0
  · have hnil : leftOver bits = [] := List.length_eq_zero_iff.1 (by omega)
    have hpl : (bits.length + 7) / 8 = bits.length / 8 := by omega
    rw [hpl, hfull, if_pos hnil, List.append_nil]
  · have hnil : leftOver bits ≠ [] := fun h => h0 (by rw [← hlen, h]; rfl)
    have hpl : (bits.length + 7) / 8 = bits.length / 8 + 1 := by omega
    rw [hpl, List.range_succ, List.map_append, hfull, if_neg hnil, List.map_singleton, payloadByte_last]

section
variable {e : Env} {d d' : Datapath}

/-- R172: the flush of the pending bits `q`. -/
theorem flush_spec {q : List Bool} {pad : BitVec 4} (hq : Pending d q) (hw : d.wp.toNat ≤ e.outCap)
    (h : flush e d = .ok (pad, d')) :
    pad.toNat = (8 - q.length) % 8 ∧ d.wp.toNat + (flushBytes q).length ≤ e.outCap ∧
    d' = { d.putBytes (flushBytes q) with acc := 0, nb := 0 } := by
  have hshort := hq.short
  have hnb : d.nb.toNat = q.length := by
    rw [hq.nb, BitVec.toNat_ofNat]
    omega
  rcases flush_inv h with ⟨hn, rfl, rfl⟩ | ⟨hn, rfl, hlt, rfl⟩
  · obtain rfl : q = [] := List.length_eq_zero_iff.1 (by rw [← hnb, hn]; rfl)
    exact ⟨rfl, hw, by simp [Datapath.putBytes, flushBytes, Memory.writeAll]⟩
  · have hne : q ≠ [] := by
      rintro rfl
      exact hn (BitVec.eq_of_toNat_eq hnb)
    have hpos : 0 < q.length := List.length_pos_iff.2 hne
    have hpad : (8 - d.nb).toNat = 8 - q.length := by
      rw [BitVec.toNat_sub, hnb]
      show (2 ^ 4 - q.length + 8) % 2 ^ 4 = 8 - q.length
      omega
    rw [flushBytes, if_neg hne, hpad, hq.acc]
    exact ⟨by omega, hlt, rfl⟩

/-- The bytes PACK puts for an input (R95): its payload and the trailer. -/
def packBytes (c : CodeTable) (input : List Byte) : List Byte :=
  payloadBytes (payloadBits c input) ++ fieldBytes (padCount (payloadBits c input))

/-- R172, R175: the end of PACK behind the pushes of `bits`. -/
theorem finishPack_spec {bits : List Bool} (hcap : e.outCap < 2 ^ 32) (hq : Pending d (leftOver bits))
    (hw : d.wp.toNat ≤ e.outCap) (h : finishPack e d = .ok d') :
    d.wp.toNat + (flushBytes (leftOver bits) ++ fieldBytes (padCount bits)).length ≤ e.outCap ∧
    ∃ pad, d' = { d.putBytes (flushBytes (leftOver bits) ++ fieldBytes (padCount bits)) with
      acc := 0, nb := 0, pad := pad } := by
  obtain ⟨pad, d1, d2, hflush, hput, rfl⟩ := finishPack_inv h
  obtain ⟨hpad, hfl, rfl⟩ := flush_spec hq hw hflush
  have htrail : le32 (pad.setWidth 32) = fieldBytes (padCount bits) := by
    have hlt := pad.isLt
    rw [le32_eq_fieldBytes, padCount, BitVec.toNat_setWidth, Nat.mod_eq_of_lt (by omega), hpad, leftOver_length]
  rw [htrail] at hput
  obtain ⟨hfit, rfl⟩ := putAll_inv (by simp [fieldBytes]) hcap hput
  have hwp : (d.putBytes (flushBytes (leftOver bits))).wp.toNat = d.wp.toNat + (flushBytes (leftOver bits)).length :=
    putBytes_wp hfl hcap
  refine ⟨?_, pad.setWidth 3, ?_⟩
  · rw [List.length_append, ← Nat.add_assoc, ← hwp]
    exact hfit
  · rw [← putBytes_append hfl hcap]
    rfl

/-- R171: pushes from an empty packer that succeed: the full bytes are put, the bits left over are pending. -/
theorem pushAll_spec {bits : List Bool} (hcap : e.outCap < 2 ^ 32) (hq : Pending d []) (hw : d.wp.toNat ≤ e.outCap)
    (h : pushAll e bits d = .ok d') :
    d.wp.toNat + (fullBytes bits).length ≤ e.outCap ∧ Pending d' (leftOver bits) ∧
    ∃ acc nb, d' = { d.putBytes (fullBytes bits) with acc := acc, nb := nb } := by
  have hfit := pushAll_fits hq hw hcap h
  rw [pushAll_ok _ hq hfit hcap, List.nil_append, ← fullBytes_length] at h
  rw [List.nil_append, ← fullBytes_length] at hfit
  have hlt : (leftOver bits).length < 8 := by rw [leftOver_length]; omega
  cases h
  exact ⟨hfit, ⟨hlt, rfl, rfl⟩, _, _, rfl⟩

/-- R175, R176: PACK from a payload start that lies in OUT: the input is not empty, all its bytes are coded, and the payload
and the trailer are put. -/
theorem phasePack_spec (hcap : e.outCap < 2 ^ 32) (hs : (payloadStart d).toNat ≤ e.outCap)
    (h : phasePack e d = .ok d') :
    ∃ input : List Byte, input ≠ [] ∧ (∀ b ∈ input, entry d.codeLen b ≠ 0) ∧
      (payloadStart d).toNat + (packBytes ⟨d.codeLen, d.codeVal⟩ input).length ≤ e.outCap ∧
      ∃ rp csr crem pad, (d.crem = 0 → crem = 0) ∧
        d' = { (packStart d).putBytes (packBytes ⟨d.codeLen, d.codeVal⟩ input) with
          rp := rp, csr := csr, crem := crem, pad := pad } := by
  obtain ⟨hl, d1, hloop, hfin⟩ := phasePack_inv h
  obtain ⟨hcoded, d2, rp, csr, crem, hpush, rfl, hcrem⟩ := loop_packByte_inv hloop
  refine ⟨_, ?_, hcoded, ?_⟩
  · rw [Ne, List.map_eq_nil_iff, List.range_eq_nil]
    exact fun h0 => hl (BitVec.eq_of_toNat_eq h0)
  obtain ⟨bits, hbits⟩ : ∃ bits, bits = payloadBits ⟨d.codeLen, d.codeVal⟩
    ((List.range e.inLen.toNat).map fun j => e.inByte ((packStart d).rp + BitVec.ofNat 32 j)) := ⟨_, rfl⟩
  have hpush : pushAll e bits (packStart d) = .ok d2 := hbits ▸ hpush
  obtain ⟨hfit, hq, acc, nb, hd2⟩ := pushAll_spec hcap ⟨by simp, rfl, rfl⟩ hs hpush
  have hq' : Pending (d2.withSend rp csr crem) (leftOver bits) := ⟨hq.short, hq.nb, hq.acc⟩
  have hwp : (d2.withSend rp csr crem).wp.toNat = (packStart d).wp.toNat + (fullBytes bits).length := by
    rw [hd2]
    exact putBytes_wp hfit hcap
  obtain ⟨hfit', pad, rfl⟩ := finishPack_spec hcap hq' (hwp.trans_le hfit) hfin
  rw [packBytes, ← hbits, payloadBytes_eq, List.append_assoc]
  refine ⟨?_, rp, csr, crem, pad, hcrem, ?_⟩
  · rw [List.length_append, ← Nat.add_assoc]
    exact hwp ▸ hfit'
  · rw [← putBytes_append hfit hcap, hd2]
    rfl

end

end Sys2Proof.Machine

/-!
PROOFS. What RDHDR and DWALK leave when they end: a trie within TRIE_CAP (R197), and the symbols that the payload's bits lead to
(R201, R203).
-/

namespace Sys2Proof.Machine

/-! ### TNN -/

/-- R194: a descent over `k` bits creates at most `k` records. -/
theorem descend_tnn_le {val : Word} {k : Nat} {c c' : TrieIdx} {t t' : Trie}
    (h : Trie.descend val k c t = .ok (c', t')) : t'.tnn.toNat ≤ t.tnn.toNat + k := by
  induction k generalizing c t with
  | zero => cases h; exact le_rfl
  | succ k ih =>
    rw [descend_succ] at h
    split at h
    · cases h
    · split at h
      · have hstep : (t.grow c (val.getLsbD k)).tnn.toNat ≤ t.tnn.toNat + 1 := by
          show (t.tnn + 1).toNat ≤ _
          rw [BitVec.toNat_add]
          exact Nat.mod_le _ _
        have := ih h
        omega
      · have := ih h
        omega

theorem readEntry_tnn_le {m : Memory} {o : Nat} {t t' : Trie} (h : readEntry m o t = .ok t') :
    t'.tnn.toNat ≤ t.tnn.toNat + 32 := by
  obtain ⟨sym, len, val, hlen, hi⟩ := readEntry_inv h
  obtain ⟨c, t1, hd, rfl⟩ := insert_inv hi
  have := descend_tnn_le hd
  show t1.tnn.toNat ≤ _
  omega

theorem readEntries_tnn_le {m : Memory} {n o : Nat} {t t' : Trie} (h : readEntries m n o t = .ok t') :
    t'.tnn.toNat ≤ t.tnn.toNat + 32 * n := by
  induction n generalizing o t with
  | zero => cases h; exact le_rfl
  | succ n ih =>
    obtain ⟨t1, hr, h⟩ := readEntries_succ_inv h
    have := readEntry_tnn_le hr
    have := ih h
    omega

/-- R197: 256 codes of 32 bits and the root. -/
theorem readHeader_tnn_le {e : Env} {old : TrieMem} {a : Nat} {t : Trie} (h : readHeader e old = .ok (a, t)) :
    t.tnn.toNat ≤ trieCap := by
  obtain ⟨ha, hr⟩ := readHeader_inv h
  have := readEntries_tnn_le hr
  have hroot : (Trie.root old).tnn.toNat = 1 := rfl
  rw [trieCap]
  omega

/-! ### The walk -/

theorem trieSymbol_inner {m : TrieMem} {c : TrieIdx} {bit : Bool} (q : List Bool) (h0 : (m.read c).child bit ≠ 0)
    (hcap : ((m.read c).child bit).toNat < trieCap) (hl : (m.read ((m.read c).child bit)).leaf = false) :
    trieSymbol m c (bit :: q) = trieSymbol m ((m.read c).child bit) q := by
  simp only [trieSymbol]
  rw [if_neg (not_or.2 ⟨h0, Nat.not_le.2 hcap⟩), hl]
  rfl

theorem trieSymbol_leaf {m : TrieMem} {c : TrieIdx} {bit : Bool} (h0 : (m.read c).child bit ≠ 0)
    (hcap : ((m.read c).child bit).toNat < trieCap) (hl : (m.read ((m.read c).child bit)).leaf = true) :
    trieSymbol m c [bit] = some (m.read ((m.read c).child bit)).sym := by
  simp only [trieSymbol]
  rw [if_neg (not_or.2 ⟨h0, Nat.not_le.2 hcap⟩), hl]
  rfl

/-- The registers of the unpacker and of the walk (R45, R47) with new values. -/
def Datapath.withWalk (d : Datapath) (rp : Word) (usr : Byte) (ub : BitVec 4) (bl : BitVec 35) (cur : TrieIdx)
    (dstate : DState) : Datapath :=
  { d with rp := rp, usr := usr, ub := ub, bitsLeft := bl, cur := cur, dstate := dstate }

/-- The walk from the datapath `d0` has come to `d`: it has put the symbols of `picks`, and the bits of `path` have led it from
the root to where it stands (R201). -/
structure Walked (cap : Nat) (d0 : Datapath) (picks : List (List Bool × Byte)) (path : List Bool) (d : Datapath) : Prop where
  fits : d0.wp.toNat + picks.length ≤ cap
  picked : ∀ x ∈ picks, trieSymbol d0.tnode 0 x.1 = some x.2
  path : ∀ q, trieSymbol d0.tnode 0 (path ++ q) = trieSymbol d0.tnode d.cur q
  at_root : d.cur = 0 → d.dstate = .atRoot
  frame : ∃ rp usr ub bl cur dstate, d = (d0.putBytes (picks.map Prod.snd)).withWalk rp usr ub bl cur dstate

theorem putBytes_nil (d : Datapath) : d.putBytes [] = d := by
  simp [Datapath.putBytes, Memory.writeAll]

theorem walked_start (cap n : Nat) (d : Datapath) : Walked cap (walkStart n d) [] [] (walkStart n d) where
  fits := Nat.zero_le _
  picked := by simp
  path _ := rfl
  at_root _ := rfl
  frame := ⟨_, _, _, _, _, _, by rw [List.map_nil, putBytes_nil]; rfl⟩

/-- R201: one bit of the walk leads on, or puts a symbol. Either way the walk is not where it began. -/
theorem Walked.walkBit {e : Env} {d0 d d' : Datapath} {picks : List (List Bool × Byte)} {path : List Bool}
    (hcap : e.outCap < 2 ^ 32) (h : Walked e.outCap d0 picks path d) (hb : walkBit e d = .ok d') :
    ∃ picks' path', Walked e.outCap d0 picks' path' d' ∧ (d'.cur ≠ 0 ∨ picks' ≠ []) := by
  obtain ⟨bit, rp, usr, ub, bl, h0, hn, hcase⟩ := walkBit_inv hb
  obtain ⟨_, _, _, _, cur, _, rfl⟩ := h.frame
  rcases hcase with ⟨hl, rfl⟩ | ⟨hl, hw, rfl⟩
  · refine ⟨picks, path ++ [bit], ⟨h.fits, h.picked, fun q => ?_, fun h => absurd h h0, ?_⟩, .inl h0⟩
    · rw [List.append_assoc, h.path]
      exact trieSymbol_inner q h0 hn hl
    · exact ⟨rp, usr, ub, bl, _, _, rfl⟩
  · have hfit : d0.wp.toNat + (picks.map Prod.snd).length ≤ e.outCap := by simpa using h.fits
    change (d0.putBytes (picks.map Prod.snd)).wp.toNat < e.outCap at hw
    rw [putBytes_wp hfit hcap, List.length_map] at hw
    refine ⟨picks ++ [(path ++ [bit], (d0.tnode.read ((d0.tnode.read cur).child bit)).sym)], [],
      ⟨?_, ?_, fun _ => rfl, fun _ => rfl, ?_⟩, .inr (by simp)⟩
    · rw [List.length_append]
      exact hw
    · intro x hx
      rcases List.mem_append.1 hx with hx | hx
      · exact h.picked x hx
      · rw [List.mem_singleton.1 hx, h.path]
        exact trieSymbol_leaf h0 hn hl
    · refine ⟨rp, usr, ub, bl, 0, .atRoot, ?_⟩
      rw [List.map_append, ← putBytes_append hfit hcap]
      rfl

/-- R200, R203: DWALK that ends has put at least one symbol, each one reached by its bits from the root. -/
theorem phaseDwalk_spec {e : Env} {d d' : Datapath} (hcap : e.outCap < 2 ^ 32) (h : phaseDwalk e d = .ok d') :
    ∃ n, ∃ picks : List (List Bool × Byte), picks ≠ [] ∧ (∀ x ∈ picks, trieSymbol d.tnode 0 x.1 = some x.2) ∧
      picks.length ≤ e.outCap ∧
      ∃ rp usr ub bl pad, d' = { ((walkStart n d).putBytes (picks.map Prod.snd)).withWalk rp usr ub bl 0 .atRoot with
        pad := pad } := by
  obtain ⟨n, d1, pad, hn, hloop, hcur, rfl⟩ := phaseDwalk_inv h
  obtain ⟨n, rfl⟩ := Nat.exists_eq_succ_of_ne_zero hn
  cases hb : walkBit e (walkStart (n + 1) d) with
  | error x => rw [Nat.succ_eq_add_one, loop_succ_error _ n hb] at hloop; cases hloop
  | ok d2 =>
    rw [Nat.succ_eq_add_one, loop_succ_ok _ n hb] at hloop
    obtain ⟨picks, path, hW, hne⟩ := loop_keeps
      (P := fun d1 => ∃ picks path, Walked e.outCap (walkStart (n + 1) d) picks path d1 ∧ (d1.cur ≠ 0 ∨ picks ≠ []))
      (walkBit e) (fun a b ⟨picks, path, ha, _⟩ hb => ha.walkBit hcap hb) n d2 d1
      ((walked_start e.outCap (n + 1) d).walkBit hcap hb) hloop
    obtain ⟨rp, usr, ub, bl, cur, dstate, rfl⟩ := hW.frame
    obtain rfl : cur = 0 := hcur
    obtain rfl : dstate = .atRoot := hW.at_root rfl
    exact ⟨n + 1, picks, hne.resolve_left (not_not.2 rfl), hW.picked, by simpa [walkStart] using hW.fits,
      rp, usr, ub, bl, pad, rfl⟩

end Sys2Proof.Machine

/-!
PROOFS. O52 and O54: what the validity flags promise (R30) is kept by each single move, and holds at reset. A phase keeps the
promises of the flags it finds set and makes good the one it sets.
-/

namespace Sys2Proof.Machine

/-! ### Promises without a phase -/

/-- The promises are about OUT, the tables and registers, and the flags: a state that has the same of the first and none of the
last but those that were set keeps them. A result must be shown anew. -/
theorem TablesOk.of_eq {s t : State} (h : TablesOk s) (hdp : t.dp = s.dp) (hcap : t.outCap = s.outCap)
    (herr : t.status.err = false → s.status.err = false)
    (htree : t.status.treeValid = true → s.status.treeValid = true)
    (hcode : t.status.codeValid = true → s.status.codeValid = true)
    (hhdr : t.status.hdrDone = true → s.status.hdrDone = true)
    (htrie : t.status.trieValid = true → s.status.trieValid = true)
    (hres : t.status.outValid = true → t.resultInOut) : TablesOk t where
  freq_sum he := hdp ▸ h.freq_sum (herr he)
  tree ht := hdp ▸ h.tree (htree ht)
  code hc := by rw [State.codes, hdp]; exact h.code (hcode hc)
  hdr hh := by
    have heq : t.header = s.header := by rw [State.header, State.codes, hdp]; rfl
    rw [heq, hcap, State.outBytes, hdp]
    exact h.hdr (hhdr hh)
  trie ht := by rw [State.trieFromHeader, hdp]; exact h.trie (htrie ht)
  result := hres
  tnn_cap he := hdp ▸ h.tnn_cap (herr he)
  code_range he := hdp ▸ h.code_range (herr he)
  units_at_rest he := hdp ▸ h.units_at_rest (herr he)

/-- R51, R128: reset values and no validity flag. -/
theorem tablesOk_cleared {s : State} {out : Memory} {tnode : TrieMem} (hdp : s.dp = Datapath.cleared out tnode)
    (htree : s.status.treeValid = false) (hcode : s.status.codeValid = false) (hhdr : s.status.hdrDone = false)
    (htrie : s.status.trieValid = false) (hout : s.status.outValid = false) : TablesOk s where
  freq_sum _ := by
    have h0 : freqSum (Vector.replicate 256 0) = 0 := by
      rw [freqSum, Vector.toList_replicate, List.map_replicate, List.sum_replicate]
      rfl
    rw [hdp, Datapath.cleared, h0]
    decide
  tree h := by simp [htree] at h
  code h := by simp [hcode] at h
  hdr h := by simp [hhdr] at h
  trie h := by simp [htrie] at h
  result h := by simp [hout] at h
  tnn_cap _ := by simp [hdp, Datapath.cleared]
  code_range _ b := by simp [hdp, Datapath.cleared]
  units_at_rest _ := by simp [hdp, Datapath.cleared]

/-- R240, R30: a faulted core has no validity flag and promises nothing. -/
theorem tablesOk_faultEntry (x : HwFault) (s : State) : TablesOk (faultEntry x s) where
  freq_sum h := by cases h
  tree h := by cases h
  code h := by cases h
  hdr h := by cases h
  trie h := by cases h
  result h := by cases h
  tnn_cap h := by cases h
  code_range h := by cases h
  units_at_rest h := by cases h

/-- R121: acceptance sets no validity flag. -/
theorem valid_of_clearAtAcceptance (c : Instr) (f : Status) :
    ((clearAtAcceptance c f).treeValid = true → f.treeValid = true) ∧
    ((clearAtAcceptance c f).codeValid = true → f.codeValid = true) ∧
    ((clearAtAcceptance c f).hdrDone = true → f.hdrDone = true) ∧
    ((clearAtAcceptance c f).trieValid = true → f.trieValid = true) := by
  cases c <;> simp [clearAtAcceptance]

/-- R123: acceptance keeps the promises of the flags it leaves set. -/
theorem tablesOk_accept {s : State} {c : Instr} (h : TablesOk s) : TablesOk (accept c s) := by
  obtain ⟨htree, hcode, hhdr, htrie⟩ := valid_of_clearAtAcceptance c s.status
  exact h.of_eq rfl rfl (fun he => (clearAtAcceptance_err c _).symm.trans he) htree hcode hhdr htrie (by simp)

/-! ### Promises through a phase -/

/-- R40, R142: FREQ leaves counts of fewer than 2^32 bytes. -/
theorem phaseFreq_sum {e : Env} {d d' : Datapath} (h : phaseFreq e d = .ok d') :
    ∃ freq, freqSum freq < 2 ^ 32 ∧ d' = { d with freq := freq, rp := e.inLen } := by
  refine ⟨_, (freqSum_countTable_le _).trans_lt ?_, phaseFreq_inv h⟩
  rw [List.length_map, List.length_range]
  exact e.inLen.isLt

section
variable {s : State} {ps : List Phase} {d : Datapath} (h : TablesOk s) (ho : s.status.outValid = false)
include h ho

theorem tablesOk_freq (hf : phaseFlagsOk .freq s.status) (hd : phaseFreq s.env s.dp = .ok d) :
    TablesOk (endPhase .freq ps d s) := by
  obtain ⟨freq, hsum, rfl⟩ := phaseFreq_sum hd
  obtain ⟨htree, hcode, hhdr⟩ := hf
  exact {
    freq_sum := fun _ => hsum
    tree := fun ht => absurd (htree.symm.trans ht) (by decide)
    code := fun ht => absurd (hcode.symm.trans ht) (by decide)
    hdr := fun ht => absurd (hhdr.symm.trans ht) (by decide)
    trie := h.trie
    result := fun ht => absurd (ho.symm.trans ht) (by decide)
    tnn_cap := h.tnn_cap
    code_range := h.code_range
    units_at_rest := h.units_at_rest }

theorem tablesOk_build (hf : phaseFlagsOk .build s.status) (hd : phaseBuild s.env s.dp = .ok d) :
    TablesOk (endPhase .build ps d s) := by
  obtain ⟨t, ht, rfl⟩ := phaseBuild_inv hd
  obtain ⟨-, hcode, hhdr⟩ := hf
  exact {
    freq_sum := h.freq_sum
    tree := fun _ => ht
    code := fun ht => absurd (hcode.symm.trans ht) (by decide)
    hdr := fun ht => absurd (hhdr.symm.trans ht) (by decide)
    trie := h.trie
    result := fun ht => absurd (ho.symm.trans ht) (by decide)
    tnn_cap := h.tnn_cap
    code_range := h.code_range
    units_at_rest := fun he => ⟨rfl, (h.units_at_rest he).2⟩ }

theorem tablesOk_assign (hf : phaseFlagsOk .assign s.status) (hd : phaseAssign s.env s.dp = .ok d) :
    TablesOk (endPhase .assign ps d s) := by
  obtain ⟨c, hc, rfl⟩ := phaseAssign_inv hd
  obtain ⟨-, -, hhdr⟩ := hf
  exact {
    freq_sum := h.freq_sum
    tree := h.tree
    code := fun _ => hc
    hdr := fun ht => absurd (hhdr.symm.trans ht) (by decide)
    trie := h.trie
    result := fun ht => absurd (ho.symm.trans ht) (by decide)
    tnn_cap := h.tnn_cap
    code_range := fun _ => codesInRange_of_assignCodes hc
    units_at_rest := h.units_at_rest }

theorem tablesOk_wrhdr (hcap : s.outCap < 2 ^ 32) (hd : phaseWrhdr s.env s.dp = .ok d) :
    TablesOk (endPhase .wrhdr ps d s) := by
  have hbytes : headerBytes s.dp.nsyms s.dp.codeLen s.dp.codeVal = s.header := headerBytes_eq_header s.dp.nsyms s.codes
  rw [phaseWrhdr, hbytes] at hd
  have hne : s.header ≠ [] := by
    intro h0
    have := header_length_eq s.dp.nsyms s.codes
    rw [show header s.dp.nsyms s.codes = [] from h0, List.length_nil] at this
    omega
  obtain ⟨hfit, rfl⟩ := putAll_inv hne hcap hd
  exact {
    freq_sum := h.freq_sum
    tree := h.tree
    code := h.code
    hdr := fun _ => ⟨(Nat.zero_add _).symm.trans_le hfit, Memory.map_read_writeAll s.dp.out 0 _⟩
    trie := h.trie
    result := fun ht => absurd (ho.symm.trans ht) (by decide)
    tnn_cap := h.tnn_cap
    code_range := h.code_range
    units_at_rest := h.units_at_rest }

theorem tablesOk_rdhdr (hd : phaseRdhdr s.env s.dp = .ok d) : TablesOk (endPhase .rdhdr ps d s) := by
  obtain ⟨a, t, hr, rfl⟩ := phaseRdhdr_inv hd
  obtain ⟨ha, -⟩ := readHeader_inv hr
  exact {
    freq_sum := h.freq_sum
    tree := h.tree
    code := h.code
    hdr := h.hdr
    trie := fun _ => ⟨s.env, s.dp.tnode, a, hr, Nat.mod_eq_of_lt (by omega), Nat.mod_eq_of_lt (by omega)⟩
    result := fun ht => absurd (ho.symm.trans ht) (by decide)
    tnn_cap := fun _ => readHeader_tnn_le hr
    code_range := h.code_range
    units_at_rest := h.units_at_rest }

theorem tablesOk_dwalk (hcap : s.outCap < 2 ^ 32) (hf : phaseFlagsOk .dwalk s.status)
    (hd : phaseDwalk s.env s.dp = .ok d) : TablesOk (endPhase .dwalk ps d s) := by
  obtain ⟨n, picks, -, -, -, rp, usr, ub, bl, pad, rfl⟩ := phaseDwalk_spec hcap hd
  obtain ⟨-, hhdr⟩ := hf
  exact {
    freq_sum := h.freq_sum
    tree := h.tree
    code := h.code
    hdr := fun ht => absurd (hhdr.symm.trans ht) (by decide)
    trie := h.trie
    result := fun ht => absurd (ho.symm.trans ht) (by decide)
    tnn_cap := h.tnn_cap
    code_range := h.code_range
    units_at_rest := fun he => by
      obtain ⟨hpq, -, -, hnb, hcrem⟩ := h.units_at_rest he
      exact ⟨hpq, rfl, rfl, hnb, hcrem⟩ }

end

/-! ### PACK -/

theorem outBytes_append (s : State) (a m n : Nat) : s.outBytes a (m + n) = s.outBytes a m ++ s.outBytes (a + m) n := by
  simp only [State.outBytes, List.range_add, List.map_append, List.map_map]
  congr 1
  exact List.map_congr_left fun k _ => by rw [Function.comp, Nat.add_assoc]

section
variable {s : State} (hc : ControlOk s) (h : TablesOk s) (hh : s.status.hdrDone = true)
include hc h hh

/-- R174, R175: where HDR_DONE is set, PACK begins the payload where the header ends. -/
theorem header_length_eq_payloadStart : s.header.length = (payloadStart s.dp).toNat := by
  have hcode := hc.hdr_code hh
  rw [payloadStart_toNat]
  exact header_length_of_assignCodes (h.tree (hc.code_tree hcode)) (h.code hcode)

/-- R175: what PACK leaves behind a header, in whatever state `t` has its datapath `d`: the header still stands, OUT begins with
the container of an input, and the packer holds no bits. -/
theorem pack_out {d : Datapath} (hcap : s.outCap < 2 ^ 32) (hd : phasePack s.env s.dp = .ok d) :
    ∃ input : List Byte, input ≠ [] ∧ (∀ b ∈ input, entry s.dp.codeLen b ≠ 0) ∧
      s.header.length + (packBytes s.codes input).length ≤ s.outCap ∧
      ∃ rp csr crem pad, (s.dp.crem = 0 → crem = 0) ∧
        d = { s.dp with
          out := s.dp.out.writeAll s.header.length (packBytes s.codes input)
          wp := BitVec.ofNat 32 (s.header.length + (packBytes s.codes input).length)
          acc := 0, nb := 0, rp := rp, csr := csr, crem := crem, pad := pad } := by
  have hstart := header_length_eq_payloadStart hc h hh
  obtain ⟨input, hne, hcoded, hfit, rp, csr, crem, pad, hcrem, rfl⟩ :=
    phasePack_spec hcap (hstart ▸ (h.hdr hh).1) hd
  refine ⟨input, hne, hcoded, hstart ▸ hfit, rp, csr, crem, pad, hcrem, ?_⟩
  rw [hstart, BitVec.ofNat_add, BitVec.ofNat_toNat, BitVec.setWidth_eq]
  rfl

omit hc in
/-- The promise of HDR_DONE outlasts bytes put behind the header. -/
theorem outBytes_header_writeAll {t : State} (bs : List Byte) (ht : t.dp.out = s.dp.out.writeAll s.header.length bs) :
    t.outBytes 0 s.header.length = s.header := by
  refine Eq.trans ?_ (h.hdr hh).2
  simp only [State.outBytes, ht]
  refine List.map_congr_left fun k hk => Memory.read_writeAll_outside _ _ _ (.inl ?_)
  simpa using hk

theorem tablesOk_pack {ps : List Phase} {d : Datapath} (ho : s.status.outValid = false) (hcap : s.outCap < 2 ^ 32)
    (hd : phasePack s.env s.dp = .ok d) : TablesOk (endPhase .pack ps d s) := by
  obtain ⟨input, -, -, -, rp, csr, crem, pad, hcrem, rfl⟩ := pack_out hc h hh hcap hd
  exact {
    freq_sum := h.freq_sum
    tree := h.tree
    code := h.code
    hdr := fun _ => ⟨(h.hdr hh).1, outBytes_header_writeAll h hh _ rfl⟩
    trie := h.trie
    result := fun ht => absurd (ho.symm.trans ht) (by decide)
    tnn_cap := h.tnn_cap
    code_range := h.code_range
    units_at_rest := fun he => by
      obtain ⟨hpq, hcur, hds, -, hcr⟩ := h.units_at_rest he
      exact ⟨hpq, hcur, hds, rfl, hcrem hcr⟩ }

/-- R36, R177: when PACK has ended, OUT holds the container of the input. -/
theorem resultInOut_pack {t : State} {d : Datapath} (hcap : s.outCap < 2 ^ 32) (hd : phasePack s.env s.dp = .ok d)
    (hdp : t.dp = d) (hlen : t.outLen = d.wp) (hth : t.status.hdrDone = true) : t.resultInOut := by
  obtain ⟨input, hne, hcoded, hfit, rp, csr, crem, pad, -, rfl⟩ := pack_out hc h hh hcap hd
  have hout : t.dp.out = s.dp.out.writeAll s.header.length (packBytes s.codes input) := by rw [hdp]
  have hpos : s.header.length ≠ 0 := by
    rw [header_length_eq_payloadStart hc h hh, payloadStart_toNat]
    omega
  have hn : t.outLen.toNat = s.header.length + (packBytes s.codes input).length := by
    rw [hlen]
    exact Nat.mod_eq_of_lt (by omega)
  refine ⟨fun h0 => ?_, fun _ => ⟨input, hne, ?_, ?_⟩, fun hf => absurd (hth.symm.trans hf) (by decide)⟩
  · rw [h0] at hn
    change 0 = _ at hn
    omega
  · rw [hdp]
    exact hcoded
  · have hpack : t.outBytes (0 + s.header.length) (packBytes s.codes input).length = packBytes s.codes input := by
      rw [Nat.zero_add, State.outBytes, hout]
      exact Memory.map_read_writeAll _ _ _
    have hcont : container t.dp.nsyms t.codes input = s.header ++ packBytes s.codes input := by
      rw [State.codes, hdp]
      exact List.append_assoc _ _ _
    rw [hn, outBytes_append, outBytes_header_writeAll h hh _ hout, hpack, hcont]

end

/-! ### The walk -/

/-- R36, R203: when DWALK has ended, OUT holds the symbols that it came to. -/
theorem resultInOut_dwalk {s t : State} {d : Datapath} (hcap : s.outCap < 2 ^ 32)
    (hd : phaseDwalk s.env s.dp = .ok d) (hdp : t.dp = d) (hlen : t.outLen = d.wp) (hth : t.status.hdrDone = false)
    (htt : t.status.trieValid = true) : t.resultInOut := by
  obtain ⟨n, picks, hne, hpicked, hfit, rp, usr, ub, bl, pad, rfl⟩ := phaseDwalk_spec hcap hd
  have hout : t.dp.out = s.dp.out.writeAll 0 (picks.map Prod.snd) := by rw [hdp]; rfl
  have hn : t.outLen.toNat = (picks.map Prod.snd).length := by
    rw [hlen]
    have hfit0 : (walkStart n s.dp).wp.toNat + (picks.map Prod.snd).length ≤ s.outCap := by
      rw [List.length_map]
      exact (Nat.zero_add _).trans_le hfit
    exact (putBytes_wp hfit0 hcap).trans (Nat.zero_add _)
  refine ⟨fun h0 => ?_, fun hf => absurd (hth.symm.trans hf) (by decide), fun _ => ⟨htt, picks, hne, ?_, ?_⟩⟩
  · rw [h0, List.length_map] at hn
    exact hne (List.length_eq_zero_iff.1 hn.symm)
  · rw [hdp]
    exact hpicked
  · rw [hn, State.outBytes, hout]
    exact Memory.map_read_writeAll _ _ _

/-! ### The invariant -/

/-- R30, R129: the end of a phase other than CLR. -/
theorem tablesOk_endPhase {s : State} {c : Instr} {p : Phase} {ps : List Phase} {d : Datapath} (h : Legal s)
    (hat : AtPhase c p ps s) (hp : p ≠ .clr) (hd : phaseFn p s.env s.dp = .ok d) : TablesOk (endPhase p ps d s) := by
  obtain ⟨hc, hb, ht⟩ := h
  obtain ⟨hf, ho, -⟩ := hc.running_flags p hat.seq
  have hcap := hb.outCap_range.2
  cases p with
  | clr => exact absurd rfl hp
  | freq => exact tablesOk_freq ht ho hf hd
  | build => exact tablesOk_build ht ho hf hd
  | assign => exact tablesOk_assign ht ho hf hd
  | wrhdr => exact tablesOk_wrhdr ht ho hcap hd
  | pack => exact tablesOk_pack hc ht hf ho hcap hd
  | rdhdr => exact tablesOk_rdhdr ht ho hd
  | dwalk => exact tablesOk_dwalk ht ho hcap hf hd

/-- R130: a command that completes keeps the promises, and OUT_VALID, if it is set, is made good by PACK or DWALK. -/
theorem tablesOk_last {s : State} {c : Instr} {p : Phase} {d : Datapath} (h : Legal s) (hat : AtPhase c p [] s)
    (hd : phaseFn p s.env s.dp = .ok d) : TablesOk (complete c (endPhase p [] d s)) := by
  have hst := h.control.status_last (d := d) hat
  obtain ⟨hf, -, -⟩ := h.control.running_flags p hat.seq
  by_cases hp : p = .clr
  · subst hp
    cases hd
    obtain ⟨htree, hcode, hhdr, htrie⟩ := hf
    refine tablesOk_cleared rfl ?_ ?_ ?_ ?_ ?_ <;> rw [hst]
    · exact htree
    · exact hcode
    · exact hhdr
    · exact htrie
    · rfl
  · have herr : (endPhase p [] d s).status.err = false := (setAtPhaseEnd_err p _).trans (h.control.err_false hat hp)
    refine (tablesOk_endPhase h hat hp hd).of_eq rfl rfl (fun _ => herr) ?_ ?_ ?_ ?_ fun hout => ?_
    · rw [hst]; exact id
    · rw [hst]; exact id
    · rw [hst]; exact id
    · rw [hst]; exact id
    · have hcap := h.buffers.outCap_range.2
      have hlast : p = .pack ∨ p = .dwalk := by simpa [hst, -complete_status] using hout
      have hlen : (complete c (endPhase p [] d s)).outLen = d.wp := by rw [outLen_last hat, if_pos hlast]
      rcases hlast with rfl | rfl
      · exact resultInOut_pack h.control h.tables hf hcap hd rfl hlen (by rw [hst]; exact hf)
      · exact resultInOut_dwalk hcap hd rfl hlen (by rw [hst]; exact hf.2) (by rw [hst]; exact hf.1)

/-- Each single move keeps a legal state legal. -/
theorem stepInvariant_legal : StepInvariant Legal := by
  have hcb {s : State} (h : Legal s) : ControlOk s ∧ BuffersOk s := ⟨h.control, h.buffers⟩
  have legal {s : State} (h : ControlOk s ∧ BuffersOk s) (ht : TablesOk s) : Legal s := ⟨h.1, h.2, ht⟩
  have hP := stepInvariant_control_buffers
  exact {
    seq_idle := fun s h => hP.seq_idle s (hcb h)
    queue := fun s ms h => legal (hP.queue s ms (hcb h)) { h.tables with }
    bus := fun s v n h => legal (hP.bus s v n (hcb h)) { h.tables with }
    inLen := fun s v h => legal (hP.inLen s v (hcb h)) { h.tables with }
    ie := fun s b h => legal (hP.ie s b (hcb h)) { h.tables with }
    inp := fun s a b h ha => legal (hP.inp s a b (hcb h) ha) { h.tables with }
    drop := fun s h => legal (hP.drop s (hcb h)) { h.tables with }
    ack := fun s h => legal (hP.ack s (hcb h)) { h.tables with }
    fault := fun s x h => legal (hP.fault s x (hcb h)) (tablesOk_faultEntry x s)
    reset := fun s h => legal (hP.reset s (hcb h)) (tablesOk_cleared rfl rfl rfl rfl rfl rfl)
    accept := fun s c h ho hb he hp => legal (hP.accept s c (hcb h) ho hb he hp) (tablesOk_accept h.tables)
    more := fun s c p q qs d h hat hd =>
      legal (hP.more s c p q qs d (hcb h) hat hd) (tablesOk_endPhase h hat (ne_clr_of_more hat.after) hd)
    last := fun s c p d h hat hd => legal (hP.last s c p d (hcb h) hat hd) (tablesOk_last h hat hd) }

/-- Settles O52: every single move keeps a legal state legal, so every step does. -/
theorem everyStepKeepsTheFlagsPromises : Obligations.EveryStepKeepsTheFlagsPromises :=
  fun _ _ hs h => stepInvariant_legal.step hs h

/-- Settles O54: no flag is set, nothing is listed, and the two opaque capacities are in their range. -/
theorem resetIsLegal : Obligations.ResetIsLegal := by
  have hin := Config.inCapPred.isLt
  have hout := Config.outCapPred.isLt
  refine ⟨?_, ?_, tablesOk_cleared rfl rfl rfl rfl rfl rfl⟩
  · exact { controlOk_hwReset State.reset with }
  · exact {
      inCap_range := ⟨Nat.succ_pos _, by show Config.inCapPred.val + 1 < 2 ^ 32; omega⟩
      outCap_range := ⟨Nat.succ_pos _, by show Config.outCapPred.val + 1 < 2 ^ 32; omega⟩
      inp_wf := rfl
      out_wf := rfl
      tnode_wf := rfl
      inp_bound := by simp [State.reset]
      out_bound := by simp [State.reset, Datapath.cleared] }

end Sys2Proof.Machine

/-!
PROOFS. A command: which next state it answers, and under which conditions (R120, R126, R127, R130, R240), so that a claim
about all commands comes down to the phases. O43 is the first.
-/

namespace Sys2Proof.Machine

/-! ### The next states of a command -/

/-- R120 steps 1 and 2: the command is dropped. -/
def Dropped (c : Instr) (s : State) : Prop := s.status.busy = true ∨ s.status.err = true ∧ takenInFault c = false

/-- The phases of the command `c`, run on the datapath `d` (R129). -/
def phasesRun (c : Instr) : PhaseFn := runAll ((phasesOf c).map phaseFn)

/-- What an operational command leaves when its phases end with the datapath `d`. -/
def succeedWith (c : Instr) (d : Datapath) (s : State) : State := succeed c ((phasesOf c).map fun p => (p, phaseFn p)) d s

theorem offer_dropped {c : Instr} {s : State} (h : Dropped c s) : offer c s = .inl (drop s) := by
  rcases h with hb | ⟨he, ht⟩
  · simp [offer, hb]
  · simp [offer, he, ht]

theorem offer_not_dropped {c : Instr} {s : State} (h : ¬ Dropped c s) :
    offer c s = if prerequisite c s then .inr (accept c s) else .inl (faultEntry .illegalCommand s) := by
  obtain ⟨hb, he⟩ := not_or.1 h
  have he' : ¬ (s.status.err && !takenInFault c) = true := by simpa using he
  rw [offer, if_neg hb, if_neg he']

/-- R120, R130, R240: which next state an operational command answers, and when. -/
theorem exec_next_iff {c : Instr} {s t : State} (ho : operational c = true) :
    exec c s = .next t ↔
      Dropped c s ∧ t = drop s ∨
      ¬ Dropped c s ∧ prerequisite c s = false ∧ t = faultEntry .illegalCommand s ∨
      ¬ Dropped c s ∧ prerequisite c s = true ∧
        ((∃ x, phasesRun c s.env s.dp = .error (.raise x) ∧ t = faultEntry x s) ∨
          ∃ d, phasesRun c s.env s.dp = .ok d ∧ t = succeedWith c d s) := by
  have hmap : ((phasesOf c).map fun p => (p, phaseFn p)).map Prod.snd = (phasesOf c).map phaseFn := by
    simp [Function.comp_def]
  rw [exec_eq_command ho, command]
  by_cases hd : Dropped c s
  · simp only [offer_dropped hd, hd, Host.Outcome.next.injEq, true_and, not_true, false_and, or_false]
    exact eq_comm
  · cases hp : prerequisite c s with
    | false =>
      simp only [offer_not_dropped hd, hd, hp, Host.Outcome.next.injEq, Bool.false_eq_true, if_false, not_false_eq_true,
        true_and, false_and, false_or, or_false]
      exact eq_comm
    | true =>
      simp only [offer_not_dropped hd, hp, if_true, runPhases_eq, env_accept, accept_dp, faultEntry_of_accept, hmap]
      change (match phasesRun c s.env s.dp with
        | .ok d => .next (succeedWith c d s)
        | .error (.raise x) => .next (faultEntry x s)
        | .error (.stuck x) => .fault x) = Host.Outcome.next t ↔ _
      rcases phasesRun c s.env s.dp with (x | x) | d <;> simp [hd, @eq_comm _ t]

/-- R126, R127: the commands without phases change the flags at most. -/
theorem exec_control {c : Instr} (h : operational c = false) :
    ∃ g : Status → Status, ∀ s, exec c s = .next { s with status := g s.status } := by
  cases c with
  | nop =>
    refine ⟨fun f => if f.busy then { f with dropped := true } else f, fun s => ?_⟩
    simp only [exec, execNop, nopWritten]
    split <;> rfl
  | ack =>
    refine ⟨fun f => if f.busy then { f with dropped := true } else { f with done := false, dropped := false }, fun s => ?_⟩
    simp only [exec, execAck, ackWritten]
    split <;> rfl
  | _ => cases h

/-- Settles O43: no case writes one of these fields. -/
theorem commandsKeepTheInput : Obligations.CommandsKeepTheInput := by
  intro c s t h
  cases ho : operational c with
  | true =>
    rcases (exec_next_iff ho).1 h with ⟨-, rfl⟩ | ⟨-, -, rfl⟩ | ⟨-, -, ⟨x, -, rfl⟩ | ⟨d, -, rfl⟩⟩ <;>
      exact ⟨rfl, rfl, rfl, rfl, rfl, rfl, rfl⟩
  | false =>
    obtain ⟨g, hg⟩ := exec_control ho
    rw [hg] at h
    cases h
    exact ⟨rfl, rfl, rfl, rfl, rfl, rfl, rfl⟩

end Sys2Proof.Machine

/-!
PROOFS. The operations of the phases, an equation for each case: as chains (`Except.bind`) of puts and of steps of the walk
(R68, R171, R175, R200, R201).
-/

namespace Sys2Proof.Machine

/-! ### The operations as chains of puts -/

section
variable {e : Env} {d : Datapath}

theorem loop_succ {α ε : Type} (f : α → Except ε α) (n : Nat) (a : α) : loop f (n + 1) a = (f a).bind (loop f n) := by
  rw [loop]
  cases f a <;> rfl

theorem runAll_cons (f : PhaseFn) (fs : List PhaseFn) (e : Env) (d : Datapath) :
    runAll (f :: fs) e d = (f e d).bind (runAll fs e) := by
  rw [runAll]
  cases f e d <;> rfl

theorem putAll_cons (e : Env) (v : Byte) (vs : List Byte) (d : Datapath) :
    putAll e (v :: vs) d = (put8 e v d).bind (putAll e vs) := by
  rw [putAll]
  cases put8 e v d <;> rfl

theorem putAll_append (e : Env) (as bs : List Byte) (d : Datapath) :
    putAll e (as ++ bs) d = (putAll e as d).bind (putAll e bs) := by
  induction as generalizing d with
  | nil => rfl
  | cons v as ih =>
    rw [List.cons_append, putAll_cons, putAll_cons]
    cases put8 e v d with
    | ok d' => exact ih d'
    | error x => rfl

/-- A change of registers that a put neither reads nor writes. -/
def CommutesWithPut (g : Datapath → Datapath) : Prop :=
  ∀ d out wp, g { d with out := out, wp := wp } = { g d with out := out, wp := wp }

theorem CommutesWithPut.put8 {g : Datapath → Datapath} (hg : CommutesWithPut g) (v : Byte) (d : Datapath) :
    put8 e v (g d) = (put8 e v d).map g := by
  have hd : g d = { g d with out := d.out, wp := d.wp } := hg d d.out d.wp
  have hwp : (g d).wp = d.wp := by rw [hd]
  have hout : (g d).out = d.out := by rw [hd]
  rcases put8_cases e v d with ⟨hw, h⟩ | ⟨hw, h⟩
  · rw [h, put8_ok v (hwp ▸ hw), hwp, hout]
    exact congrArg _ (hg d _ _).symm
  · rw [h, put8_overflow v (hwp ▸ hw)]
    rfl

theorem CommutesWithPut.putAll {g : Datapath → Datapath} (hg : CommutesWithPut g) (bs : List Byte) (d : Datapath) :
    putAll e bs (g d) = (putAll e bs d).map g := by
  induction bs generalizing d with
  | nil => rfl
  | cons v vs ih =>
    rw [putAll_cons, putAll_cons, hg.put8]
    cases Machine.put8 e v d with
    | ok d' => exact ih d'
    | error x => rfl

/-- R171: ACC and NB with one bit more. -/
def Datapath.shifted (d : Datapath) (b : Bool) : Datapath :=
  { d with acc := (d.acc <<< 1) ||| (BitVec.ofBool b).setWidth 8, nb := d.nb + 1 }

/-- R171: the packer holds no bits. -/
def Datapath.emptied (d : Datapath) : Datapath := { d with acc := 0, nb := 0 }

theorem pushBit_eq_put8 {b : Bool} (h : d.nb + 1 = 8) :
    pushBit e b d = (put8 e (d.shifted b).acc (d.shifted b)).map Datapath.emptied := by
  simp only [pushBit, if_pos h]
  change (match put8 e (d.shifted b).acc (d.shifted b) with | .ok d2 => Except.ok d2.emptied | .error x => .error x) = _
  cases put8 e (d.shifted b).acc (d.shifted b) <;> rfl

theorem pushBit_eq_ok {b : Bool} (h : d.nb + 1 ≠ 8) : pushBit e b d = .ok (d.shifted b) := by
  simp only [pushBit, if_neg h]
  rfl

theorem sendBit_eq (e : Env) (d : Datapath) :
    sendBit e d = (pushBit e (d.csr.getLsbD (d.crem.toNat - 1)) d).map fun d' => { d' with crem := d'.crem - 1 } := by
  rw [sendBit]
  cases pushBit e (d.csr.getLsbD (d.crem.toNat - 1)) d <;> rfl

/-- R176: a byte of the input that has no code. -/
theorem packByte_uncoded (h : entry d.codeLen (e.inByte d.rp) = 0) : packByte e d = .error (.raise .noCode) := by
  simp only [packByte, if_pos h]

theorem packByte_coded (h : entry d.codeLen (e.inByte d.rp) ≠ 0) :
    packByte e d = loop (sendBit e) (entry d.codeLen (e.inByte d.rp)).toNat
      (d.withSend (d.rp + 1) (entry d.codeVal (e.inByte d.rp)) (entry d.codeLen (e.inByte d.rp))) := by
  simp only [packByte, if_neg h]
  rfl

/-- R172: the byte the flush puts, if there is one. -/
def Datapath.flushed (d : Datapath) : List Byte := if d.nb = 0 then [] else [d.acc <<< (8 - d.nb).toNat]

/-- R172: how many bits of that byte are padding. -/
def Datapath.padBits (d : Datapath) : BitVec 4 := if d.nb = 0 then 0 else 8 - d.nb

/-- R175: the packer at the end of PACK. -/
def Datapath.packed (pad : BitVec 4) (d : Datapath) : Datapath := { d with acc := 0, nb := 0, pad := pad.setWidth 3 }

/-- R172, R175: the end of PACK puts the last byte and the trailer. -/
theorem finishPack_eq (e : Env) (d : Datapath) :
    finishPack e d = (putAll e (d.flushed ++ le32 (d.padBits.setWidth 32)) d).map (Datapath.packed d.padBits) := by
  have hg : CommutesWithPut Datapath.emptied := fun _ _ _ => rfl
  have hput (pad : BitVec 4) (d1 : Datapath) :
      (putAll e (le32 (pad.setWidth 32)) d1.emptied).map (fun d2 => { d2 with pad := pad.setWidth 3 }) =
        (putAll e (le32 (pad.setWidth 32)) d1).map (Datapath.packed pad) := by
    rw [hg.putAll]
    cases putAll e (le32 (pad.setWidth 32)) d1 <;> rfl
  by_cases hn : d.nb = 0
  · simp only [finishPack, flush, Datapath.flushed, Datapath.padBits, if_pos hn, List.nil_append, ← hput 0 d]
    change (match putAll e (le32 ((0 : BitVec 4).setWidth 32)) d.emptied with | .error x => Except.error x | .ok d2 => _) = _
    cases putAll e (le32 ((0 : BitVec 4).setWidth 32)) d.emptied <;> rfl
  · simp only [finishPack, flush, Datapath.flushed, Datapath.padBits, if_neg hn, List.cons_append, List.nil_append, putAll_cons]
    cases put8 e (d.acc <<< (8 - d.nb).toNat) d with
    | error x => rfl
    | ok d1 =>
      refine Eq.trans ?_ (hput (8 - d.nb) d1)
      change (match putAll e (le32 ((8 - d.nb).setWidth 32)) d1.emptied with | .error x => Except.error x | .ok d2 => _) = _
      cases putAll e (le32 ((8 - d.nb).setWidth 32)) d1.emptied <;> rfl

theorem phasePack_empty (d : Datapath) (h : e.inLen = 0) : phasePack e d = .error (.raise .emptyInput) := by
  rw [phasePack, if_pos h]

theorem phasePack_eq (d : Datapath) (h : e.inLen ≠ 0) :
    phasePack e d = (loop (packByte e) e.inLen.toNat (packStart d)).bind (finishPack e) := by
  rw [phasePack, if_neg h]
  change (match loop (packByte e) e.inLen.toNat (packStart d) with | .error x => Except.error x | .ok d' => _) = _
  cases loop (packByte e) e.inLen.toNat (packStart d) <;> rfl

/-! ### The phases that write tables -/

/-- R144: the datapath with the tree of BUILD. -/
def Datapath.withTree (d : Datapath) (t : Tree) : Datapath :=
  { d with node := t.node, nsyms := t.nsyms, nnodes := t.nnodes, root := t.root, pq := [] }

/-- R161: the datapath with the codes of ASSIGN. -/
def Datapath.withCodes (d : Datapath) (c : CodeTable) : Datapath :=
  { d with codeLen := c.len, codeVal := c.val, stack := [] }

/-- R191: the datapath with the trie of RDHDR. -/
def Datapath.withTrie (d : Datapath) (a : Nat) (t : Trie) : Datapath :=
  { d with tnode := t.mem, tnn := t.tnn, da := BitVec.ofNat 9 a, dh := BitVec.ofNat 12 (4 + 9 * a) }

theorem phaseBuild_error {x : HwFault} (h : buildTree d.freq = .error x) : phaseBuild e d = .error (.raise x) := by
  rw [phaseBuild, h]

theorem phaseBuild_ok {t : Tree} (h : buildTree d.freq = .ok t) : phaseBuild e d = .ok (d.withTree t) := by
  rw [phaseBuild, h]
  rfl

theorem phaseAssign_error {x : Stop} (h : assignCodes d.node d.root = .error x) : phaseAssign e d = .error x := by
  rw [phaseAssign, h]

theorem phaseAssign_ok {c : CodeTable} (h : assignCodes d.node d.root = .ok c) : phaseAssign e d = .ok (d.withCodes c) := by
  rw [phaseAssign, h]
  rfl

theorem phaseRdhdr_error {x : Stop} (h : readHeader e d.tnode = .error x) : phaseRdhdr e d = .error x := by
  rw [phaseRdhdr, h]

theorem phaseRdhdr_ok {a : Nat} {t : Trie} (h : readHeader e d.tnode = .ok (a, t)) :
    phaseRdhdr e d = .ok (d.withTrie a t) := by
  rw [phaseRdhdr, h]
  rfl

end

/-! ### One step of the walk, case by case -/

section
variable {e : Env} {d : Datapath}

/-- R201: the child of the present record that a bit leads to. -/
def Datapath.next (d : Datapath) (bit : Bool) : TrieIdx := (d.tnode.read d.cur).child bit

/-- R201: the walk back at the root. -/
def Datapath.toRoot (d : Datapath) : Datapath := { d with cur := 0, dstate := .atRoot }

section
variable {bit : Bool}

theorem walkStep_absent (h0 : d.next bit = 0) : walkStep e bit d = .error (.raise .corruptContainer) := if_pos h0

variable (h0 : d.next bit ≠ 0)
include h0

theorem walkStep_noRecord (hc : trieCap ≤ (d.next bit).toNat) : walkStep e bit d = .error (.stuck .noSuchTrieRecord) :=
  (if_neg h0).trans (if_pos hc)

variable (hc : (d.next bit).toNat < trieCap)
include hc

theorem walkStep_inner (hl : (d.tnode.read (d.next bit)).leaf = false) :
    walkStep e bit d = .ok { d with cur := d.next bit, dstate := .atInternal } :=
  (if_neg h0).trans ((if_neg (Nat.not_le.2 hc)).trans (if_neg (by rw [← Datapath.next, hl]; exact Bool.false_ne_true)))

theorem walkStep_leaf (hl : (d.tnode.read (d.next bit)).leaf = true) :
    walkStep e bit d = (put8 e (d.tnode.read (d.next bit)).sym d).map Datapath.toRoot := by
  refine (if_neg h0).trans ((if_neg (Nat.not_le.2 hc)).trans ((if_pos hl).trans ?_))
  rw [← Datapath.next]
  cases put8 e (d.tnode.read (d.next bit)).sym d <;> rfl

end

end

/-! ### DWALK, case by case -/

/-- The pad count at the end of IN, as DWALK reads it (R99). -/
def Env.trailer (e : Env) : Int := s32 (e.inp.read32 (e.inLen.toNat - 4))

/-- R199, R205: behind a header of `h` bytes there is a trailer, and its pad count is valid. -/
def Env.paddingOk (e : Env) (h : Nat) : Prop :=
  h + 4 ≤ e.inLen.toNat ∧ 0 ≤ e.trailer ∧ e.trailer ≤ 7 ∧ e.trailer.toNat < 8 * (e.inLen.toNat - 4 - h)

/-- R200: how many bits DWALK walks behind a header of `h` bytes. -/
def Env.walkLength (e : Env) (h : Nat) : Nat := 8 * (e.inLen.toNat - 4 - h) - e.trailer.toNat

section
variable {e : Env} {d : Datapath}

theorem phaseDwalk_short (h : e.inLen.toNat < d.dh.toNat + 4) : phaseDwalk e d = .error (.raise .corruptContainer) := by
  rw [phaseDwalk, if_pos h]

theorem phaseDwalk_badPadding (h : d.dh.toNat + 4 ≤ e.inLen.toNat) (hp : ¬ e.paddingOk d.dh.toNat) :
    phaseDwalk e d = .error (.raise .invalidPadding) := by
  rw [phaseDwalk, if_neg (Nat.not_lt.2 h)]
  change (if e.trailer < 0 ∨ 7 < e.trailer then _ else if _ ≤ e.trailer.toNat then _ else _) = _
  by_cases hr : e.trailer < 0 ∨ 7 < e.trailer
  · rw [if_pos hr]
  · rw [if_neg hr, if_pos]
    by_contra hlt
    exact hp ⟨h, by omega, by omega, by omega⟩

theorem phaseDwalk_walk (hp : e.paddingOk d.dh.toNat) :
    phaseDwalk e d = (loop (walkBit e) (e.walkLength d.dh.toNat) (walkStart (e.walkLength d.dh.toNat) d)).bind
      (finishWalk e.trailer) := by
  obtain ⟨h, h0, h7, hlt⟩ := hp
  rw [phaseDwalk, if_neg (Nat.not_lt.2 h)]
  change (if e.trailer < 0 ∨ 7 < e.trailer then _ else if _ ≤ e.trailer.toNat then _ else _) = _
  rw [if_neg (by omega), if_neg (by omega)]
  change (match loop (walkBit e) (e.walkLength d.dh.toNat) (walkStart (e.walkLength d.dh.toNat) d) with
    | .error x => Except.error x
    | .ok d' => finishWalk e.trailer d') = _
  cases loop (walkBit e) (e.walkLength d.dh.toNat) (walkStart (e.walkLength d.dh.toNat) d) <;> rfl

/-- R198, R200: DWALK begins with an empty unpacker at the end of the header. -/
theorem fed_walkStart (e : Env) (n : Nat) (d : Datapath) : Fed e d.dh.toNat 0 (walkStart n d) where
  rp := (BitVec.ofNat_toNat 32 d.dh).symm
  ub := rfl
  usr := fun h => absurd rfl h

end

end Sys2Proof.Machine

/-!
PROOFS. O47: what IN holds at and above IN_LEN affects no phase (R69): FREQ and PACK read one byte for each of IN_LEN rounds,
RDHDR what it has found to fit, DWALK the payload and the trailer.
-/

namespace Sys2Proof.Machine

section
variable {e : Env} {m : Memory}

/-- The environment with another IN. -/
def Env.withInp (e : Env) (m : Memory) : Env := { e with inp := m }

/-- Two loops do the same if their rounds do, along a property that counts the rounds. -/
theorem loop_congr {α ε : Type} {f g : α → Except ε α} {n : Nat} (P : Nat → α → Prop)
    (hfg : ∀ k a, k < n → P k a → f a = g a) (hP : ∀ k a b, k < n → P k a → g a = .ok b → P (k + 1) b) {a : α}
    (ha : P 0 a) : loop f n a = loop g n a := by
  have main : ∀ j k a, k + j = n → P k a → loop f j a = loop g j a := by
    intro j
    induction j with
    | zero => intro k a _ _; rfl
    | succ j ih =>
      intro k a hk ha
      have hka := hfg k a (by omega) ha
      cases hg : g a with
      | ok b => rw [loop_succ_ok f j (hka.trans hg), loop_succ_ok g j hg, ih (k + 1) b (by omega) (hP k a b (by omega) ha hg)]
      | error x => rw [loop_succ_error f j (hka.trans hg), loop_succ_error g j hg]
  exact main n 0 a (Nat.zero_add n) ha

theorem read32_congr {m' : Memory} {n a : Nat} (h : ∀ a < n, m.read a = m'.read a) (ha : a + 4 ≤ n) :
    m.read32 a = m'.read32 a := by
  simp only [Memory.read32]
  rw [h a (by omega), h (a + 1) (by omega), h (a + 2) (by omega), h (a + 3) (by omega)]

theorem readEntry_congr {m' : Memory} {n o : Nat} (h : ∀ a < n, m.read a = m'.read a) (ho : o + 9 ≤ n) (t : Trie) :
    readEntry m o t = readEntry m' o t := by
  simp only [readEntry]
  rw [read32_congr h (by omega), read32_congr h (by omega), h o (by omega)]

theorem readEntries_congr {m' : Memory} {n o k : Nat} (h : ∀ a < n, m.read a = m'.read a) (ho : o + 9 * k ≤ n) (t : Trie) :
    readEntries m k o t = readEntries m' k o t := by
  induction k generalizing o t with
  | zero => rfl
  | succ k ih =>
    simp only [readEntries]
    rw [readEntry_congr h (by omega)]
    cases readEntry m' o t with
    | ok t' => exact ih (by omega) t'
    | error x => rfl

/-- R28, R175: PACK has read `k` bytes after `k` rounds. -/
theorem packByte_rp {k : Nat} {d d' : Datapath} (hd : d.rp = BitVec.ofNat 32 k) (h : packByte e d = .ok d') :
    d'.rp = BitVec.ofNat 32 (k + 1) := by
  obtain ⟨_, _, _, _, rfl⟩ := pushAll_frame (packByte_inv h).2
  rw [BitVec.ofNat_add, ← hd]
  rfl

theorem putAll_withInp (bs : List Byte) (d : Datapath) : putAll (e.withInp m) bs d = putAll e bs d := by
  induction bs generalizing d with
  | nil => rfl
  | cons v vs ih =>
    have hv : put8 (e.withInp m) v d = put8 e v d := rfl
    simp only [putAll, hv]
    cases put8 e v d with
    | ok d' => exact ih d'
    | error x => rfl

theorem finishPack_withInp (d : Datapath) : finishPack (e.withInp m) d = finishPack e d := by
  rw [finishPack_eq, finishPack_eq, putAll_withInp]

/-- R201: a step of the walk leaves the unpacker alone. -/
theorem walkStep_fed {h k : Nat} {bit : Bool} {d d' : Datapath} (hd : Fed e h k d) (hw : walkStep e bit d = .ok d') :
    Fed e h k d' := by
  rcases walkStep_eq e bit d with ⟨-, h1⟩ | ⟨-, -, h1⟩ | ⟨-, -, -, h1⟩ | ⟨-, -, -, ⟨-, h1⟩ | ⟨-, h1⟩⟩ <;>
    rw [h1] at hw <;> cases hw <;> exact ⟨hd.rp, hd.ub, hd.usr⟩

variable (hm : ∀ a < e.inLen.toNat, m.read a = e.inp.read a)
include hm

theorem readHeader_withInp (old : TrieMem) : readHeader (e.withInp m) old = readHeader e old := by
  by_cases h4 : e.inLen.toNat < 4
  · have h4' : (e.withInp m).inLen.toNat < 4 := h4
    rw [readHeader, readHeader, if_pos h4, if_pos h4']
  · have h4' : ¬ (e.withInp m).inLen.toNat < 4 := h4
    have ha : (e.withInp m).inp.read32 0 = e.inp.read32 0 := read32_congr hm (by omega)
    rw [readHeader, readHeader, if_neg h4, if_neg h4', ha]
    by_cases hfit : e.inLen.toNat < 4 + 9 * (s32 (e.inp.read32 0)).toNat
    · have hfit' : (e.withInp m).inLen.toNat < 4 + 9 * (s32 (e.inp.read32 0)).toNat := hfit
      simp only [hfit, hfit', if_true]
    · have hfit' : ¬ (e.withInp m).inLen.toNat < 4 + 9 * (s32 (e.inp.read32 0)).toNat := hfit
      simp only [hfit, hfit', if_false]
      have hr : readEntries (e.withInp m).inp (s32 (e.inp.read32 0)).toNat 4 (Trie.root old) =
        readEntries e.inp (s32 (e.inp.read32 0)).toNat 4 (Trie.root old) := readEntries_congr hm (Nat.le_of_not_lt hfit) _
      rw [hr]

theorem inByte_withInp {w : Word} (h : w.toNat < e.inLen.toNat) : (e.withInp m).inByte w = e.inByte w := hm _ h

/-- R141: FREQ reads the bytes below IN_LEN. -/
theorem phaseFreq_withInp (d : Datapath) : phaseFreq (e.withInp m) d = phaseFreq e d := by
  by_cases h : e.inLen = 0
  · rw [phaseFreq_empty d h, phaseFreq_empty (e := e.withInp m) d h]
  · have hr : (List.range e.inLen.toNat).map m.read = (List.range e.inLen.toNat).map e.inp.read :=
      List.map_congr_left fun a ha => hm a (List.mem_range.1 ha)
    rw [phaseFreq_ok d h, phaseFreq_ok (e := e.withInp m) d h]
    simp only [Env.withInp, hr]

/-- R175: PACK reads one byte in each of its IN_LEN rounds. -/
theorem loop_packByte_withInp (d : Datapath) :
    loop (packByte (e.withInp m)) e.inLen.toNat (packStart d) = loop (packByte e) e.inLen.toNat (packStart d) := by
  refine loop_congr (fun k d => d.rp = BitVec.ofNat 32 k) (fun k d hk hd => ?_) (fun k d d' _ hd h => packByte_rp hd h) rfl
  have hb := inByte_withInp hm (w := d.rp) (by rw [hd, BitVec.toNat_ofNat]; omega)
  unfold packByte
  rw [hb]
  rfl

theorem phasePack_withInp (d : Datapath) : phasePack (e.withInp m) d = phasePack e d := by
  by_cases hl : e.inLen = 0
  · rw [phasePack_empty d hl, phasePack_empty (e := e.withInp m) d hl]
  · have hfin : finishPack (e.withInp m) = finishPack e := funext finishPack_withInp
    rw [phasePack_eq d hl, phasePack_eq (e := e.withInp m) d hl, hfin, ← loop_packByte_withInp hm d]
    rfl

/-- R198: where the unpacker has delivered `k` bits, the next one comes from a byte below IN_LEN. -/
theorem nextBit_withInp {h k : Nat} {d : Datapath} (hd : Fed e h k d) (hlt : h + k / 8 < e.inLen.toNat) :
    nextBit (e.withInp m) d = nextBit e d := by
  have hload : loadByte (e.withInp m) d = loadByte e d := by
    unfold loadByte
    split
    · next hub =>
      have hk : k % 8 = 0 := by
        have := congrArg BitVec.toNat (hd.ub.symm.trans hub)
        rw [BitVec.toNat_ofNat] at this
        change _ = 0 at this
        omega
      have hrp : d.rp.toNat = h + k / 8 := by
        rw [hd.rp, BitVec.toNat_ofNat, Nat.mod_eq_of_lt (by omega)]
        omega
      rw [inByte_withInp hm (hrp ▸ hlt)]
    · rfl
  unfold nextBit
  rw [hload]

theorem trailer_withInp (h : 4 ≤ e.inLen.toNat) : (e.withInp m).trailer = e.trailer :=
  congrArg s32 (read32_congr hm (a := e.inLen.toNat - 4) (by omega))

theorem paddingOk_withInp {h : Nat} : (e.withInp m).paddingOk h ↔ e.paddingOk h := by
  refine and_congr_right fun hs => ?_
  rw [trailer_withInp hm (le_trans (Nat.le_add_left 4 h) hs)]
  rfl

/-- R198, R200: the walk reads the payload, which ends below the trailer. -/
theorem loop_walkBit_withInp {n : Nat} {d : Datapath} (hn : n ≤ 8 * (e.inLen.toNat - 4 - d.dh.toNat)) :
    loop (walkBit (e.withInp m)) n (walkStart n d) = loop (walkBit e) n (walkStart n d) := by
  have hdh := d.dh.isLt
  refine loop_congr (Fed e d.dh.toNat) (fun k d' hk hf => ?_) (fun k d' d'' hk hf h => ?_) (fed_walkStart e n d)
  · rw [walkBit, nextBit_withInp hm hf (by omega)]
    rfl
  · exact walkStep_fed (nextBit_fed hf (by omega)).2 h

/-- R199, R200: DWALK reads the payload and the trailer. -/
theorem phaseDwalk_withInp (d : Datapath) : phaseDwalk (e.withInp m) d = phaseDwalk e d := by
  by_cases hs : e.inLen.toNat < d.dh.toNat + 4
  · rw [phaseDwalk_short hs, phaseDwalk_short (e := e.withInp m) hs]
  by_cases hp : e.paddingOk d.dh.toNat
  · have htr := trailer_withInp hm (by omega)
    have hn : (e.withInp m).walkLength d.dh.toNat = e.walkLength d.dh.toNat := by
      rw [Env.walkLength, htr]
      rfl
    rw [phaseDwalk_walk hp, phaseDwalk_walk ((paddingOk_withInp hm).2 hp), hn, htr,
      loop_walkBit_withInp hm (n := e.walkLength d.dh.toNat) (Nat.sub_le _ _)]
  · rw [phaseDwalk_badPadding (Nat.le_of_not_lt hs) hp,
      phaseDwalk_badPadding (e := e.withInp m) (Nat.le_of_not_lt hs) (mt (paddingOk_withInp hm).1 hp)]

/-- R69: no phase reads a byte of IN at or above IN_LEN. -/
theorem phaseFn_withInp (p : Phase) (d : Datapath) : phaseFn p (e.withInp m) d = phaseFn p e d := by
  cases p with
  | clr | build | assign => rfl
  | wrhdr => exact putAll_withInp _ _
  | freq => exact phaseFreq_withInp hm d
  | pack => exact phasePack_withInp hm d
  | rdhdr => simp only [phaseFn, phaseRdhdr, readHeader_withInp hm]
  | dwalk => exact phaseDwalk_withInp hm d

theorem runAll_withInp (ps : List Phase) (d : Datapath) :
    runAll (ps.map phaseFn) (e.withInp m) d = runAll (ps.map phaseFn) e d := by
  induction ps generalizing d with
  | nil => rfl
  | cons p ps ih =>
    simp only [List.map_cons, runAll, phaseFn_withInp hm]
    cases phaseFn p e d with
    | ok d' => exact ih d'
    | error x => rfl

end

/-- Settles O47: the phases answer the same, so `exec_next_iff` has the same cases. -/
theorem bytesAboveInLenDoNotMatter : Obligations.BytesAboveInLenDoNotMatter := by
  intro c s t m hm h
  cases ho : operational c with
  | true =>
    have hrun : phasesRun c (s.env.withInp m) s.dp = phasesRun c s.env s.dp := runAll_withInp (e := s.env) hm _ _
    refine (exec_next_iff ho).2 ?_
    rcases (exec_next_iff ho).1 h with ⟨hd, rfl⟩ | ⟨hd, hp, rfl⟩ | ⟨hd, hp, ⟨x, hx, rfl⟩ | ⟨d, hx, rfl⟩⟩
    · exact .inl ⟨hd, rfl⟩
    · exact .inr (.inl ⟨hd, hp, rfl⟩)
    · exact .inr (.inr ⟨hd, hp, .inl ⟨x, hrun.trans hx, rfl⟩⟩)
    · exact .inr (.inr ⟨hd, hp, .inr ⟨d, hrun.trans hx, rfl⟩⟩)
  | false =>
    obtain ⟨g, hg⟩ := exec_control ho
    rw [hg] at h ⊢
    cases h
    rfl

end Sys2Proof.Machine

/-!
PROOFS. O46: the core never reads OUT (R66, R134). `WritesOnly` says it of one operation, chains keep it,
and put8 is where it starts.
-/

namespace Sys2Proof.Machine

/-- The datapath with another OUT. -/
def Datapath.withOut (d : Datapath) (m : Memory) : Datapath := { d with out := m }

/-- The bytes of `ws` written at their addresses, one after the other. -/
def Memory.writeEach (m : Memory) (ws : List (Nat × Byte)) : Memory := ws.foldl (fun m w => m.write w.1 w.2) m

/-- After the same writes a byte is what was written, or it is left as it was. -/
theorem Memory.read_writeEach (ws : List (Nat × Byte)) (a : Nat) :
    (∀ m : Memory, (m.writeEach ws).read a = m.read a) ∨ ∃ v, ∀ m : Memory, (m.writeEach ws).read a = v := by
  induction ws with
  | nil => exact .inl fun _ => rfl
  | cons w ws ih =>
    rcases ih with h | ⟨v, h⟩
    · by_cases ha : a = w.1
      · exact .inr ⟨w.2, fun m => (h _).trans (by rw [ha, Memory.read_write_self])⟩
      · exact .inl fun m => (h _).trans (Memory.read_write_other _ _ ha)
    · exact .inr ⟨v, fun m => h _⟩

/-- R66: as a function of what OUT holds, `r` stops the same whatever that is, or it writes the same bytes there and leaves the
same of everything else. -/
def WritesOnly (r : Memory → Except Stop Datapath) : Prop :=
  (∃ x, ∀ m, r m = .error x) ∨ ∃ d ws, ∀ m, r m = .ok (Datapath.withOut d (m.writeEach ws))

namespace WritesOnly

theorem error (x : Stop) : WritesOnly (fun _ => .error x) := .inl ⟨x, fun _ => rfl⟩

theorem ok (d : Datapath) : WritesOnly (fun m => .ok (d.withOut m)) := .inr ⟨d, [], fun _ => rfl⟩

theorem congr {r r' : Memory → Except Stop Datapath} (h : ∀ m, r m = r' m) (hr : WritesOnly r') : WritesOnly r :=
  (funext h : r = r') ▸ hr

theorem bind {r : Memory → Except Stop Datapath} {g : Datapath → Except Stop Datapath} (hr : WritesOnly r)
    (hg : ∀ d : Datapath, WritesOnly (fun m => g (d.withOut m))) : WritesOnly (fun m => (r m).bind g) := by
  rcases hr with ⟨x, hx⟩ | ⟨d, ws, hd⟩
  · exact .inl ⟨x, fun m => congrArg (Except.bind · g) (hx m)⟩
  · rcases hg d with ⟨x, hx⟩ | ⟨d', ws', hd'⟩
    · exact .inl ⟨x, fun m => (congrArg (Except.bind · g) (hd m)).trans (hx _)⟩
    · refine .inr ⟨d', ws ++ ws', fun m => (congrArg (Except.bind · g) (hd m)).trans ((hd' _).trans ?_)⟩
      simp only [Memory.writeEach, List.foldl_append]

theorem map {r : Memory → Except Stop Datapath} (g : Datapath → Datapath) (hr : WritesOnly r)
    (hg : ∀ d m, g (d.withOut m) = (g d).withOut m) : WritesOnly (fun m => (r m).map g) :=
  hr.bind fun d => .inr ⟨g d, [], fun m => congrArg _ (hg d m)⟩

variable (e : Env)

theorem put8 (v : Byte) (d : Datapath) : WritesOnly (fun m => put8 e v (d.withOut m)) := by
  by_cases hw : e.outCap ≤ d.wp.toNat
  · exact .inl ⟨_, fun m => put8_overflow v hw⟩
  · exact .inr ⟨{ d with wp := d.wp + 1 }, [(d.wp.toNat, v)], fun m => put8_ok v (Nat.lt_of_not_le hw)⟩

theorem putAll (bs : List Byte) (d : Datapath) : WritesOnly (fun m => putAll e bs (d.withOut m)) := by
  induction bs generalizing d with
  | nil => exact ok d
  | cons v vs ih => exact .congr (fun m => putAll_cons e v vs (d.withOut m)) ((put8 e v d).bind ih)

theorem loop {f : Datapath → Except Stop Datapath} (hf : ∀ d : Datapath, WritesOnly (fun m => f (d.withOut m))) (n : Nat)
    (d : Datapath) : WritesOnly (fun m => loop f n (d.withOut m)) := by
  induction n generalizing d with
  | zero => exact ok d
  | succ n ih => exact .congr (fun m => loop_succ f n (d.withOut m)) ((hf d).bind ih)

theorem pushBit (b : Bool) (d : Datapath) : WritesOnly (fun m => pushBit e b (d.withOut m)) := by
  by_cases h8 : d.nb + 1 = 8
  · exact .congr (fun m => pushBit_eq_put8 (d := d.withOut m) h8)
      ((put8 e (d.shifted b).acc (d.shifted b)).map Datapath.emptied fun _ _ => rfl)
  · exact .congr (fun m => pushBit_eq_ok (d := d.withOut m) h8) (ok (d.shifted b))

theorem sendBit (d : Datapath) : WritesOnly (fun m => sendBit e (d.withOut m)) :=
  .congr (fun m => sendBit_eq e (d.withOut m))
    ((pushBit e (d.csr.getLsbD (d.crem.toNat - 1)) d).map _ fun _ _ => rfl)

theorem packByte (d : Datapath) : WritesOnly (fun m => packByte e (d.withOut m)) := by
  by_cases hl : entry d.codeLen (e.inByte d.rp) = 0
  · exact .inl ⟨_, fun m => packByte_uncoded (d := d.withOut m) hl⟩
  · exact .congr (fun m => packByte_coded (d := d.withOut m) hl)
      (loop (sendBit e) (entry d.codeLen (e.inByte d.rp)).toNat
        (d.withSend (d.rp + 1) (entry d.codeVal (e.inByte d.rp)) (entry d.codeLen (e.inByte d.rp))))

theorem finishPack (d : Datapath) : WritesOnly (fun m => finishPack e (d.withOut m)) :=
  .congr (fun m => finishPack_eq e (d.withOut m))
    ((putAll e (d.flushed ++ le32 (d.padBits.setWidth 32)) d).map (Datapath.packed d.padBits) fun _ _ => rfl)

theorem walkStep (bit : Bool) (d : Datapath) : WritesOnly (fun m => walkStep e bit (d.withOut m)) := by
  by_cases h0 : d.next bit = 0
  · exact .inl ⟨_, fun m => walkStep_absent (d := d.withOut m) h0⟩
  by_cases hc : trieCap ≤ (d.next bit).toNat
  · exact .inl ⟨_, fun m => walkStep_noRecord (d := d.withOut m) h0 hc⟩
  cases hl : (d.tnode.read (d.next bit)).leaf with
  | false =>
    exact .congr (fun m => walkStep_inner (d := d.withOut m) h0 (Nat.lt_of_not_le hc) hl)
      (ok { d with cur := d.next bit, dstate := .atInternal })
  | true =>
    exact .congr (fun m => walkStep_leaf (d := d.withOut m) h0 (Nat.lt_of_not_le hc) hl)
      ((put8 e (d.tnode.read (d.next bit)).sym d).map Datapath.toRoot fun _ _ => rfl)

theorem walkBit (d : Datapath) : WritesOnly (fun m => walkBit e (d.withOut m)) := by
  have hload (m : Memory) : loadByte e (d.withOut m) = (loadByte e d).withOut m := by
    by_cases hub : d.ub = 0
    · rw [loadByte, loadByte, if_pos hub, if_pos (show (d.withOut m).ub = 0 from hub)]
      rfl
    · rw [loadByte, loadByte, if_neg hub, if_neg (show ¬ (d.withOut m).ub = 0 from hub)]
  have hnext (m : Memory) : nextBit e (d.withOut m) = ((nextBit e d).1, (nextBit e d).2.withOut m) := by
    rw [nextBit, hload]
    rfl
  exact .congr (fun m => by rw [Machine.walkBit, hnext]) (walkStep e (nextBit e d).1 (nextBit e d).2)

theorem finishWalk (pad : Int) (d : Datapath) : WritesOnly (fun m => finishWalk pad (d.withOut m)) := by
  by_cases hc : d.cur ≠ 0
  · exact .inl ⟨_, fun m => if_pos hc⟩
  · exact .congr (fun m => if_neg hc) (ok { d with pad := BitVec.ofNat 3 pad.toNat })

theorem phaseDwalk (d : Datapath) : WritesOnly (fun m => phaseDwalk e (d.withOut m)) := by
  by_cases hs : d.dh.toNat + 4 ≤ e.inLen.toNat
  · by_cases hp : e.paddingOk d.dh.toNat
    · exact .congr (fun m => phaseDwalk_walk (d := d.withOut m) hp)
        ((loop (walkBit e) (e.walkLength d.dh.toNat) (walkStart (e.walkLength d.dh.toNat) d)).bind (finishWalk e.trailer))
    · exact .inl ⟨_, fun m => phaseDwalk_badPadding (d := d.withOut m) hs hp⟩
  · exact .inl ⟨_, fun m => phaseDwalk_short (d := d.withOut m) (Nat.lt_of_not_le hs)⟩

/-- R66, R134: no phase reads OUT. -/
theorem phaseFn (p : Phase) (d : Datapath) : WritesOnly (fun m => phaseFn p e (d.withOut m)) := by
  cases p with
  | clr => exact ok (Datapath.cleared d.out d.tnode)
  | freq =>
    by_cases hl : e.inLen = 0
    · exact .inl ⟨_, fun m => phaseFreq_empty (d.withOut m) hl⟩
    · exact .congr (fun m => phaseFreq_ok (d.withOut m) hl) (ok { d with freq := _, rp := _ })
  | build =>
    cases hb : buildTree d.freq with
    | error x => exact .congr (fun m => phaseBuild_error (e := e) (d := d.withOut m) hb) (error _)
    | ok t => exact .congr (fun m => phaseBuild_ok (e := e) (d := d.withOut m) hb) (ok (d.withTree t))
  | assign =>
    cases hc : assignCodes d.node d.root with
    | error x => exact .congr (fun m => phaseAssign_error (e := e) (d := d.withOut m) hc) (error _)
    | ok c => exact .congr (fun m => phaseAssign_ok (e := e) (d := d.withOut m) hc) (ok (d.withCodes c))
  | wrhdr => exact putAll e (headerBytes d.nsyms d.codeLen d.codeVal) { d with wp := 0 }
  | pack =>
    by_cases hl : e.inLen = 0
    · exact .inl ⟨_, fun m => phasePack_empty (d.withOut m) hl⟩
    · exact .congr (fun m => phasePack_eq (d.withOut m) hl) ((loop (packByte e) _ (packStart d)).bind (finishPack e))
  | rdhdr =>
    cases hr : readHeader e d.tnode with
    | error x => exact .congr (fun m => phaseRdhdr_error (d := d.withOut m) hr) (error _)
    | ok header => exact .congr (fun m => phaseRdhdr_ok (d := d.withOut m) hr) (ok (d.withTrie header.1 header.2))
  | dwalk => exact phaseDwalk e d

theorem runAll (ps : List Phase) (d : Datapath) : WritesOnly (fun m => runAll (ps.map Machine.phaseFn) e (d.withOut m)) := by
  induction ps generalizing d with
  | nil => exact ok d
  | cons p ps ih => exact .congr (fun m => runAll_cons _ _ e (d.withOut m)) ((phaseFn e p d).bind ih)

variable {r : Memory → Except Stop Datapath} {m0 : Memory} {e}

theorem of_error {x : Stop} (hr : WritesOnly r) (h : r m0 = .error x) (m : Memory) : r m = .error x := by
  rcases hr with ⟨y, hy⟩ | ⟨d, ws, hd⟩
  · rw [hy, ← h, hy]
  · rw [hd] at h
    cases h

theorem of_ok {d : Datapath} (hr : WritesOnly r) (h : r m0 = .ok d) :
    ∃ ws, d.out = m0.writeEach ws ∧ ∀ m, r m = .ok (d.withOut (m.writeEach ws)) := by
  rcases hr with ⟨y, hy⟩ | ⟨d', ws, hd⟩
  · rw [hy] at h
    cases h
  · rw [hd] at h
    cases h
    exact ⟨ws, rfl, hd⟩

end WritesOnly

/-- Settles O46: the phases write the same bytes whatever OUT holds; a fault leaves nothing of OUT. -/
theorem commandsNeverReadOut : Obligations.CommandsNeverReadOut := by
  intro c s t m h
  cases ho : operational c with
  | true =>
    have hrun := WritesOnly.runAll s.env (phasesOf c) s.dp
    simp only [exec_next_iff ho] at h ⊢
    rcases h with ⟨hd, rfl⟩ | ⟨hd, hp, rfl⟩ | ⟨hd, hp, ⟨x, hx, rfl⟩ | ⟨d, hx, rfl⟩⟩
    · exact ⟨m, .inl ⟨hd, rfl⟩, fun a => .inr ⟨rfl, rfl⟩⟩
    · exact ⟨_, .inr (.inl ⟨hd, hp, rfl⟩), fun a => .inl rfl⟩
    · exact ⟨_, .inr (.inr ⟨hd, hp, .inl ⟨x, hrun.of_error hx m, rfl⟩⟩), fun a => .inl rfl⟩
    · obtain ⟨ws, hout, hm⟩ := hrun.of_ok hx
      refine ⟨_, .inr (.inr ⟨hd, hp, .inr ⟨_, hm m, rfl⟩⟩), fun a => ?_⟩
      change (m.writeEach ws).read a = d.out.read a ∨ d.out.read a = s.dp.out.read a ∧ (m.writeEach ws).read a = m.read a
      rw [hout]
      rcases Memory.read_writeEach ws a with h | ⟨v, h⟩
      · exact .inr ⟨h _, h m⟩
      · exact .inl ((h m).trans (h _).symm)
  | false =>
    obtain ⟨g, hg⟩ := exec_control ho
    refine ⟨m, ?_⟩
    rw [hg] at h ⊢
    cases h
    exact ⟨rfl, fun a => .inr ⟨rfl, rfl⟩⟩

end Sys2Proof.Machine

/-!
PROOFS. O39: what does not fit OUT. PACK and DWALK are puts of one byte after the other (R68) but for their registers, so that
they overflow where `putAll` does: pushes put the bytes that they fill, a code of the trie puts its symbol.
-/

namespace Sys2Proof.Machine

/-! ### PACK as puts -/

section
variable {e : Env} {d : Datapath}

/-- R46: the packer holding the bits `q`. -/
def Datapath.withPending (d : Datapath) (q : List Bool) : Datapath :=
  { d with acc := accOf q, nb := BitVec.ofNat 4 q.length }

theorem pending_withPending (d : Datapath) {q : List Bool} (h : q.length < 8) : Pending (d.withPending q) q := ⟨h, rfl, rfl⟩

theorem Pending.withPending {q : List Bool} (h : Pending d q) : d.withPending q = d := by
  rw [Datapath.withPending, ← h.nb, ← h.acc]

theorem commutesWithPut_withPending (q : List Bool) : CommutesWithPut (·.withPending q) := fun _ _ _ => rfl

theorem commutesWithPut_withSend (rp csr : Word) (crem : BitVec 6) : CommutesWithPut (·.withSend rp csr crem) :=
  fun _ _ _ => rfl

/-- R171: pushes put the bytes that they fill, and hold the bits left over. -/
theorem pushAll_eq_putAll (bs : List Bool) {q : List Bool} (h : Pending d q) :
    pushAll e bs d = (putAll e (fullBytes (q ++ bs)) d).map (·.withPending (leftOver (q ++ bs))) := by
  induction bs generalizing d q with
  | nil =>
    obtain ⟨hf, hl⟩ := fullBytes_of_short h.short
    rw [List.append_nil, hf, hl]
    exact congrArg Except.ok h.withPending.symm
  | cons b bs ih =>
    have happ : q ++ b :: bs = (q ++ [b]) ++ bs := by simp
    have hlen : (q ++ [b]).length = q.length + 1 := by simp
    by_cases hq : q.length + 1 < 8
    · have hp : pushBit e b d = .ok (d.withPending (q ++ [b])) := by
        rw [pushBit_keep b h hq, Datapath.withPending, hlen]
      simp only [pushAll, hp]
      rw [ih (pending_withPending d (hlen ▸ hq)), (commutesWithPut_withPending _).putAll, happ]
      cases putAll e (fullBytes (q ++ [b] ++ bs)) d <;> rfl
    · have hq8 : q.length + 1 = 8 := by have := h.short; omega
      obtain ⟨hf, hl⟩ := fullBytes_append (hlen.trans hq8) bs
      rw [happ, hf, hl, putAll_cons]
      simp only [pushAll, pushBit_full b h hq8]
      cases put8 e (accOf (q ++ [b])) d with
      | error x => rfl
      | ok d1 =>
        refine (ih (pending_withPending d1 (q := []) (by simp))).trans ?_
        rw [(commutesWithPut_withPending _).putAll, List.nil_append]
        change _ = (putAll e (fullBytes bs) d1).map _
        cases putAll e (fullBytes bs) d1 <;> rfl

/-- The `n` bytes of IN that are read from `rp` on (R28). -/
def Env.bytesFrom (e : Env) (rp : Word) (n : Nat) : List Byte :=
  (List.range n).map fun j => e.inByte (rp + BitVec.ofNat 32 j)

theorem bytesFrom_succ (e : Env) (rp : Word) (n : Nat) :
    e.bytesFrom rp (n + 1) = e.inByte rp :: e.bytesFrom (rp + 1) n := by
  rw [Env.bytesFrom, List.range_succ_eq_map, List.map_cons, List.map_map]
  refine congrArg₂ List.cons (by simp) (List.map_congr_left fun j _ => ?_)
  rw [Function.comp, Nat.succ_eq_add_one, Nat.add_comm, BitVec.ofNat_add, ← BitVec.add_assoc]
  rfl

/-- R175: a coded byte of the input is read, and its code is pushed. -/
theorem packByte_eq_pushAll (h : entry d.codeLen (e.inByte d.rp) ≠ 0) :
    packByte e d = (pushAll e (codeOf ⟨d.codeLen, d.codeVal⟩ (e.inByte d.rp)) d).map
      (·.withSend (d.rp + 1) (entry d.codeVal (e.inByte d.rp)) 0) := by
  rw [← pushAll_withSend]
  exact (if_neg h).trans (send_eq e _ _)

/-- R175: the codes of coded bytes of the input are one run of pushes. -/
theorem loop_packByte_eq {n : Nat} (h : ∀ b ∈ e.bytesFrom d.rp n, entry d.codeLen b ≠ 0) :
    ∃ rp csr crem, loop (packByte e) n d =
      (pushAll e (payloadBits ⟨d.codeLen, d.codeVal⟩ (e.bytesFrom d.rp n)) d).map (·.withSend rp csr crem) := by
  induction n generalizing d with
  | zero => exact ⟨d.rp, d.csr, d.crem, rfl⟩
  | succ n ih =>
    rw [bytesFrom_succ] at h ⊢
    obtain ⟨hb, hrest⟩ := List.forall_mem_cons.1 h
    rw [loop_succ, packByte_eq_pushAll hb, payloadBits, List.flatMap_cons, pushAll_append]
    cases hp : pushAll e (codeOf ⟨d.codeLen, d.codeVal⟩ (e.inByte d.rp)) d with
    | error x => exact ⟨0, 0, 0, rfl⟩
    | ok d1 =>
      obtain ⟨_, _, _, _, hframe⟩ := pushAll_frame hp
      have hlen : d1.codeLen = d.codeLen := by rw [hframe]
      have hval : d1.codeVal = d.codeVal := by rw [hframe]
      obtain ⟨rp, csr, crem, hloop⟩ := ih (d := d1.withSend (d.rp + 1) (entry d.codeVal (e.inByte d.rp)) 0)
        (show ∀ b ∈ e.bytesFrom (d.rp + 1) n, entry d1.codeLen b ≠ 0 by rwa [hlen])
      refine ⟨rp, csr, crem, hloop.trans ?_⟩
      change (pushAll e (payloadBits ⟨d1.codeLen, d1.codeVal⟩ (e.bytesFrom (d.rp + 1) n)) _).map _ =
        (pushAll e (payloadBits ⟨d.codeLen, d.codeVal⟩ (e.bytesFrom (d.rp + 1) n)) d1).map _
      rw [hlen, hval, pushAll_withSend]
      cases pushAll e (payloadBits ⟨d.codeLen, d.codeVal⟩ (e.bytesFrom (d.rp + 1) n)) d1 <;> rfl

/-- R175, R68: where the codes of the first `n` bytes fill more bytes than there is room for, PACK overflows at one of them. -/
theorem loop_packByte_overflow {n : Nat} {bits : List Bool} (hc : ∀ b ∈ e.bytesFrom 0 n, entry d.codeLen b ≠ 0)
    (hbits : payloadBits ⟨d.codeLen, d.codeVal⟩ (e.bytesFrom 0 n) = bits) (h8 : 8 ≤ bits.length)
    (hover : e.outCap < 4 + 9 * d.nsyms.toNat + bits.length / 8) (hcap : e.outCap < 2 ^ 32) :
    loop (packByte e) n (packStart d) = .error (.raise .outputOverflow) := by
  obtain ⟨rp, csr, crem, hloop⟩ := loop_packByte_eq (d := packStart d) hc
  have hput : putAll e (fullBytes bits) (packStart d) = .error (.raise .outputOverflow) := by
    refine putAll_overflow _ ?_ ?_ hcap
    · rw [fullBytes_length]
      exact payloadStart_toNat d ▸ hover
    · rw [← List.length_pos_iff, fullBytes_length]
      omega
  have hp : Pending (packStart d) [] := ⟨by simp, rfl, rfl⟩
  rw [hloop]
  change (pushAll e (payloadBits ⟨d.codeLen, d.codeVal⟩ (e.bytesFrom 0 n)) (packStart d)).map _ = _
  rw [hbits, pushAll_eq_putAll bits hp, List.nil_append, hput]
  rfl

/-- R172: the flush puts a byte if there are bits left over. -/
theorem flushed_length {q : List Bool} (h : Pending d q) : d.flushed.length = (q.length + 7) / 8 := by
  have hshort := h.short
  have hnb : d.nb.toNat = q.length := by
    rw [h.nb, BitVec.toNat_ofNat]
    omega
  unfold Datapath.flushed
  split
  · next h0 =>
    have : d.nb.toNat = 0 := by rw [h0]; rfl
    rw [List.length_nil]
    omega
  · next h0 =>
    have : d.nb.toNat ≠ 0 := fun h1 => h0 (BitVec.eq_of_toNat_eq h1)
    rw [List.length_singleton]
    omega

/-- R175, R68, R179: PACK of a coded input that does not fit with its trailer. -/
theorem phasePack_overflow {bits : List Bool} (hl : e.inLen ≠ 0)
    (hc : ∀ b ∈ e.bytesFrom 0 e.inLen.toNat, entry d.codeLen b ≠ 0)
    (hbits : payloadBits ⟨d.codeLen, d.codeVal⟩ (e.bytesFrom 0 e.inLen.toNat) = bits)
    (hover : e.outCap < 4 + 9 * d.nsyms.toNat + payloadLength bits + 4) (hcap : e.outCap < 2 ^ 32) :
    phasePack e d = .error (.raise .outputOverflow) := by
  obtain ⟨rp, csr, crem, hloop⟩ := loop_packByte_eq (d := packStart d) hc
  change _ = (pushAll e (payloadBits ⟨d.codeLen, d.codeVal⟩ (e.bytesFrom 0 e.inLen.toNat)) (packStart d)).map _ at hloop
  rw [phasePack_eq d hl, hloop, hbits, pushAll_eq_putAll bits (q := []) ⟨by simp, rfl, rfl⟩, List.nil_append]
  -- the bytes of the pushes, of the flush and of the trailer together do not fit
  have hleft := leftOver_length bits
  have hp := pending_withPending (packStart d) (q := leftOver bits) (by omega)
  obtain ⟨last, hlast⟩ : ∃ last, ((packStart d).withPending (leftOver bits)).flushed ++
    le32 (((packStart d).withPending (leftOver bits)).padBits.setWidth 32) = last := ⟨_, rfl⟩
  have hall : putAll e (fullBytes bits ++ last) (packStart d) = .error (.raise .outputOverflow) := by
    refine putAll_overflow _ ?_ (by simp [← hlast, le32]) hcap
    have hlen : last.length = (bits.length % 8 + 7) / 8 + 4 := by
      rw [← hlast, List.length_append, flushed_length hp, hleft]
      rfl
    have hs : (packStart d).wp.toNat = 4 + 9 * d.nsyms.toNat := payloadStart_toNat d
    rw [payloadLength] at hover
    rw [hs, List.length_append, fullBytes_length, hlen]
    omega
  rw [putAll_append] at hall
  cases hfull : putAll e (fullBytes bits) (packStart d) with
  | error x =>
    rw [hfull] at hall
    exact hall
  | ok d1 =>
    rw [hfull] at hall
    have hrest : putAll e last ((d1.withPending (leftOver bits)).withSend rp csr crem) = .error (.raise .outputOverflow) := by
      rw [(commutesWithPut_withSend rp csr crem).putAll, (commutesWithPut_withPending _).putAll]
      exact congrArg (Except.map _ ∘ Except.map _) hall
    refine (finishPack_eq e ((d1.withPending (leftOver bits)).withSend rp csr crem)).trans ?_
    rw [← hlast] at hrest
    exact congrArg (Except.map _) hrest

end

/-! ### DWALK as puts -/

section
variable {e : Env} {d : Datapath}

/-- R201: one step of the walk after the other, on given bits. -/
def walkAll (e : Env) : List Bool → Datapath → Except Stop Datapath
  | [], d => .ok d
  | b :: p, d => (walkStep e b d).bind (walkAll e p)

theorem walkAll_append (e : Env) (p q : List Bool) (d : Datapath) :
    walkAll e (p ++ q) d = (walkAll e p d).bind (walkAll e q) := by
  induction p generalizing d with
  | nil => rfl
  | cons b p ih =>
    simp only [List.cons_append, walkAll]
    cases walkStep e b d with
    | ok d' => exact ih d'
    | error x => rfl

theorem commutesWithPut_toRoot : CommutesWithPut Datapath.toRoot := fun _ _ _ => rfl

/-- R198: the unpacker's registers with new values. -/
def Datapath.withUnpacker (d : Datapath) (rp : Word) (usr : Byte) (ub : BitVec 4) (bl : BitVec 35) : Datapath :=
  { d with rp := rp, usr := usr, ub := ub, bitsLeft := bl }

theorem commutesWithPut_withUnpacker (rp : Word) (usr : Byte) (ub : BitVec 4) (bl : BitVec 35) :
    CommutesWithPut (·.withUnpacker rp usr ub bl) := fun _ _ _ => rfl

/-- R201: a step of the walk neither reads nor writes the unpacker. -/
theorem walkStep_withUnpacker (bit : Bool) (d : Datapath) (rp : Word) (usr : Byte) (ub : BitVec 4) (bl : BitVec 35) :
    walkStep e bit (d.withUnpacker rp usr ub bl) = (walkStep e bit d).map (·.withUnpacker rp usr ub bl) := by
  by_cases h0 : d.next bit = 0
  · rw [walkStep_absent h0, walkStep_absent (d := d.withUnpacker rp usr ub bl) h0]
    rfl
  by_cases hc : trieCap ≤ (d.next bit).toNat
  · rw [walkStep_noRecord h0 hc, walkStep_noRecord (d := d.withUnpacker rp usr ub bl) h0 hc]
    rfl
  have hc := Nat.lt_of_not_le hc
  cases hl : (d.tnode.read (d.next bit)).leaf with
  | false =>
    rw [walkStep_inner h0 hc hl, walkStep_inner (d := d.withUnpacker rp usr ub bl) h0 hc hl]
    rfl
  | true =>
    rw [walkStep_leaf h0 hc hl, walkStep_leaf (d := d.withUnpacker rp usr ub bl) h0 hc hl,
      (commutesWithPut_withUnpacker rp usr ub bl).put8]
    change Except.map _ (Except.map _ (put8 e (d.tnode.read (d.next bit)).sym d)) = _
    cases put8 e (d.tnode.read (d.next bit)).sym d <;> rfl

theorem walkAll_withUnpacker (p : List Bool) (d : Datapath) (rp : Word) (usr : Byte) (ub : BitVec 4) (bl : BitVec 35) :
    walkAll e p (d.withUnpacker rp usr ub bl) = (walkAll e p d).map (·.withUnpacker rp usr ub bl) := by
  induction p generalizing d with
  | nil => rfl
  | cons b p ih =>
    simp only [walkAll, walkStep_withUnpacker]
    cases walkStep e b d with
    | ok d' => exact ih d'
    | error x => rfl

/-- R102: the `n` payload bits from bit `k` on, when the payload starts at IN[h]. -/
def Env.payloadFrom (e : Env) (h k n : Nat) : List Bool :=
  (List.range n).map fun j => (e.inp.read (h + (k + j) / 8)).getLsbD (7 - (k + j) % 8)

theorem payloadFrom_succ (e : Env) (h k n : Nat) :
    e.payloadFrom h k (n + 1) = (e.inp.read (h + k / 8)).getLsbD (7 - k % 8) :: e.payloadFrom h (k + 1) n := by
  rw [Env.payloadFrom, List.range_succ_eq_map, List.map_cons, List.map_map]
  refine congrArg₂ List.cons rfl (List.map_congr_left fun j _ => ?_)
  rw [Function.comp, Nat.succ_eq_add_one, Nat.add_right_comm, Nat.add_assoc k j 1]

/-- R198, R200: the walk of DWALK is the walk on the payload's bits. -/
theorem loop_walkBit_eq {h k n : Nat} (hf : Fed e h k d) (hb : h + (k + n) / 8 < 2 ^ 32) :
    ∃ rp usr ub bl, loop (walkBit e) n d =
      (walkAll e (e.payloadFrom h k n) d).map (·.withUnpacker rp usr ub bl) := by
  induction n generalizing k d with
  | zero => exact ⟨d.rp, d.usr, d.ub, d.bitsLeft, rfl⟩
  | succ n ih =>
    obtain ⟨hbit, hf'⟩ := nextBit_fed hf (by omega)
    obtain ⟨rp, usr, ub, hn⟩ := nextBit_frame e d
    change _ = d.withUnpacker rp usr ub (d.bitsLeft - 1) at hn
    rw [hn] at hf'
    rw [payloadFrom_succ, ← hbit, loop_succ, walkBit, hn, walkStep_withUnpacker, walkAll]
    cases hw : walkStep e (nextBit e d).1 d with
    | error x => exact ⟨0, 0, 0, 0, rfl⟩
    | ok d1 =>
      obtain ⟨rp', usr', ub', bl', hloop⟩ := ih (k := k + 1) (d := d1.withUnpacker rp usr ub (d.bitsLeft - 1))
        ⟨hf'.rp, hf'.ub, hf'.usr⟩ (by omega)
      refine ⟨rp', usr', ub', bl', hloop.trans ?_⟩
      rw [walkAll_withUnpacker]
      change _ = (walkAll e (e.payloadFrom h (k + 1) n) d1).map _
      cases walkAll e (e.payloadFrom h (k + 1) n) d1 <;> rfl

/-- R201: the bits that lead to a leaf put its symbol. -/
theorem walkAll_symbol {p : List Bool} {v : Byte} (h : trieSymbol d.tnode d.cur p = some v) :
    walkAll e p d = (put8 e v d).map Datapath.toRoot := by
  induction p generalizing d with
  | nil => cases h
  | cons b p ih =>
    simp only [trieSymbol] at h
    change (if d.next b = 0 ∨ trieCap ≤ (d.next b).toNat then none else if (d.tnode.read (d.next b)).leaf then
      (if p = [] then some (d.tnode.read (d.next b)).sym else none) else trieSymbol d.tnode (d.next b) p) = some v at h
    split at h
    · cases h
    · next hn =>
      obtain ⟨h0, hc⟩ := not_or.1 hn
      have hc := Nat.lt_of_not_le hc
      split at h
      · next hl =>
        split at h
        · next hp =>
          cases h
          rw [hp, walkAll, walkStep_leaf h0 hc hl]
          cases put8 e (d.tnode.read (d.next b)).sym d <;> rfl
        · cases h
      · next hl =>
        rw [walkAll, walkStep_inner h0 hc (Bool.eq_false_iff.2 hl)]
        refine (ih (d := { d with cur := d.next b, dstate := .atInternal }) h).trans ?_
        rw [CommutesWithPut.put8 (g := fun d' => { d' with cur := d.next b, dstate := .atInternal }) (fun _ _ _ => rfl)]
        cases put8 e v d <;> rfl

/-- R200: from the root the codes of the trie put their symbols. -/
theorem walkAll_picks {picks : List (List Bool × Byte)} (hd : d.toRoot = d)
    (h : ∀ x ∈ picks, trieSymbol d.tnode 0 x.1 = some x.2) :
    walkAll e (picks.flatMap Prod.fst) d = (putAll e (picks.map Prod.snd) d).map Datapath.toRoot := by
  induction picks generalizing d with
  | nil => exact congrArg Except.ok hd.symm
  | cons x picks ih =>
    obtain ⟨hx, hrest⟩ := List.forall_mem_cons.1 h
    have hcur : d.cur = 0 := by rw [← hd]; rfl
    rw [List.flatMap_cons, walkAll_append, walkAll_symbol (hcur ▸ hx), List.map_cons, putAll_cons]
    cases hp : put8 e x.2 d with
    | error y => rfl
    | ok d1 =>
      have htn : d1.tnode = d.tnode := (put8_keepsBuffers hp).tnode
      refine (ih (d := d1.toRoot) rfl (htn ▸ hrest)).trans ?_
      rw [commutesWithPut_toRoot.putAll]
      change _ = (putAll e (picks.map Prod.snd) d1).map _
      cases putAll e (picks.map Prod.snd) d1 <;> rfl

/-- R200, R68, R207: DWALK of a payload that begins with more codes than OUT has bytes. -/
theorem phaseDwalk_overflow {picks : List (List Bool × Byte)} {rest : List Bool} (hp : e.paddingOk d.dh.toNat)
    (h : ∀ x ∈ picks, trieSymbol d.tnode 0 x.1 = some x.2)
    (hbits : e.payloadFrom d.dh.toNat 0 (e.walkLength d.dh.toNat) = picks.flatMap Prod.fst ++ rest)
    (hover : e.outCap < picks.length) (hcap : e.outCap < 2 ^ 32) :
    phaseDwalk e d = .error (.raise .outputOverflow) := by
  have hn : e.walkLength d.dh.toNat ≤ 8 * (e.inLen.toNat - 4 - d.dh.toNat) := Nat.sub_le _ _
  obtain ⟨hh, -⟩ := id hp
  obtain ⟨rp, usr, ub, bl, hloop⟩ := loop_walkBit_eq (fed_walkStart e (e.walkLength d.dh.toNat) d)
    (n := e.walkLength d.dh.toNat) (by omega)
  have hput : putAll e (picks.map Prod.snd) (walkStart (e.walkLength d.dh.toNat) d) = .error (.raise .outputOverflow) := by
    have hw : (walkStart (e.walkLength d.dh.toNat) d).wp.toNat = 0 := rfl
    have hne : picks ≠ [] := List.ne_nil_of_length_pos (by omega)
    exact putAll_overflow _ (by rw [hw, List.length_map]; omega) (by simpa using hne) hcap
  rw [phaseDwalk_walk hp, hloop, hbits, walkAll_append, walkAll_picks (d := walkStart _ d) rfl h, hput]
  rfl

end

/-! ### The four cases -/

/-- R174, R68: WRHDR of a header that does not fit. -/
theorem phaseWrhdr_overflow {e : Env} {d : Datapath} (hover : e.outCap < (header d.nsyms ⟨d.codeLen, d.codeVal⟩).length)
    (hcap : e.outCap < 2 ^ 32) : phaseWrhdr e d = .error (.raise .outputOverflow) := by
  have hb : headerBytes d.nsyms d.codeLen d.codeVal = header d.nsyms ⟨d.codeLen, d.codeVal⟩ :=
    headerBytes_eq_header d.nsyms ⟨d.codeLen, d.codeVal⟩
  have hw : ({ d with wp := 0 } : Datapath).wp.toNat = 0 := rfl
  rw [phaseWrhdr, hb]
  exact putAll_overflow _ (by omega) (List.ne_nil_of_length_pos (by omega)) hcap

theorem bytesFrom_input {s : State} {n : Nat} (h : n ≤ s.inLen.toNat) : s.env.bytesFrom 0 n = s.input.take n := by
  have hlt := s.inLen.isLt
  rw [State.input, ← List.map_take, List.take_range, Nat.min_eq_left h]
  refine List.map_congr_left fun j hj => ?_
  have hj := List.mem_range.1 hj
  exact (congrArg s.env.inByte (by simp)).trans (inByte_ofNat s.env (by omega))

/-- A command of one phase that raises `x`. -/
theorem exec_of_phase_raise {c : Instr} {p : Phase} {s : State} {x : HwFault} (hc : phasesOf c = [p])
    (ho : operational c = true) (hr : s.ready) (hp : prerequisite c s = true)
    (h : phaseFn p s.env s.dp = .error (.raise x)) : exec c s = .next (faultEntry x s) := by
  refine exec_of_raise ho hr hp ?_
  rw [hc, List.map_singleton, runAll_cons, h]
  rfl

/-- Settles O39: each of the three phases is a run of puts (R68) that goes on beyond OUT_CAP. -/
theorem shortOutputOverflows : Obligations.ShortOutputOverflows := by
  intro s hr hcap
  refine ⟨fun hv hlen => ?_, fun hv hpos hin hc hover => ?_, fun pre post hv hin hsplit hc h8 hover => ?_,
    fun picks rest hv hin hpad hpicks hbits hlen => ?_⟩
  · exact exec_of_phase_raise rfl rfl hr (by simp [prerequisite, neededFlag, readsIn, hv]) (phaseWrhdr_overflow hlen hcap)
  · have hl : s.inLen ≠ 0 := fun h => by simp [h] at hpos
    have hbytes : s.env.bytesFrom 0 s.inLen.toNat = s.input := by
      rw [bytesFrom_input le_rfl, List.take_of_length_le (by simp [State.input])]
    exact exec_of_phase_raise rfl rfl hr (by simp [prerequisite, neededFlag, hv, hin])
      (phasePack_overflow (e := s.env) hl (hbytes.symm ▸ hc) (congrArg _ hbytes) hover hcap)
  · have hlen : pre.length + post.length = s.inLen.toNat := by
      rw [← List.length_append, ← hsplit]
      simp [State.input]
    have hbytes : s.env.bytesFrom 0 pre.length = pre := by
      rw [bytesFrom_input (by omega), hsplit, List.take_left]
    have hne : pre ≠ [] := by
      rintro rfl
      simp [payloadBits] at h8
    have hpos := List.length_pos_iff.2 hne
    have hl : s.inLen ≠ 0 := by
      intro h
      have h0 : s.inLen.toNat = 0 := by rw [h]; rfl
      omega
    refine exec_of_phase_raise rfl rfl hr (by simp [prerequisite, neededFlag, hv, hin]) ?_
    refine (phasePack_eq (e := s.env) s.dp hl).trans ?_
    change (loop _ s.inLen.toNat _).bind _ = _
    rw [← hlen, loop_add,
      loop_packByte_overflow (e := s.env) (hbytes.symm ▸ hc) (congrArg _ hbytes) h8 hover hcap]
    rfl
  · have htr : s.env.trailer = s.trailer := s32_read32 s.inp _
    have hp : s.env.paddingOk s.dp.dh.toNat := by
      rw [Env.paddingOk, htr]
      exact hpad
    have hpay : s.env.payloadFrom s.dp.dh.toNat 0 (s.env.walkLength s.dp.dh.toNat) = s.payload s.dp.dh.toNat := by
      rw [Env.walkLength, htr, Env.payloadFrom]
      simp only [Nat.zero_add]
      rfl
    exact exec_of_phase_raise rfl rfl hr (by simp [prerequisite, neededFlag, hv, hin])
      (phaseDwalk_overflow hp hpicks (hpay.trans hbits) (hlen ▸ Nat.lt_succ_self _) hcap)

end Sys2Proof.Machine

/-!
PROOFS. The decoder (R90 to R93): a word decodes to a command exactly when it is that command's own word, and an illegal word
written to CMD runs no command.
-/

namespace Sys2Proof.Machine

/-! ### Opcodes -/

/-- R92: the table of opcodes, read backwards; the sixteen values of OP one by one. -/
theorem opcode_of_ofOpcode {op : BitVec 4} {i : Instr} (h : Instr.ofOpcode op = some i) : i.opcode = op := by
  have table : ∀ op : BitVec 4, ∀ i ∈ Instr.ofOpcode op, i.opcode = op := by decide
  exact table op i h

theorem ofOpcode_eq_some_iff {op : BitVec 4} {i : Instr} : Instr.ofOpcode op = some i ↔ i.opcode = op :=
  ⟨opcode_of_ofOpcode, fun h => h ▸ ofOpcode_opcode i⟩

/-- R92, R93: the opcodes 0 to 11 name a command, 12 to 15 none. -/
theorem exists_opcode_eq_iff (op : BitVec 4) : (∃ i : Instr, i.opcode = op) ↔ op.toNat ≤ 11 := by
  have table : ∀ op : BitVec 4, (Instr.ofOpcode op).isSome = true ↔ op.toNat ≤ 11 := by decide
  simp only [← ofOpcode_eq_some_iff, ← Option.isSome_iff_exists, table]

/-! ### Command words -/

/-- R90: the word of a command by its two fields, ZERO and OP. -/
theorem encode_eq_iff {i : Instr} {w : Word} :
    encode i = w ↔ w.extractLsb' 4 28 = 0 ∧ i.opcode = w.extractLsb' 0 4 := by
  constructor
  · rintro rfl
    exact ⟨BitVec.extractLsb'_append_eq_left, BitVec.extractLsb'_append_eq_right.symm⟩
  · rintro ⟨hzero, hop⟩
    rw [encode, ← hzero, hop]
    exact (BitVec.extractLsb'_append_extractLsb'_eq_extractLsb' rfl).trans BitVec.extractLsb'_eq_self

/-- R91: the decoder inverts the encoder, and accepts nothing else. -/
theorem decodeWord_eq_ok_iff {w : Word} {i : Instr} : decodeWord w = .ok i ↔ encode i = w := by
  rw [encode_eq_iff, ← ofOpcode_eq_some_iff, decodeWord]
  by_cases hzero : w.extractLsb' 4 28 = 0#28
  · cases hop : Instr.ofOpcode (w.extractLsb' 0 4) <;> simp [hzero]
  · simp [hzero]

theorem decodeWord_encode (i : Instr) : decodeWord (encode i) = .ok i := decodeWord_eq_ok_iff.2 rfl

/-- R91: the words the decoder accepts, by their two fields. -/
theorem exists_decodeWord_eq_ok_iff (w : Word) :
    (∃ i, decodeWord w = .ok i) ↔ w.extractLsb' 4 28 = 0 ∧ (w.extractLsb' 0 4).toNat ≤ 11 := by
  simp only [decodeWord_eq_ok_iff, encode_eq_iff, exists_and_left, exists_opcode_eq_iff]

/-- Settles O1: each of the twelve words is the encoder's. -/
theorem twelveWordsDecode : Obligations.TwelveWordsDecode :=
  ⟨decodeWord_encode .nop, decodeWord_encode .clr, decodeWord_encode .freq, decodeWord_encode .build,
    decodeWord_encode .assign, decodeWord_encode .wrhdr, decodeWord_encode .pack, decodeWord_encode .encode,
    decodeWord_encode .rdhdr, decodeWord_encode .dwalk, decodeWord_encode .decode, decodeWord_encode .ack⟩

/-- Settles O2. -/
theorem decodeAfterEncodeIsIdentity : Obligations.DecodeAfterEncodeIsIdentity := fun i _ => decodeWord_encode i

/-- Settles O3: the words accepted are those whose OP some command has, under a zero ZERO. -/
theorem decoderAcceptsExactlyTheLegalWords : Obligations.DecoderAcceptsExactlyTheLegalWords := fun w =>
  ⟨exists_decodeWord_eq_ok_iff w, fun _ => decodeWord_eq_ok_iff.1⟩

/-! ### Illegal words -/

/-- R120 steps 1, 2 and 5: an illegal word is lost while BUSY = 1 or ERR = 1 and faults otherwise. -/
theorem illegalWord_eq (s : State) :
    illegalWord s =
      if s.status.busy = true ∨ s.status.err = true then drop s else faultEntry .illegalCommand s := by
  unfold illegalWord
  cases s.status.busy <;> simp

/-- R93, R254: a pending write to CMD of a word that is no command's is taken from the queue as an illegal word. -/
theorem step_illegalWord {s : State} {w : Word} {ms : List HostMove} (h : s.host = .regWrite 0 w :: ms)
    (hw : ¬ ∃ i, decodeWord w = .ok i) : step s = .next (illegalWord { s with host := ms }) := by
  cases hd : decodeWord w with
  | ok i => exact absurd ⟨i, hd⟩ hw
  | error x => simp [step, h, commandWord, hd]

/-- Settles O5: the decoder rejects the word, so the step is that of an illegal word. -/
theorem illegalWordIsDroppedOrRaisesIllegalCommand : Obligations.IllegalWordIsDroppedOrRaisesIllegalCommand := by
  intro s w ms h hbad
  have hw : ¬ ∃ i, decodeWord w = .ok i := by
    rw [exists_decodeWord_eq_ok_iff]
    rintro ⟨hzero, hop⟩
    exact hbad.elim (· hzero) (by omega)
  rw [step_illegalWord h hw, illegalWord_eq]
  rfl

end Sys2Proof.Machine

/-!
PROOFS. O50, O4, O6, O11, O12, O13, O49, O56: what a write to a register comes to (R120, R126 to R131). A command that is not
dropped ends in fault entry or in its success (`exec_taken`), and the table of R121 is read off acceptance (`accept_status_table`)
and success (`succeedWith_status_table`) flag by flag.
-/

namespace Sys2Proof.Machine

/-! ### Commands that are dropped, and commands that are taken -/

/-- R120 step 2: what a faulted core does not take. -/
theorem takenInFault_eq_false_iff {c : Instr} : takenInFault c = false ↔ c ≠ .nop ∧ c ≠ .ack ∧ c ≠ .clr := by
  cases c <;> simp [takenInFault]

theorem operational_of_takenInFault_eq_false {c : Instr} (h : takenInFault c = false) : operational c = true := by
  cases c with
  | nop | ack => cases h
  | _ => rfl

section
variable {c : Instr} {s t : State}

/-- R120: an idle core takes every command while ERR = 0, and CLR always. -/
theorem not_dropped (hb : s.status.busy = false) (he : s.status.err = false ∨ c = .clr) : ¬ Dropped c s := by
  rintro (hb' | ⟨he', ht⟩)
  · simp [hb] at hb'
  · rcases he with he | rfl
    · simp [he] at he'
    · simp [takenInFault] at ht

variable (ho : operational c = true)
include ho

theorem exec_dropped (h : Dropped c s) : exec c s = .next (drop s) := (exec_next_iff ho).2 (.inl ⟨h, rfl⟩)

theorem startCommand_dropped (h : Dropped c s) : startCommand c s = drop s := by
  rw [startCommand_operational ho, offer_dropped h]
  rfl

/-- R130, R240: a command that is taken ends in fault entry or in its success. -/
theorem exec_taken (h : ¬ Dropped c s) (ht : exec c s = .next t) :
    (∃ x, t = faultEntry x s) ∨ ∃ d, t = succeedWith c d s := by
  rcases (exec_next_iff ho).1 ht with ⟨hd, -⟩ | ⟨-, -, hx⟩ | ⟨-, -, ⟨x, -, hx⟩ | ⟨d, -, hs⟩⟩
  · exact absurd hd h
  · exact .inl ⟨_, hx⟩
  · exact .inl ⟨x, hx⟩
  · exact .inr ⟨d, hs⟩

end

/-- A busy core drops every command in phase steps too (R120 step 1). -/
theorem startCommand_busy (i : Instr) {s : State} (hb : s.status.busy = true) : startCommand i s = drop s := by
  cases i with
  | nop => exact if_pos hb
  | ack => exact if_pos hb
  | _ => exact startCommand_dropped rfl (.inl hb)

/-- Settles O6: a busy core drops every command, a faulted one the operational commands but CLR. -/
theorem busyOrFaultedCoreDropsCommands : Obligations.BusyOrFaultedCoreDropsCommands := by
  rintro i s (hb | ⟨he, hc⟩)
  · exact ⟨exec_busy i hb, startCommand_busy i hb⟩
  · have ht : takenInFault i = false := takenInFault_eq_false_iff.2 hc
    have ho : operational i = true := operational_of_takenInFault_eq_false ht
    exact ⟨exec_dropped ho (.inr ⟨he, ht⟩), startCommand_dropped ho (.inr ⟨he, ht⟩)⟩

/-! ### NOP, ACK, CLR -/

theorem exec_nop_idle {s : State} (hb : s.status.busy = false) : exec .nop s = .next s := by
  simp [exec, execNop, nopWritten, hb]

theorem exec_ack_idle {s : State} (hb : s.status.busy = false) :
    exec .ack s = .next { s with status := { s.status with done := false, dropped := false } } := by
  simp [exec, execAck, ackWritten, hb]

/-- R128: CLR has no prerequisite and its phase raises nothing, so an idle core always completes it. -/
theorem exec_clr_idle {s : State} (hb : s.status.busy = false) :
    exec .clr s = .next (succeedWith .clr (Datapath.cleared s.dp.out s.dp.tnode) s) :=
  (exec_next_iff rfl).2 (.inr (.inr ⟨not_dropped hb (.inr rfl), rfl, .inr ⟨_, rfl, rfl⟩⟩))

/-- Settles O11: an idle core keeps its state, a busy one drops the command. -/
theorem nopChangesNothing : Obligations.NopChangesNothing :=
  ⟨rfl, fun _ => exec_nop_idle, fun _ => exec_busy .nop⟩

/-- Settles O12: an idle core clears the two flags, a busy one drops the command. -/
theorem ackClearsDoneAndDropped : Obligations.AckClearsDoneAndDropped :=
  ⟨rfl, fun _ => exec_ack_idle, fun _ => exec_busy .ack⟩

/-- Settles O13: the traversal stack ends empty, and TNODE is kept (log 3, log 5). -/
theorem clrClearsTablesFlagsAndFault : Obligations.ClrClearsTablesFlagsAndFault :=
  ⟨rfl, fun s hb => ⟨[], s.dp.tnode, exec_clr_idle hb⟩, fun _ => exec_busy .clr⟩

/-! ### Acceptance -/

/-- R121, R123: the column "cleared at acceptance", flag by flag. -/
theorem accept_status_table (c : Instr) (s : State) :
    (accept c s).status = { s.status with
      busy := true, done := false, outValid := false
      treeValid := if c ∈ [.clr, .freq, .build, .encode] then false else s.status.treeValid
      codeValid := if c ∈ [.clr, .freq, .build, .assign, .encode] then false else s.status.codeValid
      hdrDone := if c ∈ [.clr, .freq, .build, .assign, .wrhdr, .encode, .dwalk, .decode] then false
        else s.status.hdrDone
      trieValid := if c ∈ [.clr, .rdhdr, .decode] then false else s.status.trieValid } := by
  cases c <;> rfl

/-- R123: what acceptance writes besides the flags. -/
theorem accept_eq {c : Instr} {p : Phase} {ps : List Phase} (hp : phasesOf c = p :: ps) (s : State) :
    accept c s = { s with status := (accept c s).status, outLen := 0, opl := c.opcode, seq := .run p } := by
  simp [accept, hp]

/-- Settles O49: such a command is accepted, and its first phase is the one SEQ names. -/
theorem acceptanceFixesTheFlags : Obligations.AcceptanceFixesTheFlags := by
  intro i s ho hb he hpre
  obtain ⟨p, ps, hp⟩ := phasesOf_operational ho
  rw [startCommand_accepted ho hb he hpre]
  refine ⟨Bool.and_false _, p, ps, hp, ?_⟩
  rw [← accept_status_table]
  exact accept_eq hp s

/-! ### Completion -/

/-- R121, R130: the flags at success, flag by flag. -/
theorem succeedWith_status_table (c : Instr) (d : Datapath) (s : State) :
    (succeedWith c d s).status =
      { busy := false, done := true
        err := if c = .clr then false else s.status.err
        dropped := if c = .clr then false else s.status.dropped
        treeValid := if c ∈ [.build, .encode] then true else if c ∈ [.clr, .freq] then false else s.status.treeValid
        codeValid := if c ∈ [.assign, .encode] then true else if c ∈ [.clr, .freq, .build] then false
          else s.status.codeValid
        hdrDone := if c ∈ [.wrhdr, .encode] then true
          else if c ∈ [.clr, .freq, .build, .assign, .dwalk, .decode] then false else s.status.hdrDone
        trieValid := if c ∈ [.rdhdr, .decode] then true else if c = .clr then false else s.status.trieValid
        outValid := decide (c ∈ [.pack, .encode, .dwalk, .decode]) } := by
  cases c <;> rfl

/-- R121, last column. -/
theorem outLenAtSuccess_eq (c : Instr) (d : Datapath) :
    outLenAtSuccess c d = if c ∈ [.pack, .encode, .dwalk, .decode] then d.wp else 0 := by
  cases c <;> rfl

/-- R130, R232: completion sets DONE, so irq is CTRL.IE. -/
theorem irq_of_done {s : State} (h : s.status.done = true) : s.irq = s.ie := by
  simp [State.irq, h]

/-- Settles O50: after fault entry ERR = 1, and success is as R121's table says. -/
theorem completionFixesTheFlagsAndIrq : Obligations.CompletionFixesTheFlagsAndIrq := by
  intro i s t ho hb he ht
  rcases exec_taken ho (not_dropped hb he) ht with ⟨x, rfl⟩ | ⟨d, rfl⟩
  · exact ⟨rfl, rfl, rfl, rfl, irq_of_done rfl, fun herr => by simp at herr⟩
  · have hst := succeedWith_status_table i d s
    have hdone : (succeedWith i d s).status.done = true := by rw [hst]
    have herr : (if i = .clr then false else s.status.err) = false := by
      rcases he with he | rfl
      · simp [he]
      · rfl
    refine ⟨by rw [hst], hdone, rfl, rfl, irq_of_done hdone, fun _ => ⟨rfl, outLenAtSuccess_eq i d, ?_⟩⟩
    rw [hst, herr]

/-! ### Steps -/

section
variable {s : State} {ms : List HostMove}

/-- R120: a pending write of a command's word to CMD runs that command. -/
theorem step_command {w : Word} {i : Instr} (h : s.host = .regWrite 0 w :: ms) (hw : decodeWord w = .ok i) :
    step s = exec i { s with host := ms } := by
  simp [step, h, commandWord, hw]

/-- R13: every other pending access is the host's. -/
theorem step_hostAccess {m : HostMove} (h : s.host = m :: ms) (hm : commandWord m = none) :
    step s = hostAccess m { s with host := ms } := by
  simp [step, h, hm]

/-- R254: with nothing pending the sequencer steps. -/
theorem step_nothing_pending (h : s.host = []) : step s = sequencerStep s := by
  simp [step, h]

end

/-- R77 (log 7): the queued word is the given one. -/
theorem withFetchWord_toNat (s : State) (w : Word) : s.withFetchWord 32 w.toNat = queueCommandWord w s := by
  rw [State.withFetchWord, Nat.mod_eq_of_lt w.isLt, BitVec.ofNat_toNat, BitVec.setWidth_eq]

/-- R11 (log 8): the start of an illegal word comes to what R93 says. -/
theorem hostAccess_startCommand_illegal {w : Word} (hw : ∀ i, decodeWord w ≠ .ok i) (s : State) :
    hostAccess (.startCommand w) s = .next (illegalWord s) := by
  cases hd : decodeWord w with
  | ok i => exact absurd hd (hw i)
  | error x => simp [hostAccess, hd]

/-- Settles O4: one clause for each kind of pending access. -/
theorem stepRunsTheDecodedCommand : Obligations.StepRunsTheDecodedCommand := by
  refine ⟨fun s w i hw => ⟨fun ms h => step_command h hw, ?_, fun ms h => ?_⟩, fun s w ms h hw => ?_,
    fun s ms h => step_hostAccess h rfl, fun s h => ⟨step_nothing_pending h, fun hidle => ?_⟩⟩
  · rw [withFetchWord_toNat, step_command (queueCommandWord_host w s) hw, queueCommandWord_pop]
  · rw [step_hostAccess h rfl]
    simp [hostAccess, hw]
  · rw [step_hostAccess h rfl, hostAccess_startCommand_illegal hw, illegalWord_eq]
    rfl
  · rw [step_nothing_pending h, sequencerStep_idle hidle]

/-! ### Writes of REG at another offset than CMD -/

theorem commandWord_regWrite {off : Nat} (h : off ≠ 0) (v : Word) : commandWord (.regWrite off v) = none := if_neg h

/-- R31, R35, R37, R131: what a write at an offset of the map stores. -/
theorem regWrite_ok {off : Nat} (hok : regOffsetOk off = true) (v : Word) (s : State) :
    regWrite off v s = .next
      (if off = 0x0C then (if s.status.busy then drop s else { s with inLen := v })
      else if off = 0x14 then (if s.status.busy then drop s else { s with ie := v.getLsbD 0 })
      else s) := by
  have hno : ¬ (!regOffsetOk off) = true := by simp [hok]
  rw [regWrite, if_neg hno]
  by_cases hlen : off = 0x0C
  · simp only [if_pos hlen]
  · by_cases hctrl : off = 0x14
    · simp only [if_neg hlen, if_pos hctrl]
    · simp only [if_neg hlen, if_neg hctrl]

/-- Settles O56: a write at another offset than CMD is an access of `regWrite`. -/
theorem registerWritesStoreDropOrIgnore : Obligations.RegisterWritesStoreDropOrIgnore := by
  intro s off v ms h hlt h4 h0
  rw [step_hostAccess h (commandWord_regWrite h0 v)]
  exact regWrite_ok (by simp [regOffsetOk, hlt, h4]) v _

end Sys2Proof.Machine

/-!
PROOFS. What BUILD leaves in NODE (R144 to R151). Between two merges the builder holds the leaves, then the merges made, then FREE
records; PQ holds exactly the members that no merge has removed, and their weights sum to all counts (`Merging`). A merge keeps
that, because the record it writes changes nothing below its own index.
-/

namespace Sys2Proof.Machine

/-! ### The write of a record leaves what is below it alone -/

section
variable {t : NodeTable} {n k m : Nat} {x : Node} {i j : NodeIdx}

theorem set_node_below {l : Nat} (hl : l < m) : (t.setIfInBounds m x)[l]? = t[l]? := by
  rw [Vector.getElem?_setIfInBounds, if_neg (Nat.ne_of_gt hl)]

theorem set_node_self (hm : m < 511) : (t.setIfInBounds m x)[m]? = some x := by
  rw [Vector.getElem?_setIfInBounds, if_pos rfl, if_pos hm]

theorem weightOf_of_nodeAt {r : Node} (h : nodeAt t i = some r) : weightOf t i = r.weight := by
  rw [weightOf, h, Option.getD_some]

theorem weightOf_set (hi : i.toNat < m) : weightOf (t.setIfInBounds m x) i = weightOf t i := by
  rw [weightOf, weightOf, nodeAt, nodeAt, set_node_below hi]

theorem before_set (hi : i.toNat < m) (hj : j.toNat < m) : before (t.setIfInBounds m x) i j = before t i j := by
  rw [before, before, weightOf_set hi, weightOf_set hj]

theorem availableAt_set (hk : k ≤ m) : availableAt (t.setIfInBounds m x) n k j ↔ availableAt t n k j := by
  have hbelow {k' : Nat} (h : k' < k) : (t.setIfInBounds m x)[k']? = t[k']? := set_node_below (Nat.lt_of_lt_of_le h hk)
  refine and_congr_right fun _ => forall_congr' fun k' => forall_congr' fun _ => forall_congr' fun hk' => ?_
  rw [hbelow hk']

end

/-! ### One merge -/

/-- R147, R148: record `k`, over `n` leaves, is the merge of the two least members that PQ has when it is made. -/
structure LeastMerge (t : NodeTable) (n k : Nat) (r : Node) : Prop where
  kind : r.kind = .internal
  sym : r.sym = 0
  weight : r.weight = weightOf t r.left + weightOf t r.right
  right : availableAt t n k r.right
  left : availableAt t n k r.left
  ordered : before t r.right r.left = true
  least : ∀ j, availableAt t n k j → j ≠ r.right → j ≠ r.left → before t r.left j = true

section
variable {t : NodeTable} {n k m : Nat} {x r : Node} {j : NodeIdx}

/-- A later record takes nothing from an earlier merge. -/
theorem LeastMerge.set (h : LeastMerge t n k r) (hk : k ≤ m) : LeastMerge (t.setIfInBounds m x) n k r where
  kind := h.kind
  sym := h.sym
  weight := by rw [weightOf_set (h.left.1.trans_le hk), weightOf_set (h.right.1.trans_le hk), h.weight]
  right := (availableAt_set hk).2 h.right
  left := (availableAt_set hk).2 h.left
  ordered := by rw [before_set (h.right.1.trans_le hk) (h.left.1.trans_le hk), h.ordered]
  least := by
    intro j hj hr hl
    have hj := (availableAt_set hk).1 hj
    rw [before_set (h.left.1.trans_le hk) (hj.1.trans_le hk), h.least j hj hr hl]

/-- The record made last is in PQ: children lie below their parents. -/
theorem availableAt_last (hm : ∀ k' r, n ≤ k' → k' < k + 1 → t[k']? = some r → LeastMerge t n k' r) (hj : j.toNat = k) :
    availableAt t n (k + 1) j := by
  refine ⟨by omega, fun k' hn hk' r hr => ?_⟩
  have hleft := (hm k' r hn hk' hr).left.1
  have hright := (hm k' r hn hk' hr).right.1
  constructor <;> rintro rfl <;> omega

/-- R144: the merge that makes record `k` takes its children from PQ and puts `k` in. -/
theorem availableAt_succ (hm : ∀ k' r, n ≤ k' → k' < k + 1 → t[k']? = some r → LeastMerge t n k' r) (hn : n ≤ k)
    (hr : t[k]? = some r) :
    availableAt t n (k + 1) j ↔ (availableAt t n k j ∧ j ≠ r.left ∧ j ≠ r.right) ∨ j.toNat = k := by
  constructor
  · rintro ⟨hlt, hkept⟩
    obtain ⟨hl, hr⟩ := hkept k hn k.lt_succ_self r hr
    rcases Nat.lt_succ_iff_lt_or_eq.1 hlt with hlt | heq
    · exact .inl ⟨⟨hlt, fun k' hn' hk' => hkept k' hn' (Nat.lt_succ_of_lt hk')⟩, hl.symm, hr.symm⟩
    · exact .inr heq
  · rintro (⟨⟨hlt, hkept⟩, hl, hr'⟩ | heq)
    · refine ⟨Nat.lt_succ_of_lt hlt, fun k' hn' hk' r' hr'' => ?_⟩
      rcases Nat.lt_succ_iff_lt_or_eq.1 hk' with hk' | rfl
      · exact hkept k' hn' hk' r' hr''
      · obtain rfl : r = r' := Option.some.inj (hr.symm.trans hr'')
        exact ⟨hl.symm, hr'.symm⟩
    · exact availableAt_last hm heq

end

/-! ### The sum of the counts -/

/-- R40: the symbols outside the alphabet add nothing. -/
theorem freqSum_eq_alphabet (freq : WordTable) : freqSum freq = ((alphabet freq).map fun b => (entry freq b).toNat).sum := by
  rw [freqSum, toList_eq_map_entry, alphabet, List.map_map]
  induction List.range 256 with
  | nil => rfl
  | cons i is ih =>
    rw [List.map_cons, List.map_cons, List.sum_cons, ih, List.filter_cons]
    by_cases h : entry freq (BitVec.ofNat 8 i) = 0
    · rw [if_neg (by simpa using h), Function.comp, h]
      exact Nat.zero_add _
    · rw [if_pos (by simpa using h), List.map_cons, List.sum_cons, Function.comp]

theorem sum_entries (freq : WordTable) : ((alphabet freq).map (entry freq)).sum = BitVec.ofNat 32 (freqSum freq) := by
  rw [freqSum_eq_alphabet]
  induction alphabet freq with
  | nil => rfl
  | cons b bs ih =>
    rw [List.map_cons, List.sum_cons, ih, List.map_cons, List.sum_cons, BitVec.ofNat_add, BitVec.ofNat_toNat,
      BitVec.setWidth_eq]

/-! ### The builder between two merges -/

/-- R144, R151: the builder between two merges, over the leaves of `freq`. -/
structure Merging (freq : WordTable) (b : Builder) : Prop where
  forest : Forest (alphabet freq) (alphabet freq).length b
  leaves_le : (alphabet freq).length ≤ b.k
  leaf : ∀ (j : Nat) (c : Byte), (alphabet freq)[j]? = some c → b.node[j]? = some (leafOf freq c)
  merged : ∀ (k : Nat) (r : Node), (alphabet freq).length ≤ k → k < b.k → b.node[k]? = some r →
    LeastMerge b.node (alphabet freq).length k r
  unused : ∀ (j : Nat) (r : Node), b.k ≤ j → b.node[j]? = some r → r = Node.empty
  nodup : b.pq.Nodup
  mem_pq : ∀ j, j ∈ b.pq ↔ availableAt b.node (alphabet freq).length b.k j
  total : (b.pq.map (weightOf b.node)).sum = BitVec.ofNat 32 (freqSum freq)

/-- R145: record `j` is the leaf of the `j`-th symbol of the alphabet. -/
theorem leafBuilder_node {freq : WordTable} {j : Nat} {c : Byte} (h : (alphabet freq)[j]? = some c) :
    (leafBuilder freq).node[j]? = some (leafOf freq c) := by
  have hj := (List.getElem?_eq_some_iff.1 h).1
  have hsize := alphabet_length_le freq
  exact (buildLeaves_node freq (by omega)).trans (by rw [h]; rfl)

/-- R144: the leaves, all of them in PQ. -/
theorem merging_leaves (freq : WordTable) : Merging freq (leafBuilder freq) where
  forest := forest_leaves freq
  leaves_le := (buildLeaves_k freq).ge
  leaf := fun _ _ => leafBuilder_node
  merged := by
    intro k r hn hk
    have hk : k < (buildLeaves freq).k := hk
    rw [buildLeaves_k] at hk
    omega
  unused := by
    intro j r hj hr
    have hr := hr.symm.trans (buildLeaves_node freq (lt_of_node hr))
    rw [List.getElem?_eq_none ((buildLeaves_k freq).ge.trans hj)] at hr
    exact Option.some.inj hr
  nodup := by
    have hsize := alphabet_length_le freq
    refine List.Nodup.map_on (fun i hi j hj h => ?_) List.nodup_range
    rw [List.mem_range, buildLeaves_k] at hi hj
    have h := congrArg BitVec.toNat h
    rw [BitVec.toNat_ofNat, BitVec.toNat_ofNat] at h
    omega
  mem_pq := by
    intro j
    have hk := buildLeaves_k freq
    constructor
    · intro hj
      obtain ⟨i, hi, rfl⟩ := List.mem_map.1 hj
      have hi := List.mem_range.1 hi
      refine ⟨?_, fun k' hn hk' => absurd (hn.trans_lt hk') (by rw [← hk]; exact lt_irrefl _)⟩
      rw [BitVec.toNat_ofNat]
      exact (Nat.mod_le _ _).trans_lt hi
    · rintro ⟨hj, -⟩
      exact List.mem_map.2 ⟨j.toNat, List.mem_range.2 hj, by simp⟩
  total := by
    have hsize := alphabet_length_le freq
    rw [← sum_entries]
    congr 1
    apply List.ext_getElem
    · simp
    · intro i h1 h2
      have hi : i < (alphabet freq).length := by simpa using h2
      have hnode : nodeAt (leafBuilder freq).node (BitVec.ofNat 9 i) = some (leafOf freq (alphabet freq)[i]) :=
        (nodeAt_ofNat _ (by omega)).trans (leafBuilder_node (List.getElem?_eq_getElem hi))
      simpa [leafBuilder, leafOf] using weightOf_of_nodeAt hnode

/-- R144, R147, R148: a merge writes the record of the two least members of PQ, and puts it in their place. -/
theorem Merging.mergeStep_eq {freq : WordTable} {b : Builder} (h : Merging freq b) (hq : 2 ≤ b.pq.length) :
    ∃ r, LeastMerge b.node (alphabet freq).length b.k r ∧ r.right ∈ b.pq ∧ r.left ∈ b.pq.erase r.right ∧
      mergeStep b =
        { node := b.node.setIfInBounds b.k r
          pq := (b.pq.erase r.right).erase r.left ++ [BitVec.ofNat 9 b.k]
          k := b.k + 1 } := by
  obtain ⟨m1, m2, hm1, hm2, hl1, hl2, heq⟩ := mergeStep_spec b hq
  obtain ⟨hne, hm2'⟩ := h.nodup.mem_erase_iff.1 hm2
  refine ⟨⟨.internal, 0, weightOf b.node m1 + weightOf b.node m2, m2, m1⟩, ?_, hm1, hm2, heq⟩
  exact {
    kind := rfl
    sym := rfl
    weight := add_comm _ _
    right := (h.mem_pq m1).1 hm1
    left := (h.mem_pq m2).1 hm2'
    ordered := hl1 m2 hm2' hne
    least := fun j hj hj1 hj2 => hl2 j (h.nodup.mem_erase_iff.2 ⟨hj1, (h.mem_pq j).2 hj⟩) hj2 }

/-- R148, R151: a record that weighs as much as its children takes their place in the sum. -/
theorem sum_weights_merge {t : NodeTable} {pq : List NodeIdx} {k : Nat} {r : Node} (hright : r.right ∈ pq)
    (hleft : r.left ∈ pq.erase r.right) (hw : r.weight = weightOf t r.left + weightOf t r.right)
    (hlt : ∀ j ∈ pq, j.toNat < k) (hk : k < 511) :
    (((pq.erase r.right).erase r.left ++ [BitVec.ofNat 9 k]).map (weightOf (t.setIfInBounds k r))).sum =
      (pq.map (weightOf t)).sum := by
  have hperm : pq.Perm (r.right :: r.left :: (pq.erase r.right).erase r.left) :=
    (List.perm_cons_erase hright).trans ((List.perm_cons_erase hleft).cons _)
  have hrest : ((pq.erase r.right).erase r.left).map (weightOf (t.setIfInBounds k r)) =
      ((pq.erase r.right).erase r.left).map (weightOf t) :=
    List.map_congr_left fun j hj => weightOf_set (hlt j (List.mem_of_mem_erase (List.mem_of_mem_erase hj)))
  have hnew : weightOf (t.setIfInBounds k r) (BitVec.ofNat 9 k) = r.weight :=
    weightOf_of_nodeAt ((nodeAt_ofNat _ hk).trans (set_node_self hk))
  rw [(hperm.map _).sum_eq, List.map_append, List.sum_append, hrest, List.map_singleton, List.sum_singleton, hnew, hw,
    List.map_cons, List.map_cons, List.sum_cons, List.sum_cons]
  ring

/-- R144, R148: a merge keeps the builder's invariant. -/
theorem Merging.merge {freq : WordTable} {b : Builder} (h : Merging freq b) (hq : 2 ≤ b.pq.length) :
    Merging freq (mergeStep b) := by
  obtain ⟨r, hr, hright, hleft, heq⟩ := h.mergeStep_eq hq
  have hk : b.k < 511 := by have := h.forest.count; have := h.forest.size; omega
  have hkNat : (BitVec.ofNat 9 b.k).toNat = b.k := by rw [BitVec.toNat_ofNat]; omega
  have hlt : ∀ j ∈ b.pq, j.toNat < b.k := fun j hj => ((h.mem_pq j).1 hj).1
  have mem_rest {j : NodeIdx} : j ∈ (b.pq.erase r.right).erase r.left ↔ j ∈ b.pq ∧ j ≠ r.left ∧ j ≠ r.right := by
    rw [(h.nodup.erase _).mem_erase_iff, h.nodup.mem_erase_iff]
    tauto
  have hmerged : ∀ (k : Nat) (r' : Node), (alphabet freq).length ≤ k → k < b.k + 1 →
      (b.node.setIfInBounds b.k r)[k]? = some r' → LeastMerge (b.node.setIfInBounds b.k r) (alphabet freq).length k r' := by
    intro k r' hnk hk' hr'
    rcases Nat.lt_succ_iff_lt_or_eq.1 hk' with hlt | rfl
    · exact (h.merged k r' hnk hlt ((set_node_below hlt).symm.trans hr')).set hlt.le
    · obtain rfl : r = r' := Option.some.inj ((set_node_self hk).symm.trans hr')
      exact hr.set le_rfl
  have hforest := (h.forest.merge hq).1
  rw [heq] at hforest ⊢
  exact {
    forest := hforest
    leaves_le := h.leaves_le.trans b.k.le_succ
    leaf := fun j c hc =>
      (set_node_below ((List.getElem?_eq_some_iff.1 hc).1.trans_le h.leaves_le)).trans (h.leaf j c hc)
    merged := hmerged
    unused := by
      intro j r' hj hr'
      rw [Vector.getElem?_setIfInBounds, if_neg (Nat.ne_of_lt hj)] at hr'
      exact h.unused j r' (Nat.le_of_succ_le hj) hr'
    nodup := by
      refine List.nodup_append.2 ⟨(h.nodup.erase _).erase _, List.nodup_singleton _, ?_⟩
      rintro j hj _ hlast rfl
      have := hlt j (mem_rest.1 hj).1
      rw [List.mem_singleton.1 hlast, hkNat] at this
      exact lt_irrefl _ this
    mem_pq := by
      intro j
      rw [availableAt_succ hmerged h.leaves_le (set_node_self hk), availableAt_set le_rfl, ← h.mem_pq, List.mem_append,
        mem_rest, List.mem_singleton, ← BitVec.toNat_inj, hkNat]
    total := (sum_weights_merge hright hleft hr.weight hlt hk).trans h.total }

/-- R144: `m` merges, as long as PQ has two members before each. -/
theorem Merging.merges {freq : WordTable} {b : Builder} (m : Nat) (h : Merging freq b) (hq : m + 1 ≤ b.pq.length) :
    Merging freq (mergeStep^[m] b) := by
  induction m with
  | zero => exact h
  | succ m ih =>
    have hlen := (h.forest.merges m (by omega)).2.2
    rw [Function.iterate_succ_apply']
    exact (ih (by omega)).merge (by omega)

/-! ### The tree of two symbols or more -/

section
variable {freq : WordTable} (h : 2 ≤ (alphabet freq).length)
include h

theorem merging_mergedBuilder : Merging freq (mergedBuilder freq) :=
  (merging_leaves freq).merges _ (by rw [leafBuilder_pq_length, buildLeaves_k]; omega)

/-- R151: 2N − 1 records. -/
theorem mergedBuilder_k : (mergedBuilder freq).k = 2 * (alphabet freq).length - 1 := by
  have hk := ((forest_leaves freq).merges ((buildLeaves freq).k - 1) (by rw [leafBuilder_pq_length, buildLeaves_k]; omega)).2.1
  have hleaves : (leafBuilder freq).k = (alphabet freq).length := buildLeaves_k freq
  rw [← mergedBuilder, hleaves, buildLeaves_k] at hk
  omega

/-- R144: PQ "held exactly { k − 1 }". -/
theorem mergedBuilder_pq : (mergedBuilder freq).pq = [BitVec.ofNat 9 ((mergedBuilder freq).k - 1)] := by
  have hm := merging_mergedBuilder h
  have hk := mergedBuilder_k h
  have hsize := alphabet_length_le freq
  obtain ⟨i, hi⟩ : ∃ i, (mergedBuilder freq).pq = [i] :=
    List.length_eq_one_iff.1 (by have := hm.forest.count; omega)
  obtain ⟨l, hl⟩ : ∃ l, (mergedBuilder freq).k = l + 1 := ⟨2 * (alphabet freq).length - 2, by omega⟩
  have hlast : BitVec.ofNat 9 l ∈ (mergedBuilder freq).pq := by
    rw [hm.mem_pq, hl]
    exact availableAt_last (hl ▸ hm.merged) (by rw [BitVec.toNat_ofNat]; omega)
  rw [hi, List.mem_singleton] at hlast
  rw [hi, hl, Nat.add_sub_cancel, hlast]

/-- R151: the root weighs the sum of all counts, modulo 2^32 (log 15). -/
theorem mergedBuilder_rootWeight :
    weightOf (mergedBuilder freq).node (BitVec.ofNat 9 ((mergedBuilder freq).k - 1)) = BitVec.ofNat 32 (freqSum freq) := by
  rw [← (merging_mergedBuilder h).total, mergedBuilder_pq h, List.map_singleton, List.sum_singleton]

end

/-! ### The records of a tree by their index -/

/-- R151: the leaves in symbol order, then the INTERNAL records and a PLACEHOLDER, then FREE ones. -/
structure LeavesFirst (freq : WordTable) (b : Builder) : Prop where
  leaf : ∀ (j : Nat) (c : Byte), (alphabet freq)[j]? = some c → b.node[j]? = some (leafOf freq c)
  inner : ∀ (j : Nat) (r : Node), (alphabet freq).length ≤ j → j < b.k → b.node[j]? = some r →
    r.kind = .internal ∨ r.kind = .placeholder
  unused : ∀ (j : Nat) (r : Node), b.k ≤ j → b.node[j]? = some r → r = Node.empty
  leaves_le : (alphabet freq).length ≤ b.k

theorem Merging.leavesFirst {freq : WordTable} {b : Builder} (h : Merging freq b) : LeavesFirst freq b :=
  { h with inner := fun j r hn hk hr => .inl (h.merged j r hn hk hr).kind }

section
variable {freq : WordTable} {b : Byte} (h : alphabet freq = [b])
include h

theorem leavesFirst_oneSymbol : LeavesFirst freq (oneSymbolBuilder freq) where
  leaf := by
    intro j c hc
    rw [h] at hc
    match j with
    | 0 => cases hc; exact oneSymbolBuilder_node h (by decide)
  inner := by
    intro j r hn hk hr
    rw [h, List.length_singleton] at hn
    rw [oneSymbolBuilder_k h] at hk
    have hr := hr.symm.trans (oneSymbolBuilder_node h (lt_of_node hr))
    match j with
    | 1 => cases hr; exact .inr rfl
    | 2 => cases hr; exact .inl rfl
  unused := by
    intro j r hk hr
    rw [oneSymbolBuilder_k h] at hk
    have hr := hr.symm.trans (oneSymbolBuilder_node h (lt_of_node hr))
    match j with
    | j + 3 => cases hr; rfl
  leaves_le := by
    rw [h, oneSymbolBuilder_k h, List.length_singleton]
    decide

theorem buildLeaves_weight_oneSymbol : weightOf (buildLeaves freq).node 0 = entry freq b := by
  refine (weightOf_of_nodeAt (r := leafOf freq b) ?_).trans rfl
  refine (buildLeaves_node freq (j := 0) (by decide)).trans ?_
  rw [h]
  rfl

/-- R149: the root weighs what the leaf weighs. -/
theorem oneSymbolBuilder_root : nodeAt (oneSymbolBuilder freq).node 2 = some ⟨.internal, 0, entry freq b, 0, 1⟩ := by
  rw [← buildLeaves_weight_oneSymbol h]
  exact oneSymbolBuilder_node h (j := 2) (by decide)

end

/-- R144, R149, R150: the builder of the tree. -/
def treeBuilder (freq : WordTable) : Builder :=
  if (alphabet freq).length = 1 then oneSymbolBuilder freq else mergedBuilder freq

theorem buildTree_eq_finish {freq : WordTable} (h : alphabet freq ≠ []) :
    buildTree freq = .ok ((treeBuilder freq).finish (alphabet freq).length) := by
  rw [buildTree_eq, if_neg (mt List.length_eq_zero_iff.1 h), treeBuilder]
  by_cases h1 : (alphabet freq).length = 1
  · rw [if_pos h1, if_pos h1, h1]
  · rw [if_neg h1, if_neg h1]

/-- R150: a tree is built from a non-empty alphabet. -/
theorem buildTree_ok_inv {freq : WordTable} {t : Tree} (h : buildTree freq = .ok t) :
    alphabet freq ≠ [] ∧ t = (treeBuilder freq).finish (alphabet freq).length := by
  have hne : alphabet freq ≠ [] := by
    intro h0
    rw [buildTree_eq, if_pos (by rw [h0]; rfl)] at h
    cases h
  rw [buildTree_eq_finish hne] at h
  exact ⟨hne, (Except.ok.inj h).symm⟩

section
variable {freq : WordTable} (h : alphabet freq ≠ [])
include h

/-- R149, R144: the two shapes of a tree. -/
theorem treeBuilder_cases :
    (∃ b, alphabet freq = [b] ∧ treeBuilder freq = oneSymbolBuilder freq) ∨
    (2 ≤ (alphabet freq).length ∧ treeBuilder freq = mergedBuilder freq) := by
  by_cases h1 : (alphabet freq).length = 1
  · obtain ⟨b, hb⟩ := List.length_eq_one_iff.1 h1
    exact .inl ⟨b, hb, if_pos h1⟩
  · have h0 : (alphabet freq).length ≠ 0 := mt List.length_eq_zero_iff.1 h
    exact .inr ⟨by omega, if_neg h1⟩

theorem leavesFirst_treeBuilder : LeavesFirst freq (treeBuilder freq) := by
  rcases treeBuilder_cases h with ⟨b, hb, heq⟩ | ⟨h2, heq⟩
  · exact heq ▸ leavesFirst_oneSymbol hb
  · exact heq ▸ (merging_mergedBuilder h2).leavesFirst

theorem treeBuilder_k :
    (treeBuilder freq).k = if (alphabet freq).length = 1 then 3 else 2 * (alphabet freq).length - 1 := by
  rcases treeBuilder_cases h with ⟨b, hb, heq⟩ | ⟨h2, heq⟩
  · rw [heq, oneSymbolBuilder_k hb, hb]
    rfl
  · rw [heq, mergedBuilder_k h2, if_neg (by omega)]

theorem treeBuilder_k_le : (treeBuilder freq).k ≤ 511 := by
  have hsize := alphabet_length_le freq
  rw [treeBuilder_k h]
  split <;> omega

/-- R38, R144: NNODES and ROOT hold their numbers. -/
theorem finish_nnodes : ((treeBuilder freq).finish (alphabet freq).length).nnodes.toNat = (treeBuilder freq).k := by
  have hk := treeBuilder_k_le h
  rw [Builder.finish, BitVec.toNat_ofNat]
  omega

theorem finish_root : ((treeBuilder freq).finish (alphabet freq).length).root.toNat =
    ((treeBuilder freq).finish (alphabet freq).length).nnodes.toNat - 1 := by
  have hk := treeBuilder_k_le h
  rw [finish_nnodes h, Builder.finish, BitVec.toNat_ofNat]
  omega

/-- R151: the root weighs the sum of all counts, modulo 2^32 (log 15). -/
theorem treeBuilder_rootWeight :
    weightOf (treeBuilder freq).node (BitVec.ofNat 9 ((treeBuilder freq).k - 1)) = BitVec.ofNat 32 (freqSum freq) := by
  rcases treeBuilder_cases h with ⟨b, hb, heq⟩ | ⟨h2, heq⟩
  · have hroot : nodeAt (oneSymbolBuilder freq).node (BitVec.ofNat 9 (3 - 1)) = _ := oneSymbolBuilder_root hb
    rw [heq, oneSymbolBuilder_k hb, weightOf_of_nodeAt hroot, ← sum_entries, hb, List.map_singleton, List.sum_singleton]
  · rw [heq, mergedBuilder_rootWeight h2]

end

/-! ### The statements about a built tree -/

/-- Settles O18: a record is a LEAF, INTERNAL or PLACEHOLDER, or FREE, as its index says. -/
theorem buildPutsLeavesInSymbolOrder : Obligations.BuildPutsLeavesInSymbolOrder := by
  intro freq tr htr
  obtain ⟨hne, rfl⟩ := buildTree_ok_inv htr
  have h := leavesFirst_treeBuilder hne
  have hleaf {j : Nat} {r : Node} (hj : j < (alphabet freq).length)
      (hr : (treeBuilder freq).node[j]? = some r) : r.kind = .leaf := by
    obtain rfl := Option.some.inj (hr.symm.trans (h.leaf j _ (List.getElem?_eq_getElem hj)))
    rfl
  refine ⟨h.leaf, fun j r hr => ⟨fun hk => ?_, fun hj => hleaf hj hr⟩, fun j r hr => ?_⟩
  · by_contra hj
    rcases Nat.lt_or_ge j (treeBuilder freq).k with hlt | hge
    · rcases h.inner j r (Nat.le_of_not_lt hj) hlt hr with h' | h' <;> rw [h'] at hk <;> cases hk
    · obtain rfl := h.unused j r hge hr
      cases hk
  · rw [finish_nnodes hne]
    refine ⟨fun he => ?_, fun hge => h.unused j r hge hr⟩
    by_contra hj
    subst he
    rcases Nat.lt_or_ge j (alphabet freq).length with hlt | hge
    · cases hleaf hlt hr
    · rcases h.inner j _ hge (Nat.lt_of_not_le hj) hr with h' | h' <;> cases h'

/-- Settles O19: each merge is still what it was when it was made (`Merging.merged`). -/
theorem everyMergeTakesTheTwoLeast : Obligations.EveryMergeTakesTheTwoLeast := by
  intro freq tr htr h2 k r hn hk hr
  obtain ⟨hne, rfl⟩ := buildTree_ok_inv htr
  have heq : treeBuilder freq = mergedBuilder freq := if_neg (by omega)
  rw [finish_nnodes hne, heq] at hk
  rw [heq] at hr ⊢
  have hm := (merging_mergedBuilder h2).merged k r hn hk hr
  exact ⟨hm.kind, hm.sym, hm.weight, hm.right, hm.left, hm.ordered, hm.least⟩

/-- Settles O20: ASSIGN visits the root, its leaf and the PLACEHOLDER. -/
theorem oneSymbolTreeHasPlaceholder : Obligations.OneSymbolTreeHasPlaceholder := by
  intro freq b hb
  have hleaf : nodeAt (oneSymbolBuilder freq).node 0 = some (leafOf freq b) := oneSymbolBuilder_node hb (j := 0) (by decide)
  have hplace : nodeAt (oneSymbolBuilder freq).node 1 = some ⟨.placeholder, 0, 0, 0, 0⟩ :=
    oneSymbolBuilder_node hb (j := 1) (by decide)
  have hroot := oneSymbolBuilder_root hb
  have hcodes : assignCodes (oneSymbolBuilder freq).node 2 = .ok (CodeTable.empty.record b 1 0) := by
    rw [assignCodes, visit_internal _ _ _ _ hroot rfl, visit_leaf _ _ _ _ hleaf rfl]
    exact visit_placeholder _ _ _ _ hplace rfl
  have htree : (oneSymbolBuilder freq).finish 1 = ⟨(oneSymbolBuilder freq).node, 1, 3, 2⟩ := by
    rw [Builder.finish, oneSymbolBuilder_k hb]
    rfl
  refine ⟨⟨(oneSymbolBuilder freq).node, 1, 3, 2⟩, ?_, rfl, rfl, rfl, hleaf, hplace, hroot, hcodes⟩
  rw [buildTree_eq, hb, ← htree]
  rfl

/-- Settles O21: below 2^32 the sum of the weights does not wrap (R142). -/
theorem rootWeighsTheWholeInput : Obligations.RootWeighsTheWholeInput := by
  intro freq tr htr hsum
  obtain ⟨hne, rfl⟩ := buildTree_ok_inv htr
  refine (congrArg BitVec.toNat (treeBuilder_rootWeight hne)).trans ?_
  rw [BitVec.toNat_ofNat, Nat.mod_eq_of_lt hsum]

end Sys2Proof.Machine

/-!
PROOFS. O14, O17: FREQ and BUILD as commands (R141, R144): their one phase ends, and the command completes with what it leaves.
-/

namespace Sys2Proof.Machine

/-- R130: a command of one phase that ends. -/
theorem exec_of_phase_ok {c : Instr} {p : Phase} {s : State} {d : Datapath} (hc : phasesOf c = [p])
    (ho : operational c = true) (hr : s.ready) (hp : prerequisite c s = true) (h : phaseFn p s.env s.dp = .ok d) :
    exec c s = .next (succeedWith c d s) := by
  obtain ⟨hb, he⟩ := hr
  refine (exec_next_iff ho).2 (.inr (.inr ⟨not_dropped hb (.inl he), hp, .inr ⟨d, ?_, rfl⟩⟩))
  rw [phasesRun, hc, List.map_singleton, runAll_cons, h]
  rfl

/-- Settles O14: no count wraps, as there are fewer than 2^32 bytes (R142). -/
theorem freqCountsTheInput : Obligations.FreqCountsTheInput := by
  intro s hr hpos hcap
  have hne : s.env.inLen ≠ 0 := fun h => hpos.ne' (congrArg BitVec.toNat h)
  have hlen : s.input.length < 2 ^ 32 := by
    rw [State.input, List.length_map, List.length_range]
    exact s.inLen.isLt
  have hphase : phaseFn .freq s.env s.dp = .ok { s.dp with freq := countTable s.input, rp := s.inLen } :=
    phaseFreq_ok s.dp hne
  refine ⟨_, exec_of_phase_ok rfl rfl hr (by simp [prerequisite, neededFlag, hcap]) hphase, fun b => ?_, rfl⟩
  show (entry (countTable s.input) b).toNat = s.input.count b
  rw [entry_countTable, BitVec.toNat_ofNat, Nat.mod_eq_of_lt (List.count_le_length.trans_lt hlen)]

/-- Settles O17: BUILD has no prerequisite, and a non-empty alphabet has a tree. -/
theorem buildCompletes : Obligations.BuildCompletes := by
  rintro s hr ⟨b, hb⟩
  have hne : alphabet s.dp.freq ≠ [] := List.ne_nil_of_mem (mem_alphabet.2 hb)
  have htree := buildTree_eq_finish hne
  have hphase : phaseFn .build s.env s.dp =
      .ok (s.dp.withTree ((treeBuilder s.dp.freq).finish (alphabet s.dp.freq).length)) := phaseBuild_ok (e := s.env) htree
  exact ⟨_, exec_of_phase_ok rfl rfl hr rfl hphase, (builtTree htree).nsyms,
    (finish_nnodes hne).trans (treeBuilder_k hne), finish_root hne, rfl⟩

end Sys2Proof.Machine

/-!
PROOFS. The shape of a built tree and the codes on it (R144, R160 to R166). Every record but the root has one INTERNAL parent,
which stands above it, so a leaf has one path, no path is longer than there are records to pass, and every walk that goes on
ends on a leaf. ASSIGN gives each leaf's symbol the path to it.
-/

namespace Sys2Proof.Machine

/-! ### Paths -/

section
variable {t : NodeTable} {i j k : NodeIdx} {b : Bool} {p q : List Bool} {r r' : Node}

/-- R41: record `j` is the child of the INTERNAL record `i` that the code bit `b` leads to. -/
def ChildOf (t : NodeTable) (i : NodeIdx) (b : Bool) (j : NodeIdx) : Prop :=
  ∃ r, nodeAt t i = some r ∧ r.kind = .internal ∧ r.child b = j

/-- R160: the path `p` leads from record `i` to record `j`. -/
def Leads (t : NodeTable) : NodeIdx → List Bool → NodeIdx → Prop
  | i, [], j => i = j
  | i, b :: p, j => ∃ k, ChildOf t i b k ∧ Leads t k p j

theorem nodeOnPath_cons_iff :
    nodeOnPath t i (b :: p) = some r ↔ ∃ k, ChildOf t i b k ∧ nodeOnPath t k p = some r := by
  constructor
  · intro h
    rw [nodeOnPath] at h
    split at h
    · next r0 hr0 =>
      split at h
      · next hk => exact ⟨_, ⟨r0, hr0, hk, rfl⟩, h⟩
      · cases h
    · cases h
  · rintro ⟨_, ⟨r0, hr0, hk, rfl⟩, h⟩
    exact nodeOnPath_cons hr0 hk h

theorem nodeOnPath_iff : nodeOnPath t i p = some r ↔ ∃ j, Leads t i p j ∧ nodeAt t j = some r := by
  induction p generalizing i with
  | nil => exact ⟨fun h => ⟨i, rfl, h⟩, fun ⟨_, rfl, h⟩ => h⟩
  | cons b p ih =>
    rw [nodeOnPath_cons_iff]
    constructor
    · rintro ⟨k, hk, h⟩
      obtain ⟨j, hj, hr⟩ := ih.1 h
      exact ⟨j, ⟨k, hk, hj⟩, hr⟩
    · rintro ⟨j, ⟨k, hk, hj⟩, hr⟩
      exact ⟨k, hk, ih.2 ⟨j, hj, hr⟩⟩

theorem leads_concat_iff : Leads t i (p ++ [b]) j ↔ ∃ k, Leads t i p k ∧ ChildOf t k b j := by
  induction p generalizing i with
  | nil => simp [Leads]
  | cons c p ih =>
    simp only [List.cons_append, Leads, ih]
    tauto

/-- R160: only an INTERNAL record has a path going on from it. -/
theorem nodeOnPath_prefix (hp : nodeOnPath t i p = some r) (hk : r.kind ≠ .internal) (hq : nodeOnPath t i q = some r')
    (h : p <+: q) : p = q := by
  induction p generalizing i q with
  | nil =>
    cases q with
    | nil => rfl
    | cons b q =>
      obtain ⟨_, ⟨r0, hr0, hint, -⟩, -⟩ := nodeOnPath_cons_iff.1 hq
      exact absurd ((Option.some.inj (hr0.symm.trans hp)) ▸ hint) hk
  | cons b p ih =>
    obtain ⟨q, rfl⟩ := h
    rw [List.cons_append] at hq ⊢
    obtain ⟨_, ⟨r0, hr0, -, rfl⟩, hp⟩ := nodeOnPath_cons_iff.1 hp
    obtain ⟨_, ⟨r1, hr1, -, rfl⟩, hq⟩ := nodeOnPath_cons_iff.1 hq
    obtain rfl := Option.some.inj (hr0.symm.trans hr1)
    exact congrArg _ (ih hp hq (List.prefix_append p q))

end

/-! ### The shape of a built tree -/

/-- R144, R149: the parents in a node table. A child stands below its parent, and it is the child of one record, by one bit. -/
structure Parented (t : NodeTable) : Prop where
  child_lt : ∀ i b j, ChildOf t i b j → j.toNat < i.toNat
  parent_unique : ∀ i b j i' b', ChildOf t i b j → ChildOf t i' b' j → i = i' ∧ b = b'

/-- R147, R148: a merge takes both children from PQ. -/
theorem LeastMerge.child {t : NodeTable} {n k : Nat} {r : Node} (h : LeastMerge t n k r) (b : Bool) :
    availableAt t n k (r.child b) := by
  cases b with
  | false => exact h.left
  | true => exact h.right

theorem LeastMerge.left_ne_right {t : NodeTable} {n k : Nat} {r : Node} (h : LeastMerge t n k r) : r.left ≠ r.right := by
  intro he
  have hb := h.ordered
  rw [he, before_irrefl] at hb
  cases hb

/-- R144: a record that a merge has removed from PQ is not there for a later one. -/
theorem Merging.parented {freq : WordTable} {b : Builder} (h : Merging freq b) : Parented b.node := by
  have merge_of {i : NodeIdx} {r : Node} (hr : nodeAt b.node i = some r) (hk : r.kind = .internal) :
      (alphabet freq).length ≤ i.toNat ∧ LeastMerge b.node (alphabet freq).length i.toNat r := by
    have hn : (alphabet freq).length ≤ i.toNat := by
      by_contra hlt
      obtain rfl := Option.some.inj (hr.symm.trans (h.leaf _ _ (List.getElem?_eq_getElem (Nat.lt_of_not_le hlt))))
      cases hk
    refine ⟨hn, h.merged _ r hn ?_ hr⟩
    by_contra hge
    obtain rfl := h.unused _ r (Nat.le_of_not_lt hge) hr
    cases hk
  have not_later {i i' : NodeIdx} {r r' : Node} {c c' : Bool} (hr : nodeAt b.node i = some r) (hk : r.kind = .internal)
      (hr' : nodeAt b.node i' = some r') (hk' : r'.kind = .internal) (hc : r.child c = r'.child c') :
      ¬ i.toNat < i'.toNat := by
    intro hlt
    obtain ⟨hl, hrt⟩ := ((merge_of hr' hk').2.child c').2 i.toNat (merge_of hr hk).1 hlt r hr
    rw [← hc] at hl hrt
    cases c with
    | false => exact hl rfl
    | true => exact hrt rfl
  constructor
  · rintro i c _ ⟨r, hr, hk, rfl⟩
    exact ((merge_of hr hk).2.child c).1
  · rintro i c _ i' c' ⟨r, hr, hk, rfl⟩ ⟨r', hr', hk', hc⟩
    have h1 := not_later hr hk hr' hk' hc.symm
    have h2 := not_later hr' hk' hr hk hc
    obtain rfl : i = i' := BitVec.eq_of_toNat_eq (by omega)
    obtain rfl := Option.some.inj (hr.symm.trans hr')
    refine ⟨rfl, ?_⟩
    have hne := (merge_of hr hk).2.left_ne_right
    cases c <;> cases c'
    · rfl
    · exact absurd hc.symm hne
    · exact absurd hc hne
    · rfl

/-- R149: the two children of the one INTERNAL record. -/
theorem parented_oneSymbol {freq : WordTable} {b : Byte} (h : alphabet freq = [b]) :
    Parented (oneSymbolBuilder freq).node := by
  have child {i j : NodeIdx} {c : Bool} (hc : ChildOf (oneSymbolBuilder freq).node i c j) :
      i = 2 ∧ j = if c then 1 else 0 := by
    obtain ⟨r, hr, hk, rfl⟩ := hc
    have hr' := hr.symm.trans (oneSymbolBuilder_node h (lt_of_node hr))
    obtain rfl : i = 2 := by
      apply BitVec.eq_of_toNat_eq
      show i.toNat = 2
      by_contra h2
      rw [if_neg h2] at hr'
      obtain rfl := Option.some.inj hr'
      split at hk
      · cases hk
      · split at hk <;> cases hk
    obtain rfl := Option.some.inj hr'
    cases c <;> exact ⟨rfl, rfl⟩
  constructor
  · intro i c j hc
    obtain ⟨rfl, rfl⟩ := child hc
    cases c <;> decide
  · intro i c j i' c' hc hc'
    obtain ⟨rfl, rfl⟩ := child hc
    obtain ⟨rfl, hj⟩ := child hc'
    refine ⟨rfl, ?_⟩
    revert hj
    cases c <;> cases c' <;> decide

theorem alphabet_nodup (freq : WordTable) : (alphabet freq).Nodup := by
  refine (List.nodup_range.map_on fun i hi j hj h => ?_).filter _
  rw [List.mem_range] at hi hj
  have h := congrArg BitVec.toNat h
  rwa [BitVec.toNat_ofNat, BitVec.toNat_ofNat, Nat.mod_eq_of_lt hi, Nat.mod_eq_of_lt hj] at h

/-- R144, R149, R151: the shape of the tree of a frequency table. -/
structure TreeShape (freq : WordTable) (t : Tree) : Prop where
  parented : Parented t.node
  /-- The records up to the root are in use. -/
  used : ∀ i, i.toNat ≤ t.root.toNat → ∃ r, nodeAt t.node i = some r ∧ r.kind ≠ .free
  /-- The INTERNAL records stand above the leaves, the root last. -/
  internal_range : ∀ i r, nodeAt t.node i = some r → r.kind = .internal →
    (alphabet freq).length ≤ i.toNat ∧ i.toNat ≤ t.root.toNat
  /-- Record `i` is the leaf of the `i`-th symbol. -/
  leaf_sym : ∀ i r, nodeAt t.node i = some r → r.kind = .leaf → (alphabet freq)[i.toNat]? = some r.sym
  /-- R149: a PLACEHOLDER stands in a tree of one symbol only. -/
  placeholder : ∀ i r, nodeAt t.node i = some r → r.kind = .placeholder → (alphabet freq).length = 1
  root : t.root.toNat = if (alphabet freq).length = 1 then 2 else 2 * (alphabet freq).length - 2

theorem parented_treeBuilder {freq : WordTable} (h : alphabet freq ≠ []) : Parented (treeBuilder freq).node := by
  rcases treeBuilder_cases h with ⟨b, hb, heq⟩ | ⟨h2, heq⟩
  · exact heq ▸ parented_oneSymbol hb
  · exact heq ▸ (merging_mergedBuilder h2).parented

theorem placeholder_treeBuilder {freq : WordTable} (h : alphabet freq ≠ []) {i : NodeIdx} {r : Node}
    (hr : nodeAt (treeBuilder freq).node i = some r) (hk : r.kind = .placeholder) : (alphabet freq).length = 1 := by
  rcases treeBuilder_cases h with ⟨b, hb, -⟩ | ⟨h2, heq⟩
  · rw [hb]; rfl
  · have hm := merging_mergedBuilder h2
    rw [heq] at hr
    exfalso
    rcases Nat.lt_or_ge i.toNat (alphabet freq).length with hn | hn
    · obtain rfl := Option.some.inj (hr.symm.trans (hm.leaf _ _ (List.getElem?_eq_getElem hn)))
      cases hk
    · rcases Nat.lt_or_ge i.toNat (mergedBuilder freq).k with hlt | hge
      · rw [(hm.merged _ r hn hlt hr).kind] at hk
        cases hk
      · obtain rfl := hm.unused _ r hge hr
        cases hk

theorem treeShape {freq : WordTable} {t : Tree} (ht : buildTree freq = .ok t) : TreeShape freq t := by
  obtain ⟨hne, rfl⟩ := buildTree_ok_inv ht
  have h := leavesFirst_treeBuilder hne
  have hkle := treeBuilder_k_le hne
  have hk := treeBuilder_k hne
  have hlen : (alphabet freq).length ≠ 0 := mt List.length_eq_zero_iff.1 hne
  have hroot := finish_root hne
  rw [finish_nnodes hne] at hroot
  -- a record is a leaf, INTERNAL or a PLACEHOLDER, or FREE, as its index says
  have leaf_of {i : NodeIdx} {r : Node} (hr : nodeAt (treeBuilder freq).node i = some r)
      (hn : i.toNat < (alphabet freq).length) : r.kind = .leaf ∧ (alphabet freq)[i.toNat]? = some r.sym := by
    have hi := List.getElem?_eq_getElem hn
    obtain rfl := Option.some.inj (hr.symm.trans (h.leaf _ _ hi))
    exact ⟨rfl, hi⟩
  have free_of {i : NodeIdx} {r : Node} (hr : nodeAt (treeBuilder freq).node i = some r)
      (hi : (treeBuilder freq).k ≤ i.toNat) : r.kind = .free := by
    obtain rfl := h.unused _ r hi hr
    rfl
  refine ⟨parented_treeBuilder hne, fun i hi => ?_, fun i r hr hint => ⟨?_, ?_⟩, fun i r hr hl => ?_,
    fun i r hr hp => placeholder_treeBuilder hne hr hp, ?_⟩
  · have hlt : i.toNat < (treeBuilder freq).k := by split at hk <;> omega
    have hr : (treeBuilder freq).node[i.toNat]? = some _ := Vector.getElem?_eq_getElem (hlt.trans_le hkle)
    refine ⟨_, hr, ?_⟩
    rcases Nat.lt_or_ge i.toNat (alphabet freq).length with hn | hn
    · rw [(leaf_of hr hn).1]; decide
    · rcases h.inner _ _ hn hlt hr with h' | h' <;> rw [h'] <;> decide
  · by_contra hn
    rw [(leaf_of hr (Nat.lt_of_not_le hn)).1] at hint
    cases hint
  · by_contra hi
    rw [free_of hr (by omega)] at hint
    cases hint
  · rcases Nat.lt_or_ge i.toNat (alphabet freq).length with hn | hn
    · exact (leaf_of hr hn).2
    · rcases Nat.lt_or_ge i.toNat (treeBuilder freq).k with hlt | hge
      · rcases h.inner _ r hn hlt hr with h' | h' <;> rw [h'] at hl <;> cases hl
      · rw [free_of hr hge] at hl
        cases hl
  · rw [hroot, hk]
    split <;> omega

/-! ### What the shape says of paths -/

theorem Parented.length_le {t : NodeTable} (h : Parented t) {i j : NodeIdx} {p : List Bool} (hp : Leads t i p j) :
    j.toNat + p.length ≤ i.toNat := by
  induction p generalizing i with
  | nil => cases hp; exact le_rfl
  | cons b p ih =>
    obtain ⟨k, hk, hp⟩ := hp
    have := h.child_lt i b k hk
    have := ih hp
    rw [List.length_cons]
    omega

section
variable {freq : WordTable} {t : Tree} (h : TreeShape freq t)
include h

/-- R144: the root is nobody's child. -/
theorem TreeShape.root_no_child {i : NodeIdx} {b : Bool} : ¬ ChildOf t.node i b t.root := by
  rintro hc
  have hlt := h.parented.child_lt i b _ hc
  obtain ⟨r, hr, hk, -⟩ := hc
  have := (h.internal_range i r hr hk).2
  omega

/-- R160: a record has one path from the root. -/
theorem TreeShape.path_unique {p q : List Bool} {j : NodeIdx} (hp : Leads t.node t.root p j)
    (hq : Leads t.node t.root q j) : p = q := by
  induction p using List.reverseRecOn generalizing q j with
  | nil =>
    obtain rfl : t.root = j := hp
    rcases List.eq_nil_or_concat' q with rfl | ⟨q, b, rfl⟩
    · rfl
    · obtain ⟨k, -, hk⟩ := leads_concat_iff.1 hq
      exact absurd hk h.root_no_child
  | append_singleton p b ih =>
    obtain ⟨k, hpk, hk⟩ := leads_concat_iff.1 hp
    rcases List.eq_nil_or_concat' q with rfl | ⟨q, b', rfl⟩
    · obtain rfl : t.root = j := hq
      exact absurd hk h.root_no_child
    · obtain ⟨k', hqk, hk'⟩ := leads_concat_iff.1 hq
      obtain ⟨rfl, rfl⟩ := h.parented.parent_unique k b j k' b' hk hk'
      rw [ih hpk hqk]

/-- R145: a symbol is on one leaf, which has one path. -/
theorem TreeShape.leaf_path_unique {p q : List Bool} {r r' : Node} (hp : nodeOnPath t.node t.root p = some r)
    (hl : r.kind = .leaf) (hq : nodeOnPath t.node t.root q = some r') (hl' : r'.kind = .leaf) (hs : r'.sym = r.sym) :
    q = p := by
  obtain ⟨j, hj, hr⟩ := nodeOnPath_iff.1 hp
  obtain ⟨j', hj', hr'⟩ := nodeOnPath_iff.1 hq
  have hsym := h.leaf_sym j r hr hl
  have hsym' := h.leaf_sym j' r' hr' hl'
  rw [hs, ← hsym] at hsym'
  obtain ⟨hlt, -⟩ := List.getElem?_eq_some_iff.1 hsym
  have hnat := (List.getElem?_inj hlt (alphabet_nodup freq)).1 hsym'.symm
  obtain rfl : j = j' := BitVec.eq_of_toNat_eq hnat
  exact h.path_unique hj' hj

/-- R164: an INTERNAL record at depth `d` has `d` INTERNAL records above it, and there are N − 1 of them (one if N = 1). -/
theorem TreeShape.internal_depth {p : List Bool} {r : Node} (hp : nodeOnPath t.node t.root p = some r)
    (hk : r.kind = .internal) : p.length + 2 ≤ (alphabet freq).length ∨ p.length ≤ 1 := by
  obtain ⟨j, hj, hr⟩ := nodeOnPath_iff.1 hp
  have hlen := h.parented.length_le hj
  have hge := (h.internal_range j r hr hk).1
  have hroot := h.root
  split at hroot <;> omega

/-- R165: with two symbols or more every walk that goes on ends on a leaf. -/
theorem TreeShape.exists_leaf (h2 : 2 ≤ (alphabet freq).length) (f : Nat → Bool) {i : NodeIdx}
    (hi : i.toNat ≤ t.root.toNat) :
    ∃ n r, nodeOnPath t.node i ((List.range n).map f) = some r ∧ r.kind = .leaf := by
  induction hn : i.toNat using Nat.strong_induction_on generalizing i f with
  | _ n ih =>
    subst hn
    obtain ⟨r, hr, hfree⟩ := h.used i hi
    cases hk : r.kind with
    | free => exact absurd hk hfree
    | placeholder => have := h.placeholder i r hr hk; omega
    | leaf => exact ⟨0, r, hr, hk⟩
    | internal =>
      have hc : ChildOf t.node i (f 0) (r.child (f 0)) := ⟨r, hr, hk, rfl⟩
      have hlt := h.parented.child_lt _ _ _ hc
      obtain ⟨n, r', hr', hl⟩ := ih _ hlt (fun k => f (k + 1)) (hlt.le.trans hi) rfl
      refine ⟨n + 1, r', ?_, hl⟩
      rw [List.range_succ_eq_map, List.map_cons, List.map_map]
      exact nodeOnPath_cons_iff.2 ⟨_, hc, hr'⟩

end

/-! ### The walk of ASSIGN: where it ends -/

/-- R163: there is an INTERNAL record `room` bits below record `i`. -/
def TooDeep (t : NodeTable) (room : Nat) (i : NodeIdx) : Prop :=
  ∃ p r, p.length = room ∧ nodeOnPath t i p = some r ∧ r.kind = .internal

section
variable {t : NodeTable} {i : NodeIdx} {r : Node} {room : Nat}

theorem tooDeep_zero_iff (hr : nodeAt t i = some r) : TooDeep t 0 i ↔ r.kind = .internal := by
  constructor
  · rintro ⟨p, r', hp, hr', hk⟩
    obtain rfl := List.length_eq_zero_iff.1 hp
    rwa [Option.some.inj (hr.symm.trans hr')]
  · exact fun hk => ⟨[], r, rfl, hr, hk⟩

theorem tooDeep_succ_iff (hr : nodeAt t i = some r) (hk : r.kind = .internal) :
    TooDeep t (room + 1) i ↔ TooDeep t room r.left ∨ TooDeep t room r.right := by
  constructor
  · rintro ⟨_ | ⟨b, p⟩, r', hlen, hp, hk'⟩
    · cases hlen
    · obtain ⟨_, ⟨r0, hr0, -, rfl⟩, hp⟩ := nodeOnPath_cons_iff.1 hp
      obtain rfl := Option.some.inj (hr.symm.trans hr0)
      have hdeep : TooDeep t room (r.child b) := ⟨p, r', Nat.succ.inj hlen, hp, hk'⟩
      cases b with
      | false => exact .inl hdeep
      | true => exact .inr hdeep
  · have below {b : Bool} : TooDeep t room (r.child b) → TooDeep t (room + 1) i := by
      rintro ⟨p, r', hlen, hp, hk'⟩
      exact ⟨b :: p, r', congrArg Nat.succ hlen, nodeOnPath_cons_iff.2 ⟨_, ⟨r, hr, hk, rfl⟩, hp⟩, hk'⟩
    rintro (hl | hr)
    · exact below (b := false) hl
    · exact below (b := true) hr

theorem not_tooDeep (hr : nodeAt t i = some r) (hk : r.kind ≠ .internal) : ¬ TooDeep t room i := by
  rintro ⟨_ | ⟨b, p⟩, r', hlen, hp, hk'⟩
  · exact hk (Option.some.inj (hr.symm.trans hp) ▸ hk')
  · obtain ⟨_, ⟨r0, hr0, hint, -⟩, -⟩ := nodeOnPath_cons_iff.1 hp
    exact hk (Option.some.inj (hr.symm.trans hr0) ▸ hint)

end

/-- R161, R163: in a built tree a visit ends with a code table, unless it comes to an INTERNAL record at depth 32. -/
theorem TreeShape.visit_cases {freq : WordTable} {t : Tree} (h : TreeShape freq t) (room : Nat) {i : NodeIdx}
    (hi : i.toNat ≤ t.root.toNat) (d : Nat) (v : Word) (c : CodeTable) :
    (¬ TooDeep t.node room i ∧ ∃ c', visit t.node room i d v c = .ok c') ∨
    (TooDeep t.node room i ∧ visit t.node room i d v c = .error (.raise .codeTooLong)) := by
  induction room generalizing i d v c with
  | zero =>
    obtain ⟨r, hr, hfree⟩ := h.used i hi
    rw [tooDeep_zero_iff hr]
    cases hk : r.kind with
    | free => exact absurd hk hfree
    | placeholder => exact .inl ⟨by simp, _, visit_placeholder _ d v c hr hk⟩
    | leaf => exact .inl ⟨by simp, _, visit_leaf _ d v c hr hk⟩
    | internal => exact .inr ⟨rfl, visit_tooLong d v c hr hk⟩
  | succ room ih =>
    obtain ⟨r, hr, hfree⟩ := h.used i hi
    cases hk : r.kind with
    | free => exact absurd hk hfree
    | placeholder => exact .inl ⟨not_tooDeep hr (by simp [hk]), _, visit_placeholder _ d v c hr hk⟩
    | leaf => exact .inl ⟨not_tooDeep hr (by simp [hk]), _, visit_leaf _ d v c hr hk⟩
    | internal =>
      have child_le (b : Bool) : (r.child b).toNat ≤ t.root.toNat :=
        (h.parented.child_lt i b _ ⟨r, hr, hk, rfl⟩).le.trans hi
      rw [tooDeep_succ_iff hr hk, visit_internal room d v c hr hk]
      rcases ih (child_le false) (d + 1) (2 * v) c with ⟨hl, c1, h1⟩ | ⟨hl, h1⟩
      · have h1 : visit t.node room r.left (d + 1) (2 * v) c = .ok c1 := h1
        rw [h1]
        rcases ih (child_le true) (d + 1) (2 * v + 1) c1 with ⟨hrt, h2⟩ | ⟨hrt, h2⟩
        · exact .inl ⟨not_or.2 ⟨hl, hrt⟩, h2⟩
        · exact .inr ⟨.inr hrt, h2⟩
      · have h1 : visit t.node room r.left (d + 1) (2 * v) c = .error (.raise .codeTooLong) := h1
        rw [h1]
        exact .inr ⟨.inl hl, rfl⟩

/-- R161, R163: ASSIGN on a built tree gives a code table, or raises CodeTooLong; it never meets a FREE record. -/
theorem assignCodes_cases {freq : WordTable} {t : Tree} (ht : buildTree freq = .ok t) :
    (¬ TooDeep t.node 32 t.root ∧ ∃ c, assignCodes t.node t.root = .ok c) ∨
    (TooDeep t.node 32 t.root ∧ assignCodes t.node t.root = .error (.raise .codeTooLong)) :=
  (treeShape ht).visit_cases 32 le_rfl 0 0 CodeTable.empty

/-! ### The walk of ASSIGN: the codes -/

/-- R161: the value of a child, one bit longer. -/
def childValue (v : Word) (b : Bool) : Word := if b then 2 * v + 1 else 2 * v

theorem childValue_toNat {d : Nat} {v : Word} (hd : d < 32) (hv : v.toNat < 2 ^ d) (b : Bool) :
    (childValue v b).toNat = 2 * v.toNat + b.toNat := by
  have hp : 2 ^ d ≤ 2 ^ 31 := Nat.pow_le_pow_right (by decide) (by omega)
  cases b <;> simp [childValue, BitVec.toNat_add, BitVec.toNat_mul] <;> omega

theorem bitString_concat (d v : Nat) (b : Bool) : bitString (d + 1) (2 * v + b.toNat) = bitString d v ++ [b] := by
  unfold bitString
  rw [List.range_succ, List.map_append]
  refine congrArg₂ _ (List.map_congr_left fun k hk => ?_) ?_
  · have hk := List.mem_range.1 hk
    obtain ⟨m, hm⟩ : ∃ m, d + 1 - 1 - k = m + 1 := ⟨d - 1 - k, by omega⟩
    have hm' : d - 1 - k = m := by omega
    have hdiv : (2 * v + b.toNat) / 2 = v := by have := b.toNat_le; omega
    rw [hm, hm', Nat.testBit_succ, hdiv]
  · cases b <;> simp [Nat.testBit_zero]

/-- R161, R162: a visit gives the symbol of a leaf below its record the path to its record and on to the leaf, if the symbol is
on no other leaf. -/
theorem visit_path {t : NodeTable} {room : Nat} {i : NodeIdx} {d : Nat} {v : Word} {c c' : CodeTable} {p : List Bool}
    {r : Node} (h : visit t room i d v c = .ok c') (hd : d + room = 32) (hv : v.toNat < 2 ^ d)
    (hp : nodeOnPath t i p = some r) (hl : r.kind = .leaf)
    (hu : ∀ q r', nodeOnPath t i q = some r' → r'.kind = .leaf → r'.sym = r.sym → q = p) :
    (entry c'.len r.sym).toNat = d + p.length ∧ codeOf c' r.sym = bitString d v.toNat ++ p := by
  induction p generalizing room i d v c c' with
  | nil =>
    rw [visit_leaf room d v c hp hl] at h
    cases h
    have hlen : (entry (c.record r.sym d v).len r.sym).toNat = d := by
      rw [entry_record_len, if_pos rfl, BitVec.toNat_ofNat]
      omega
    refine ⟨hlen, ?_⟩
    rw [codeOf, hlen, entry_record_val, if_pos rfl, List.append_nil]
  | cons b p ih =>
    obtain ⟨_, ⟨r0, hr0, hk, rfl⟩, hp⟩ := nodeOnPath_cons_iff.1 hp
    have below {b' : Bool} {q : List Bool} {r' : Node} (hq : nodeOnPath t (r0.child b') q = some r')
        (hl' : r'.kind = .leaf) (hs : r'.sym = r.sym) : b' :: q = b :: p :=
      hu _ r' (nodeOnPath_cons_iff.2 ⟨_, ⟨r0, hr0, hk, rfl⟩, hq⟩) hl' hs
    obtain ⟨r1, hr1, hcase⟩ := visit_inv h
    obtain rfl := Option.some.inj (hr0.symm.trans hr1)
    rw [hk] at hcase
    obtain ⟨hk', -⟩ | ⟨hk', -⟩ | ⟨-, room', c1, rfl, h1, h2⟩ := hcase
    · cases hk'
    · cases hk'
    -- the child on the path
    have child {c0 c2 : CodeTable} (hc : visit t room' (r0.child b) (d + 1) (childValue v b) c0 = .ok c2) :
        (entry c2.len r.sym).toNat = d + (b :: p).length ∧ codeOf c2 r.sym = bitString d v.toNat ++ b :: p := by
      have hnat := childValue_toNat (by omega) hv b
      have hlt : (childValue v b).toNat < 2 ^ (d + 1) := by
        rw [hnat, pow_succ]
        have := b.toNat_le
        omega
      obtain ⟨hlen, hcode⟩ := ih hc (by omega) hlt hp fun q r' hq hl' hs => (List.cons.inj (below hq hl' hs)).2
      rw [hlen, hcode, hnat, bitString_concat, List.append_assoc, List.length_cons]
      exact ⟨by omega, rfl⟩
    cases b with
    | true => exact child h2
    | false =>
      -- the visit of the right child comes later and writes nothing of this symbol
      obtain ⟨hlen, hval⟩ := visit_frame room' h2 fun q r' hq hl' hs => by
        cases (List.cons.inj (below (b' := true) hq hl' hs)).1
      rw [codeOf, hlen, hval]
      exact child h1

/-- R161, R162: the code of a leaf's symbol is the path to the leaf. -/
theorem code_of_leaf {freq : WordTable} {t : Tree} {c : CodeTable} (ht : buildTree freq = .ok t)
    (hc : assignCodes t.node t.root = .ok c) {p : List Bool} {r : Node} (hp : nodeOnPath t.node t.root p = some r)
    (hl : r.kind = .leaf) : (entry c.len r.sym).toNat = p.length ∧ codeOf c r.sym = p := by
  obtain ⟨hlen, hcode⟩ := visit_path hc rfl (by decide) hp hl fun q r' => (treeShape ht).leaf_path_unique hp hl
  exact ⟨hlen.trans (Nat.zero_add _), hcode⟩

/-- R161: every symbol of the alphabet is on a leaf, at the end of its code. -/
theorem leaf_of_code {freq : WordTable} {t : Tree} {c : CodeTable} (ht : buildTree freq = .ok t)
    (hc : assignCodes t.node t.root = .ok c) {b : Byte} (hb : entry freq b ≠ 0) :
    ∃ r, nodeOnPath t.node t.root (codeOf c b) = some r ∧ r.kind = .leaf ∧ r.sym = b := by
  obtain ⟨p, r, hp, hl, rfl⟩ := (builtTree ht).reach b (mem_alphabet.2 hb)
  exact ⟨r, by rwa [(code_of_leaf ht hc hp hl).2], hl, rfl⟩

/-! ### The statements about the code assigner -/

theorem prerequisite_assign {s : State} (h : s.status.treeValid = true) : prerequisite .assign s = true := by
  simp [prerequisite, neededFlag, readsIn, h]

/-- Settles O22: with no INTERNAL record at depth 32 the one phase of ASSIGN ends with the codes of the tree. -/
theorem assignGivesEachLeafItsPath : Obligations.AssignGivesEachLeafItsPath := by
  intro s hr hv ht hshallow
  have hnot : ¬ TooDeep s.dp.node 32 s.dp.root := fun ⟨p, r, hlen, hp, hk⟩ => hshallow p r hlen hp hk
  obtain ⟨-, c, hc⟩ | ⟨hdeep, -⟩ := assignCodes_cases ht
  case inr => exact absurd hdeep hnot
  have hrange := codesInRange_of_assignCodes hc
  refine ⟨succeedWith .assign (s.dp.withCodes c) s,
    exec_of_phase_ok rfl rfl hr (prerequisite_assign hv) (phaseAssign_ok (e := s.env) hc),
    fun p r hp hl => ?_, fun b hb => ?_, ?_⟩
  · obtain ⟨hlen, hcode⟩ := code_of_leaf ht hc hp hl
    exact ⟨hlen, hcode, hlen ▸ (hrange r.sym).2⟩
  · have hlen : entry c.len b = 0 := by
      by_contra h
      exact (coded_iff_of_assignCodes ht hc b).1 h hb
    have hval := (hrange b).2
    rw [hlen] at hval
    exact ⟨hlen, BitVec.eq_of_toNat_eq (Nat.lt_one_iff.1 hval)⟩
  · rfl

/-- Settles O23: the walk comes to that record. -/
theorem assignRefusesTooDeepTrees : Obligations.AssignRefusesTooDeepTrees := by
  intro s hr hv ht hdeep
  obtain ⟨hnot, -⟩ | ⟨-, hc⟩ := assignCodes_cases ht
  · exact absurd hdeep hnot
  · exact exec_of_phase_raise rfl rfl hr (prerequisite_assign hv) (phaseAssign_error (e := s.env) hc)

/-- Settles O24: an INTERNAL record at depth 32 takes 34 symbols. -/
theorem atMost33SymbolsNeverTooLong : Obligations.AtMost33SymbolsNeverTooLong := by
  intro freq t ht hn
  obtain ⟨-, hc⟩ | ⟨⟨p, r, hlen, hp, hk⟩, -⟩ := assignCodes_cases ht
  · exact hc
  · have := (treeShape ht).internal_depth hp hk
    omega

/-- R165: no symbol's code starts the code of another. -/
theorem eq_of_code_prefix {freq : WordTable} {t : Tree} {c : CodeTable} (ht : buildTree freq = .ok t)
    (hc : assignCodes t.node t.root = .ok c) {b b' : Byte} (hb : entry freq b ≠ 0) (hb' : entry freq b' ≠ 0)
    (h : codeOf c b <+: codeOf c b') : b = b' := by
  obtain ⟨r, hr, hl, rfl⟩ := leaf_of_code ht hc hb
  obtain ⟨r', hr', -, rfl⟩ := leaf_of_code ht hc hb'
  have heq := nodeOnPath_prefix hr (by rw [hl]; decide) hr' h
  rw [heq] at hr
  rw [Option.some.inj (hr.symm.trans hr')]

/-- Settles O25: a code ends on a leaf, and no path goes on from there. -/
theorem assignedCodesArePrefixFree : Obligations.AssignedCodesArePrefixFree := fun _ _ _ ht hc =>
  ⟨coded_iff_of_assignCodes ht hc, codesInRange_of_assignCodes hc, fun _ _ hne hb hb' h =>
    hne (eq_of_code_prefix ht hc hb hb' h)⟩

/-- R165: of two codes that start the same sequence `f` the shorter one starts the other. -/
theorem eq_of_codes_start {freq : WordTable} {t : Tree} {c : CodeTable} (ht : buildTree freq = .ok t)
    (hc : assignCodes t.node t.root = .ok c) {b b' : Byte} (hb : entry freq b ≠ 0) (hb' : entry freq b' ≠ 0)
    {f : Nat → Bool} {m n : Nat} (hm : codeOf c b = (List.range m).map f) (hn : codeOf c b' = (List.range n).map f) :
    b = b' := by
  have starts_with {m n : Nat} (h : m ≤ n) : (List.range m).map f <+: (List.range n).map f := by
    obtain ⟨k, rfl⟩ := Nat.exists_eq_add_of_le h
    rw [List.range_add, List.map_append]
    exact List.prefix_append _ _
  rcases Nat.le_total m n with h | h
  · exact eq_of_code_prefix ht hc hb hb' (by rw [hm, hn]; exact starts_with h)
  · exact (eq_of_code_prefix ht hc hb' hb (by rw [hm, hn]; exact starts_with h)).symm

/-- R149, R161: the only code of a one-symbol tree is "0". -/
theorem codeOf_oneSymbol {freq : WordTable} {t : Tree} {c : CodeTable} {b : Byte} (hb : alphabet freq = [b])
    (ht : buildTree freq = .ok t) (hc : assignCodes t.node t.root = .ok c) (b' : Byte) :
    codeOf c b' = if b' = b then [false] else [] := by
  obtain ⟨t', ht', -, -, -, -, -, -, hc'⟩ := oneSymbolTreeHasPlaceholder freq b hb
  obtain rfl := Except.ok.inj (ht.symm.trans ht')
  obtain rfl := Except.ok.inj (hc.symm.trans hc')
  rw [codeOf, entry_record_len, entry_record_val]
  split
  · rfl
  · simp [CodeTable.empty, bitString]

/-- Settles O26: the sequence leads to a leaf, whose code it starts with; no code is "1" if there is one symbol. -/
theorem codeIsComplete : Obligations.CodeIsComplete := by
  intro freq t c ht hc
  refine ⟨fun h2 f => ?_, fun h1 b' => ?_⟩
  · have hT := treeShape ht
    obtain ⟨n, r, hr, hl⟩ := hT.exists_leaf h2 f le_rfl
    have hcode := (code_of_leaf ht hc hr hl).2
    obtain ⟨j, -, hj⟩ := nodeOnPath_iff.1 hr
    have hsym : entry freq r.sym ≠ 0 := mem_alphabet.1 (List.mem_of_getElem? (hT.leaf_sym j r hj hl))
    refine ⟨r.sym, ⟨hsym, ?_⟩, fun b' hb' hstart => eq_of_codes_start ht hc hb' hsym hstart hcode⟩
    rw [hcode, List.length_map, List.length_range]
  · obtain ⟨b, hb⟩ := List.length_eq_one_iff.1 h1
    rw [codeOf_oneSymbol hb ht hc]
    split <;> simp

end Sys2Proof.Machine

/-!
PROOFS. O53: in a legal state no phase is stuck. ASSIGN walks a built tree (`assignCodes_cases`); every child in a trie that RDHDR
has built is a record in use (R197), so DWALK stays among them; no other phase can be stuck in any state.
-/

namespace Sys2Proof.Machine

/-! ### The trie of a header is closed -/

/-- R194, R197: every child of a record in use is "no child" or a record in use, and `room` more records fit TNODE. -/
structure TrieClosed (room : Nat) (t : Trie) : Prop where
  child_lt : ∀ c : TrieIdx, c.toNat < t.tnn.toNat → ∀ bit, ((t.mem.read c).child bit).toNat < t.tnn.toNat
  pos : 0 < t.tnn.toNat
  fits : t.tnn.toNat + room ≤ trieCap

section
variable {t t' : Trie} {c c' : TrieIdx}

theorem TrieClosed.mono {m n : Nat} (h : TrieClosed n t) (hmn : m ≤ n) : TrieClosed m t :=
  { h with fits := (Nat.add_le_add_left hmn _).trans h.fits }

/-- R194: a new record is in use from then on. -/
theorem TrieClosed.grow {k : Nat} (h : TrieClosed (k + 1) t) (hc : c.toNat < t.tnn.toNat) (bit : Bool) :
    TrieClosed k (t.grow c bit) ∧ (t.grow c bit).tnn.toNat = t.tnn.toNat + 1 := by
  have hfits := h.fits
  rw [trieCap] at hfits
  have htnn : (t.grow c bit).tnn.toNat = t.tnn.toNat + 1 := by
    show (t.tnn + 1).toNat = _
    rw [BitVec.toNat_add]
    exact Nat.mod_eq_of_lt (by show t.tnn.toNat + 1 < 2 ^ 14; omega)
  have hne : c ≠ t.tnn := by
    rintro rfl
    exact lt_irrefl _ hc
  refine ⟨⟨fun j hj b => ?_, by omega, by rw [htnn, trieCap]; omega⟩, htnn⟩
  rw [grow_read t c bit hne (by rw [trieCap]; omega) (by rw [trieCap]; omega), htnn]
  split
  · rw [TNode.child_setChild]
    split
    · exact Nat.lt_succ_self _
    · exact Nat.lt_succ_of_lt (h.child_lt c hc b)
  · split
    · cases b <;> exact Nat.succ_pos _
    · next hjn =>
      have : j.toNat ≠ t.tnn.toNat := fun he => hjn (BitVec.eq_of_toNat_eq he)
      exact Nat.lt_succ_of_lt (h.child_lt j (by omega) b)

/-- R194: a descent over `k` bits ends at a record in use. -/
theorem TrieClosed.descend {val : Word} {k n : Nat} (h : TrieClosed (n + k) t) (hc : c.toNat < t.tnn.toNat)
    (hd : Trie.descend val k c t = .ok (c', t')) : TrieClosed n t' ∧ c'.toNat < t'.tnn.toNat := by
  induction k generalizing c t with
  | zero => cases hd; exact ⟨h, hc⟩
  | succ k ih =>
    rw [descend_succ] at hd
    split at hd
    · cases hd
    · split at hd
      · obtain ⟨hg, htnn⟩ := h.grow (k := n + k) hc (val.getLsbD k)
        exact ih hg (by rw [htnn]; exact Nat.lt_succ_self _) hd
      · exact ih (h.mono (Nat.le_succ _)) (h.child_lt c hc _) hd

/-- R194: a symbol put at a record leaves its children alone. -/
theorem TrieClosed.setSym {n : Nat} (h : TrieClosed n t) (sym : Byte) :
    TrieClosed n { t with mem := t.mem.write c { t.mem.read c with leaf := true, sym := sym } } := by
  refine { h with child_lt := fun j hj bit => ?_ }
  by_cases hjc : j = c
  · subst hjc
    have hcap : j.toNat < trieCap := lt_of_lt_of_le hj ((Nat.le_add_right _ _).trans h.fits)
    rw [TrieMem.read_write_self _ _ hcap]
    exact h.child_lt j hj bit
  · rw [TrieMem.read_write_other _ _ hjc]
    exact h.child_lt j hj bit

theorem TrieClosed.readEntry {m : Memory} {o n : Nat} (h : TrieClosed (n + 32) t) (hr : readEntry m o t = .ok t') :
    TrieClosed n t' := by
  obtain ⟨sym, len, val, hlen, hi⟩ := readEntry_inv hr
  obtain ⟨c, t1, hd, rfl⟩ := insert_inv hi
  have h0 : (0 : TrieIdx).toNat < t.tnn.toNat := h.pos
  exact ((h.mono (Nat.add_le_add_left hlen n)).descend h0 hd).1.setSym sym

theorem TrieClosed.readEntries {m : Memory} {o n : Nat} (h : TrieClosed (32 * n) t) (hr : readEntries m n o t = .ok t') :
    TrieClosed 0 t' := by
  induction n generalizing o t with
  | zero => cases hr; exact h
  | succ n ih =>
    obtain ⟨t1, hr1, hr⟩ := readEntries_succ_inv hr
    exact ih (TrieClosed.readEntry h hr1) hr

theorem trieClosed_root (m : TrieMem) : TrieClosed (32 * 256) (Trie.root m) where
  child_lt := by
    intro c hc bit
    obtain rfl : c = 0 := BitVec.eq_of_toNat_eq (Nat.lt_one_iff.1 hc)
    rw [Trie.root, TrieMem.read_write_self _ _ (by decide)]
    cases bit <;> exact Nat.one_pos
  pos := Nat.one_pos
  fits := by
    show 1 + 32 * 256 ≤ 8193
    decide

/-- R197: no walk leaves the records in use of a trie that a header has given. -/
theorem trieClosed_of_readHeader {e : Env} {old : TrieMem} {a : Nat} (h : readHeader e old = .ok (a, t)) :
    TrieClosed 0 t := by
  obtain ⟨ha, hr⟩ := readHeader_inv h
  exact ((trieClosed_root old).mono (Nat.mul_le_mul_left 32 ha)).readEntries hr

end

/-! ### What cannot be stuck -/

/-- The result is there, or the hardware raises a fault. -/
def Unstuck {α : Type} (r : Except Stop α) : Prop := ∀ x, r ≠ .error (.stuck x)

namespace Unstuck

variable {α β : Type}

theorem ok (a : α) : Unstuck (Except.ok a) := fun _ h => by cases h

theorem raise (x : HwFault) : Unstuck (Except.error (.raise x) : Except Stop α) := fun _ h => by cases h

/-- An error that is passed on. -/
theorem of_error {r : Except Stop α} {x : Stop} (hr : Unstuck r) (h : r = .error x) :
    Unstuck (Except.error x : Except Stop β) := by
  cases x with
  | raise x => exact raise x
  | stuck x => exact absurd h (hr x)

theorem bind {r : Except Stop α} {g : α → Except Stop β} (hr : Unstuck r) (hg : ∀ a, r = .ok a → Unstuck (g a)) :
    Unstuck (r.bind g) := by
  cases r with
  | ok a => exact hg a rfl
  | error x => exact hr.of_error rfl

theorem map {r : Except Stop α} (g : α → β) (hr : Unstuck r) : Unstuck (r.map g) := hr.bind fun a _ => ok (g a)

/-- A loop is not stuck if no round is, along a property that the rounds keep. -/
theorem loop {f : α → Except Stop α} (P : α → Prop) (hf : ∀ a, P a → Unstuck (f a))
    (hP : ∀ a b, P a → f a = .ok b → P b) (n : Nat) {a : α} (ha : P a) : Unstuck (loop f n a) := by
  induction n generalizing a with
  | zero => exact ok a
  | succ n ih =>
    rw [loop_succ]
    exact (hf a ha).bind fun b hb => ih (hP a b ha hb)

variable {e : Env}

theorem put8 (v : Byte) (d : Datapath) : Unstuck (put8 e v d) := by
  rcases put8_cases e v d with ⟨-, h⟩ | ⟨-, h⟩ <;> rw [h]
  · exact ok _
  · exact raise _

theorem putAll (bs : List Byte) (d : Datapath) : Unstuck (putAll e bs d) := by
  induction bs generalizing d with
  | nil => exact ok d
  | cons v vs ih =>
    rw [putAll_cons]
    exact (put8 v d).bind fun d' _ => ih d'

theorem pushBit (b : Bool) (d : Datapath) : Unstuck (pushBit e b d) := by
  by_cases h8 : d.nb + 1 = 8
  · rw [pushBit_eq_put8 h8]
    exact (put8 _ _).map _
  · rw [pushBit_eq_ok h8]
    exact ok _

theorem sendBit (d : Datapath) : Unstuck (sendBit e d) := by
  rw [sendBit_eq]
  exact (pushBit _ d).map _

theorem packByte (d : Datapath) : Unstuck (packByte e d) := by
  by_cases hl : entry d.codeLen (e.inByte d.rp) = 0
  · rw [packByte_uncoded hl]
    exact raise _
  · rw [packByte_coded hl]
    exact loop (fun _ => True) (fun d _ => sendBit d) (fun _ _ _ _ => trivial) _ trivial

theorem phasePack (d : Datapath) : Unstuck (phasePack e d) := by
  by_cases hl : e.inLen = 0
  · rw [phasePack_empty d hl]
    exact raise _
  · rw [phasePack_eq d hl]
    refine (loop (fun _ => True) (fun d _ => packByte d) (fun _ _ _ _ => trivial) _ trivial).bind fun d' _ => ?_
    rw [finishPack_eq]
    exact (putAll _ d').map _

theorem descend (val : Word) (k : Nat) (c : TrieIdx) (t : Trie) : Unstuck (Trie.descend val k c t) := by
  induction k generalizing c t with
  | zero => exact ok _
  | succ k ih =>
    rw [descend_succ]
    split
    · exact raise _
    · split
      · exact ih _ _
      · exact ih _ _

theorem trieInsert (t : Trie) (sym : Byte) (len : Nat) (val : Word) : Unstuck (t.insert sym len val) := by
  unfold Trie.insert
  split
  · next x hx => exact (descend val len 0 t).of_error hx
  · dsimp only
    split
    · exact raise _
    · split
      · exact raise _
      · exact ok _

theorem readEntry (m : Memory) (o : Nat) (t : Trie) : Unstuck (readEntry m o t) := by
  by_cases h : (headerEntryAt m o).legal
  · rw [readEntry_legal t h]
    exact trieInsert t _ _ _
  · rw [readEntry_illegal t h]
    exact raise _

theorem readEntries (m : Memory) (n o : Nat) (t : Trie) : Unstuck (readEntries m n o t) := by
  induction n generalizing o t with
  | zero => exact ok t
  | succ n ih =>
    unfold Machine.readEntries
    split
    · exact ih _ _
    · next x hx => exact (readEntry m o t).of_error hx

theorem readHeader (e : Env) (old : TrieMem) : Unstuck (readHeader e old) := by
  unfold Machine.readHeader
  split
  · exact raise _
  · dsimp only
    split
    · exact raise _
    · split
      · exact raise _
      · split
        · exact ok _
        · next x hx => exact (readEntries _ _ _ _).of_error hx

theorem phaseRdhdr (d : Datapath) : Unstuck (phaseRdhdr e d) := by
  cases hr : Machine.readHeader e d.tnode with
  | ok header =>
    rw [phaseRdhdr_ok hr]
    exact ok _
  | error x =>
    rw [phaseRdhdr_error hr]
    exact (readHeader e d.tnode).of_error hr

end Unstuck

/-! ### The walk stays on its trie -/

/-- R45, R201: the walk stands at a record in use of the trie `t`. -/
structure OnTrie (t : Trie) (d : Datapath) : Prop where
  mem : d.tnode = t.mem
  cur : d.cur.toNat < t.tnn.toNat

section
variable {e : Env} {t : Trie} {n : Nat} {d d' : Datapath} (ht : TrieClosed n t)
include ht

theorem OnTrie.next_lt (h : OnTrie t d) (bit : Bool) : ((d.tnode.read d.cur).child bit).toNat < t.tnn.toNat := by
  rw [h.mem]
  exact ht.child_lt _ h.cur bit

theorem OnTrie.walkStep_unstuck (h : OnTrie t d) (bit : Bool) : Unstuck (walkStep e bit d) := by
  have hlt : ((d.tnode.read d.cur).child bit).toNat < trieCap :=
    (h.next_lt ht bit).trans_le ((Nat.le_add_right _ _).trans ht.fits)
  rcases walkStep_eq e bit d with ⟨-, hw⟩ | ⟨-, hcap, -⟩ | ⟨-, -, -, hw⟩ | ⟨-, -, -, ⟨-, hw⟩ | ⟨-, hw⟩⟩
  · rw [hw]; exact .raise _
  · exact absurd hlt (Nat.not_lt.2 hcap)
  · rw [hw]; exact .ok _
  · rw [hw]; exact .ok _
  · rw [hw]; exact .raise _

theorem OnTrie.walkBit_unstuck (h : OnTrie t d) : Unstuck (walkBit e d) := by
  have hnext : OnTrie t (nextBit e d).2 := by
    obtain ⟨rp, usr, ub, hb⟩ := nextBit_frame e d
    rw [hb]
    exact ⟨h.mem, h.cur⟩
  exact hnext.walkStep_unstuck ht _

theorem OnTrie.walkBit (h : OnTrie t d) (hw : walkBit e d = .ok d') : OnTrie t d' := by
  obtain ⟨bit, rp, usr, ub, bl, -, -, ⟨-, rfl⟩ | ⟨-, -, rfl⟩⟩ := walkBit_inv hw
  · exact ⟨h.mem, h.next_lt ht bit⟩
  · exact ⟨h.mem, ht.pos⟩

/-- R197, R200: DWALK on a trie of a header. -/
theorem phaseDwalk_unstuck (hd : d.tnode = t.mem) : Unstuck (phaseDwalk e d) := by
  by_cases hs : d.dh.toNat + 4 ≤ e.inLen.toNat
  case neg =>
    rw [phaseDwalk_short (Nat.lt_of_not_le hs)]
    exact .raise _
  by_cases hp : e.paddingOk d.dh.toNat
  case neg =>
    rw [phaseDwalk_badPadding hs hp]
    exact .raise _
  rw [phaseDwalk_walk hp]
  have hstart : OnTrie t (walkStart (e.walkLength d.dh.toNat) d) := ⟨hd, ht.pos⟩
  refine (Unstuck.loop (OnTrie t) (fun _ h => h.walkBit_unstuck ht) (fun _ _ h => h.walkBit ht) _ hstart).bind
    fun d1 _ => ?_
  unfold finishWalk
  split
  · exact .raise _
  · exact .ok _

end

/-! ### Legal states -/

/-- R161, R197: no phase that runs in a legal state is stuck. -/
theorem phaseFn_unstuck {s : State} {p : Phase} (h : Legal s) (hp : s.seq = .run p) :
    Unstuck (phaseFn p s.env s.dp) := by
  obtain ⟨hf, -, -⟩ := h.control.running_flags p hp
  cases p with
  | clr => exact .ok _
  | freq =>
    by_cases hl : s.env.inLen = 0
    · rw [phaseFn, phaseFreq_empty _ hl]
      exact .raise _
    · rw [phaseFn, phaseFreq_ok _ hl]
      exact .ok _
  | build =>
    cases hb : buildTree s.dp.freq with
    | error x => rw [phaseFn, phaseBuild_error hb]; exact .raise x
    | ok t => rw [phaseFn, phaseBuild_ok hb]; exact .ok _
  | assign =>
    rcases assignCodes_cases (h.tables.tree hf.1) with ⟨-, c, hc⟩ | ⟨-, hc⟩
    · rw [phaseFn, phaseAssign_ok hc]
      exact .ok _
    · rw [phaseFn, phaseAssign_error hc]
      exact .raise _
  | wrhdr => exact .putAll _ _
  | pack => exact .phasePack _
  | rdhdr => exact .phaseRdhdr _
  | dwalk =>
    obtain ⟨_, _, _, hr, -, -⟩ := h.tables.trie hf.1
    exact phaseDwalk_unstuck (trieClosed_of_readHeader hr) rfl

/-- R27: in a legal state that runs, SEQ and OPL name a phase of a command. -/
theorem ControlOk.exists_atPhase {s : State} {p : Phase} (h : ControlOk s) (hp : s.seq = .run p) :
    ∃ c ps, AtPhase c p ps s := by
  obtain ⟨c, hc, hmem⟩ := h.running p hp
  obtain ⟨pre, ps, hps⟩ := List.append_of_mem hmem
  exact ⟨c, ps, hp, hc, phasesAfter_phasesOf hps⟩

theorem sequencerStep_ne_fault {s : State} (h : Legal s) (x : Fault) : sequencerStep s ≠ .fault x := by
  cases hs : s.seq with
  | idle =>
    rw [sequencerStep_idle hs]
    simp
  | run p =>
    obtain ⟨c, ps, hat⟩ := h.control.exists_atPhase hs
    cases hf : phaseFn p s.env s.dp with
    | ok d =>
      cases ps with
      | nil =>
        rw [sequencerStep_last hat hf]
        simp
      | cons q qs =>
        rw [sequencerStep_more hat hf]
        simp
    | error y =>
      cases y with
      | raise y =>
        rw [sequencerStep_raise hat hf]
        simp
      | stuck y => exact absurd hf (phaseFn_unstuck h hs y)

theorem sequencerRun_ne_fault (n : Nat) {s : State} (h : Legal s) (x : Fault) : sequencerRun n s ≠ .fault x := by
  induction n generalizing s with
  | zero => simp [sequencerRun]
  | succ n ih =>
    cases hq : sequencerStep s with
    | next t =>
      rw [sequencerRun_succ_next n hq]
      exact ih (stepInvariant_legal.sequencerStep h hq)
    | fault y => exact absurd hq (sequencerStep_ne_fault h y)
    | refused y => simp [sequencerRun, hq]

/-- A command in one step is the same as in phase steps (O48). -/
theorem exec_ne_fault (i : Instr) {s : State} (h : Legal s) (x : Fault) : exec i s ≠ .fault x := by
  cases hb : s.status.busy with
  | true =>
    rw [exec_busy i hb]
    simp
  | false =>
    rw [← phaseStepsEqualOneStep i s hb (h.control.seq_busy.2 hb)]
    exact sequencerRun_ne_fault _ (stepInvariant_legal.startCommand i h) x

/-- R49, U7: a byte access of IN or OUT stops with the fault of its buffer only. -/
theorem bufferAccess_fault {busy : Bool} {cap a : Nat} {x y : Fault} {t : State}
    (h : (if busy then .refused .bufferWhileBusy else if cap ≤ a then .fault y else .next t :
      Host.Outcome State Fault Refusal) = .fault x) : x = y := by
  split at h
  · cases h
  · split at h
    · cases h; rfl
    · cases h

theorem regRead_ne_fault (off : Nat) (s : State) (x : Fault) : regRead off s ≠ .fault x := by
  unfold regRead
  split
  · simp
  · split <;> simp

theorem regWrite_ne_fault (off : Nat) (v : Word) (s : State) (x : Fault) : regWrite off v s ≠ .fault x := by
  cases hok : regOffsetOk off with
  | false => simp [regWrite, hok]
  | true =>
    rw [regWrite_ok hok]
    simp

/-- Log 12: a host access stops at a byte beyond the buffers only; a wait is a step of the sequencer. -/
theorem hostAccess_fault {s : State} {m : HostMove} {x : Fault} (h : Legal s) (hx : hostAccess m s = .fault x) :
    x = .noSuchInByte ∨ x = .noSuchOutByte := by
  cases m with
  | regWrite off v => exact absurd hx (regWrite_ne_fault off v s x)
  | regRead off => exact absurd hx (regRead_ne_fault off s x)
  | inWrite a b => exact .inl (bufferAccess_fault hx)
  | inRead a => exact .inl (bufferAccess_fault hx)
  | outRead a => exact .inr (bufferAccess_fault hx)
  | startCommand w =>
    unfold hostAccess at hx
    dsimp only at hx
    split at hx <;> cases hx
  | wait => exact absurd hx (sequencerStep_ne_fault h x)
  | hwReset => cases hx

/-- Settles O53: a step is the sequencer's, a command, or the host's access. -/
theorem legalStatesNeverGetStuck : Obligations.LegalStatesNeverGetStuck := by
  intro s x h hx
  unfold step at hx
  split at hx
  · exact absurd hx (sequencerStep_ne_fault h x)
  · next m ms _ =>
    have hq : Legal { s with host := ms } := stepInvariant_legal.queue s ms h
    split at hx
    · exact hostAccess_fault hq hx
    · split at hx
      · exact absurd hx (exec_ne_fault _ hq x)
      · cases hx

end Sys2Proof.Machine

/-!
PROOFS. O28, O29, O31: WRHDR and PACK as commands. When every byte of the input has a code, PACK is one run of puts, the payload
and the trailer, with the registers as log 9 says (`phasePack_eq_putAll`).
-/

namespace Sys2Proof.Machine

/-! ### PACK of a coded input -/

section
variable {e : Env} {d d' : Datapath}

/-- R28, R171: a byte that is packed is behind RP, and its code is sent to the last bit. -/
theorem packByte_ends (h : packByte e d = .ok d') : d'.rp = d.rp + 1 ∧ d'.crem = 0 := by
  obtain ⟨_, _, _, _, rfl⟩ := pushAll_frame (packByte_inv h).2
  exact ⟨rfl, rfl⟩

theorem loop_packByte_rp {n : Nat} (h : loop (packByte e) n d = .ok d') : d'.rp = d.rp + BitVec.ofNat 32 n := by
  induction n generalizing d with
  | zero => cases h; simp
  | succ n ih =>
    cases hb : packByte e d with
    | ok d1 =>
      rw [loop_succ_ok _ n hb] at h
      rw [ih h, (packByte_ends hb).1, Nat.add_comm, BitVec.ofNat_add, ← BitVec.add_assoc]
      rfl
    | error x => rw [loop_succ_error _ n hb] at h; cases h

theorem loop_packByte_crem {n : Nat} (hn : n ≠ 0) (h : loop (packByte e) n d = .ok d') : d'.crem = 0 := by
  obtain ⟨n, rfl⟩ := Nat.exists_eq_succ_of_ne_zero hn
  cases hb : packByte e d with
  | ok d1 =>
    rw [loop_succ_ok _ n hb] at h
    exact loop_keeps (P := fun d => d.crem = 0) _ (fun _ _ _ h => (packByte_ends h).2) n d1 d' (packByte_ends hb).2 h
  | error x => rw [loop_succ_error _ n hb] at h; cases h

/-- R175: `loop_packByte_eq` with the registers at the end. -/
theorem loop_packByte_coded {n : Nat} (hn : n ≠ 0) (h : ∀ b ∈ e.bytesFrom d.rp n, entry d.codeLen b ≠ 0) :
    ∃ csr, loop (packByte e) n d = (pushAll e (payloadBits ⟨d.codeLen, d.codeVal⟩ (e.bytesFrom d.rp n)) d).map
      (·.withSend (d.rp + BitVec.ofNat 32 n) csr 0) := by
  obtain ⟨rp, csr, crem, hloop⟩ := loop_packByte_eq h
  refine ⟨csr, ?_⟩
  cases hp : pushAll e (payloadBits ⟨d.codeLen, d.codeVal⟩ (e.bytesFrom d.rp n)) d with
  | error x => rw [hloop, hp]; rfl
  | ok d1 =>
    rw [hp] at hloop
    obtain rfl : rp = _ := loop_packByte_rp hloop
    obtain rfl : crem = 0 := loop_packByte_crem hn hloop
    exact hloop

theorem Pending.nb_toNat {q : List Bool} (h : Pending d q) : d.nb.toNat = q.length := by
  have := h.short
  rw [h.nb, BitVec.toNat_ofNat]
  omega

theorem Pending.nb_eq_zero_iff {q : List Bool} (h : Pending d q) : d.nb = 0 ↔ q = [] := by
  rw [← List.length_eq_zero_iff, ← h.nb_toNat]
  exact BitVec.toNat_inj.symm

/-- R172: what an incomplete byte leaves to fill up. -/
theorem Pending.padding {q : List Bool} (h : Pending d q) (hq : q ≠ []) : (8 - d.nb).toNat = 8 - q.length := by
  have hshort := h.short
  have hpos := List.length_pos_iff.2 hq
  rw [BitVec.toNat_sub, h.nb_toNat]
  show (2 ^ 4 - q.length + 8) % 2 ^ 4 = _
  omega

theorem flushed_eq {q : List Bool} (h : Pending d q) : d.flushed = flushBytes q := by
  rw [Datapath.flushed, flushBytes]
  by_cases hq : q = []
  · rw [if_pos hq, if_pos (h.nb_eq_zero_iff.2 hq)]
  · rw [if_neg hq, if_neg (mt h.nb_eq_zero_iff.1 hq), h.padding hq, h.acc]

theorem padBits_toNat {q : List Bool} (h : Pending d q) : d.padBits.toNat = (8 - q.length) % 8 := by
  rw [Datapath.padBits]
  by_cases hq : q = []
  · rw [if_pos (h.nb_eq_zero_iff.2 hq), hq]
    rfl
  · have hpos := List.length_pos_iff.2 hq
    rw [if_neg (mt h.nb_eq_zero_iff.1 hq), h.padding hq]
    omega

/-- R172, R175: the end of PACK behind the pushes of `bits`. -/
theorem finishPack_pending {bits : List Bool} (h : Pending d (leftOver bits)) :
    finishPack e d = (putAll e (flushBytes (leftOver bits) ++ fieldBytes (padCount bits)) d).map
      (Datapath.packed (BitVec.ofNat 4 (padCount bits))) := by
  have hpad : d.padBits.toNat = padCount bits := by rw [padBits_toNat h, leftOver_length, padCount]
  have hfield : le32 (d.padBits.setWidth 32) = fieldBytes (padCount bits) := by
    have hlt := d.padBits.isLt
    rw [le32_eq_fieldBytes, BitVec.toNat_setWidth, Nat.mod_eq_of_lt (by omega), hpad]
  rw [finishPack_eq, flushed_eq h, hfield, ← hpad, BitVec.ofNat_toNat, BitVec.setWidth_eq]

/-- The packer's registers when PACK has sent `len` bytes (log 9) and counted `pad` padding bits. -/
def Datapath.packEnd (d : Datapath) (len csr : Word) (pad : Nat) : Datapath :=
  { d with acc := 0, nb := 0, rp := len, csr := csr, crem := 0, pad := BitVec.ofNat 3 pad }

theorem packed_withSend_withPending (d : Datapath) (q : List Bool) (len csr : Word) (pad : Nat) :
    Datapath.packed (BitVec.ofNat 4 pad) ((d.withPending q).withSend len csr 0) = d.packEnd len csr pad := by
  have h : (BitVec.ofNat 4 pad).setWidth 3 = BitVec.ofNat 3 pad := by
    apply BitVec.eq_of_toNat_eq
    simp only [BitVec.toNat_setWidth, BitVec.toNat_ofNat]
    omega
  rw [Datapath.packed, h]
  rfl

/-- R175, R171, R172: PACK of a coded input puts its payload and the trailer, if they fit. -/
theorem phasePack_eq_putAll (hl : e.inLen ≠ 0) (hc : ∀ b ∈ e.bytesFrom 0 e.inLen.toNat, entry d.codeLen b ≠ 0) :
    ∃ csr, phasePack e d =
      (putAll e (packBytes ⟨d.codeLen, d.codeVal⟩ (e.bytesFrom 0 e.inLen.toNat)) (packStart d)).map
        (·.packEnd e.inLen csr (padCount (payloadBits ⟨d.codeLen, d.codeVal⟩ (e.bytesFrom 0 e.inLen.toNat)))) := by
  have hn : e.inLen.toNat ≠ 0 := fun h => hl (BitVec.eq_of_toNat_eq h)
  obtain ⟨csr, hloop⟩ := loop_packByte_coded (d := packStart d) hn hc
  refine ⟨csr, ?_⟩
  have hrp : (packStart d).rp + BitVec.ofNat 32 e.inLen.toNat = e.inLen := by simp [packStart]
  rw [hrp] at hloop
  obtain ⟨bits, hbits⟩ : ∃ bits, payloadBits ⟨d.codeLen, d.codeVal⟩ (e.bytesFrom 0 e.inLen.toNat) = bits := ⟨_, rfl⟩
  change _ = (pushAll e (payloadBits ⟨d.codeLen, d.codeVal⟩ (e.bytesFrom 0 e.inLen.toNat)) (packStart d)).map _ at hloop
  rw [phasePack_eq d hl, hloop, packBytes, hbits, pushAll_eq_putAll bits (q := []) ⟨by simp, rfl, rfl⟩, List.nil_append,
    payloadBytes_eq, List.append_assoc, putAll_append]
  cases putAll e (fullBytes bits) (packStart d) with
  | error x => rfl
  | ok d1 =>
    have hlt : (leftOver bits).length < 8 := by rw [leftOver_length]; omega
    have hp : Pending ((d1.withPending (leftOver bits)).withSend e.inLen csr 0) (leftOver bits) := ⟨hlt, rfl, rfl⟩
    refine (finishPack_pending hp).trans ?_
    rw [(commutesWithPut_withSend e.inLen csr 0).putAll, (commutesWithPut_withPending _).putAll]
    change _ = (putAll e (flushBytes (leftOver bits) ++ fieldBytes (padCount bits)) d1).map _
    cases putAll e (flushBytes (leftOver bits) ++ fieldBytes (padCount bits)) d1 with
    | error x => rfl
    | ok d2 => exact congrArg Except.ok (packed_withSend_withPending d2 _ _ _ _)

theorem padCount_lt (bits : List Bool) : padCount bits < 8 := Nat.mod_lt _ (by decide)

theorem packEnd_pad_toNat (d : Datapath) (len csr : Word) (bits : List Bool) :
    (d.packEnd len csr (padCount bits)).pad.toNat = padCount bits := Nat.mod_eq_of_lt (padCount_lt bits)

theorem packBytes_length (c : CodeTable) (input : List Byte) :
    (packBytes c input).length = payloadLength (payloadBits c input) + 4 := by
  simp [packBytes, payloadBytes, fieldBytes]

end

/-! ### WRHDR and PACK as commands -/

/-- R174, R97: WRHDR of a header that fits. -/
theorem phaseWrhdr_ok {e : Env} {d : Datapath} (hfit : (header d.nsyms ⟨d.codeLen, d.codeVal⟩).length ≤ e.outCap)
    (hcap : e.outCap < 2 ^ 32) :
    phaseWrhdr e d = .ok ({ d with wp := 0 }.putBytes (header d.nsyms ⟨d.codeLen, d.codeVal⟩)) := by
  have hb : headerBytes d.nsyms d.codeLen d.codeVal = header d.nsyms ⟨d.codeLen, d.codeVal⟩ :=
    headerBytes_eq_header d.nsyms ⟨d.codeLen, d.codeVal⟩
  rw [phaseWrhdr, hb]
  exact putAll_ok _ ((Nat.zero_add _).trans_le hfit) hcap

/-- Settles O28: the one phase of WRHDR puts the header from WP = 0 on. -/
theorem wrhdrWritesTheHeader : Obligations.WrhdrWritesTheHeader := by
  intro s hr hv hcap hfit
  have hphase : phaseFn .wrhdr s.env s.dp = .ok ({ s.dp with wp := 0 }.putBytes s.header) :=
    phaseWrhdr_ok (e := s.env) hfit hcap
  have hwp : ({ s.dp with wp := 0 }.putBytes s.header).wp.toNat = s.header.length := by
    rw [putBytes_wp ((Nat.zero_add _).trans_le hfit) hcap]
    exact Nat.zero_add _
  exact ⟨_, exec_of_phase_ok rfl rfl hr (by simp [prerequisite, neededFlag, readsIn, hv]) hphase,
    Memory.map_read_writeAll s.dp.out 0 s.header,
    fun a ha => Memory.read_writeAll_outside s.dp.out 0 s.header (.inr ((Nat.zero_add _).trans_le ha)), hwp, rfl⟩

theorem bytesFrom_all (s : State) : s.env.bytesFrom 0 s.inLen.toNat = s.input := by
  rw [bytesFrom_input le_rfl, List.take_of_length_le (by simp [State.input])]

theorem prerequisite_pack {s : State} (hv : s.status.hdrDone = true) (hin : s.inLen.toNat ≤ s.inCap) :
    prerequisite .pack s = true := by
  simp [prerequisite, neededFlag, hv, hin]

/-- R175: PACK of an input that is coded and fits: its payload and the trailer are put. -/
theorem phasePack_ok {s : State} {d : Datapath} (hpos : 0 < s.inLen.toNat) (hcap : s.outCap < 2 ^ 32)
    (hc : ∀ b ∈ s.input, entry d.codeLen b ≠ 0)
    (hfit : 4 + 9 * d.nsyms.toNat + (packBytes ⟨d.codeLen, d.codeVal⟩ s.input).length ≤ s.outCap) :
    ∃ csr, phasePack s.env d = .ok (((packStart d).putBytes (packBytes ⟨d.codeLen, d.codeVal⟩ s.input)).packEnd
      s.inLen csr (padCount (payloadBits ⟨d.codeLen, d.codeVal⟩ s.input))) := by
  have hl : s.env.inLen ≠ 0 := fun h => hpos.ne' (congrArg BitVec.toNat h)
  have hbytes : s.env.bytesFrom 0 s.env.inLen.toNat = s.input := bytesFrom_all s
  obtain ⟨csr, hpack⟩ := phasePack_eq_putAll (d := d) hl (hbytes.symm ▸ hc)
  rw [hbytes, putAll_ok _ ((payloadStart_toNat d).symm ▸ hfit) hcap] at hpack
  exact ⟨csr, hpack⟩

/-- Settles O29: the one phase of PACK puts the payload and the trailer from the payload's start on. -/
theorem packWritesPayloadAndTrailer : Obligations.PackWritesPayloadAndTrailer := by
  intro s hr hv hpos hin hcap hc hfit
  have hlen := packBytes_length s.codes s.input
  rw [Nat.add_assoc, ← hlen] at hfit
  have hstart : (packStart s.dp).wp.toNat = 4 + 9 * s.dp.nsyms.toNat := payloadStart_toNat s.dp
  obtain ⟨csr, hpack⟩ := phasePack_ok hpos hcap hc hfit
  refine ⟨_, exec_of_phase_ok (p := .pack) rfl rfl hr (prerequisite_pack hv hin) hpack, ?_, fun a ha => ?_,
    packEnd_pad_toNat _ _ _ _, ?_, rfl⟩
  · rw [← hlen, ← hstart]
    exact Memory.map_read_writeAll s.dp.out _ _
  · refine Memory.read_writeAll_outside s.dp.out _ _ ?_
    rw [Nat.add_assoc, ← hlen] at ha
    exact hstart.symm ▸ ha
  · rw [Nat.add_assoc, ← hlen, ← hstart]
    exact putBytes_wp (hstart.symm ▸ hfit) hcap

/-- R175, R68: PACK sends coded bytes as long as the bytes that they fill lie in OUT. -/
theorem loop_packByte_fits {e : Env} {d : Datapath} {n : Nat} {input : List Byte} (hbytes : e.bytesFrom 0 n = input)
    (hc : ∀ b ∈ input, entry d.codeLen b ≠ 0)
    (hfit : 4 + 9 * d.nsyms.toNat + (payloadBits ⟨d.codeLen, d.codeVal⟩ input).length / 8 ≤ e.outCap)
    (hcap : e.outCap < 2 ^ 32) :
    ∃ d', loop (packByte e) n (packStart d) = .ok d' ∧ d'.codeLen = d.codeLen ∧ d'.rp = BitVec.ofNat 32 n := by
  subst hbytes
  obtain ⟨rp, csr, crem, hloop⟩ := loop_packByte_eq (d := packStart d) hc
  have hpush := pushAll_ok (payloadBits ⟨d.codeLen, d.codeVal⟩ (e.bytesFrom 0 n)) (d := packStart d) (q := [])
    ⟨by simp, rfl, rfl⟩ ((payloadStart_toNat d).symm ▸ hfit) hcap
  have hok := hloop.trans (congrArg _ hpush)
  exact ⟨_, hok, rfl, (loop_packByte_rp hok).trans (BitVec.zero_add _)⟩

/-- Settles O31: PACK has sent the bytes before it, and finds that byte without a code. -/
theorem packRefusesByteWithoutCode : Obligations.PackRefusesByteWithoutCode := by
  intro s pre post b hr hv hin hcap hsplit hpre hb hfit
  have hlen : pre.length + (post.length + 1) = s.inLen.toNat := by
    rw [← List.length_cons (a := b), ← List.length_append, ← hsplit]
    simp [State.input]
  have hl : s.env.inLen ≠ 0 := fun h => by
    have h0 : s.inLen.toNat = 0 := congrArg BitVec.toNat h
    omega
  have hbytes : s.env.bytesFrom 0 pre.length = pre := by rw [bytesFrom_input (by omega), hsplit, List.take_left]
  obtain ⟨d, hloop, hcl, hrp⟩ := loop_packByte_fits hbytes hpre hfit hcap
  have hread : s.env.inByte d.rp = b := by
    have hget : s.input[pre.length]? = some b := by simp [hsplit]
    rw [State.input, List.getElem?_map, List.getElem?_range (by omega)] at hget
    rw [hrp, inByte_ofNat _ (by omega)]
    exact Option.some.inj hget
  have hstop : packByte s.env d = .error (.raise .noCode) := packByte_uncoded (by rw [hcl, hread, hb])
  refine exec_of_phase_raise (p := .pack) rfl rfl hr (prerequisite_pack hv hin) ?_
  refine (phasePack_eq (e := s.env) s.dp hl).trans ?_
  change (loop _ s.inLen.toNat _).bind _ = _
  rw [← hlen, loop_add, hloop]
  dsimp only
  rw [loop_succ_error _ _ hstop]
  rfl

end Sys2Proof.Machine

/-!
PROOFS. O32: a composite command (R129) against its parts run as commands. `commandEnd` is how a command ends on a ready core,
`commandsEnd` chains it; ENCODE ends as the chain of its five does (`commandEnd_encode`).
-/

namespace Sys2Proof.Machine

/-! ### How commands end on a ready core -/

/-- R121, R130: the state in which the command `c` completes, or why it stops. -/
def commandEnd (c : Instr) (s : State) : Except Stop State :=
  if prerequisite c s then (phasesRun c s.env s.dp).map (succeedWith c · s) else .error (.raise .illegalCommand)

/-- One command after the other, each from the state in which the one before completes. -/
def commandsEnd : List Instr → State → Except Stop State
  | [], s => .ok s
  | c :: cs, s => (commandEnd c s).bind (commandsEnd cs)

theorem commandEnd_of_prerequisite {c : Instr} {s : State} (hp : prerequisite c s = true) :
    commandEnd c s = (phasesRun c s.env s.dp).map (succeedWith c · s) := if_pos hp

theorem commandEnd_refused {c : Instr} {s : State} (hp : prerequisite c s = false) :
    commandEnd c s = .error (.raise .illegalCommand) := if_neg (by simp [hp])

theorem HwFault.code_injective : Function.Injective HwFault.code := by
  intro x y
  cases x <;> cases y <;> decide

section
variable {c : Instr} {s t : State}

theorem commandEnd_inv (h : commandEnd c s = .ok t) :
    prerequisite c s = true ∧ ∃ d, phasesRun c s.env s.dp = .ok d ∧ t = succeedWith c d s := by
  rw [commandEnd] at h
  split at h
  · next hp =>
    cases hd : phasesRun c s.env s.dp with
    | error x => rw [hd] at h; cases h
    | ok d => rw [hd] at h; cases h; exact ⟨hp, d, rfl, rfl⟩
  · cases h

theorem commandEnd_error_inv {x : Stop} (h : commandEnd c s = .error x) :
    x = .raise .illegalCommand ∨ phasesRun c s.env s.dp = .error x := by
  rw [commandEnd] at h
  split at h
  · cases hd : phasesRun c s.env s.dp with
    | error y => rw [hd] at h; cases h; exact .inr rfl
    | ok d => rw [hd] at h; cases h
  · cases h; exact .inl rfl

variable (ho : operational c = true) (hr : s.ready)
include hr

/-- R130: completion leaves the core ready. -/
theorem ready_of_commandEnd (h : commandEnd c s = .ok t) : t.ready := by
  obtain ⟨-, d, -, rfl⟩ := commandEnd_inv h
  rw [State.ready, succeedWith_status_table]
  simp [hr.2]

include ho

/-- R120, R130, R240: a ready core answers with the completion or with fault entry. -/
theorem exec_ready_next_iff : exec c s = .next t ↔
    commandEnd c s = .ok t ∨ ∃ x, commandEnd c s = .error (.raise x) ∧ t = faultEntry x s := by
  have hd : ¬ Dropped c s := not_dropped hr.1 (.inl hr.2)
  rw [exec_next_iff ho]
  cases hp : prerequisite c s with
  | false => simp [hd, commandEnd_refused hp]
  | true =>
    rw [commandEnd_of_prerequisite hp]
    rcases phasesRun c s.env s.dp with x | d <;> simp [hd, Except.map, @eq_comm _ t]

theorem exec_completes_iff : exec c s = .next t ∧ t.status.err = false ↔ commandEnd c s = .ok t := by
  rw [exec_ready_next_iff ho hr]
  constructor
  · rintro ⟨h | ⟨x, -, rfl⟩, he⟩
    · exact h
    · cases he
  · exact fun h => ⟨.inl h, (ready_of_commandEnd hr h).2⟩

theorem exec_raises_iff {x : HwFault} : exec c s = .next (faultEntry x s) ↔ commandEnd c s = .error (.raise x) := by
  rw [exec_ready_next_iff ho hr]
  constructor
  · rintro (h | ⟨y, h, heq⟩)
    · cases (ready_of_commandEnd hr h).2
    · rwa [HwFault.code_injective (congrArg State.errcode heq)]
  · exact fun h => .inr ⟨x, h, rfl⟩

end

/-! ### One command after the other -/

theorem execAll_cons_of_next {i : Instr} {is : List Instr} {s u : State} (h : exec i s = .next u) :
    execAll (i :: is) s = execAll is u := by
  simp only [execAll, h]

theorem execAll_cons_inv {i : Instr} {is : List Instr} {s t : State} (h : execAll (i :: is) s = .next t) :
    ∃ u, exec i s = .next u ∧ execAll is u = .next t := by
  cases hu : exec i s with
  | next u => exact ⟨u, rfl, execAll_cons_of_next hu ▸ h⟩
  | fault x => simp [execAll, hu] at h
  | refused x => simp [execAll, hu] at h

/-- R120 step 2: no command but NOP, ACK and CLR ends ERR = 1. -/
theorem execAll_keeps_err {is : List Instr} {s t : State} (his : ∀ i ∈ is, takenInFault i = false)
    (he : s.status.err = true) (h : execAll is s = .next t) : t.status.err = true := by
  induction is generalizing s with
  | nil => cases h; exact he
  | cons i is ih =>
    obtain ⟨hi, his⟩ := List.forall_mem_cons.1 his
    obtain ⟨u, hu, h⟩ := execAll_cons_inv h
    rw [exec_dropped (operational_of_takenInFault_eq_false hi) (.inr ⟨he, hi⟩)] at hu
    cases hu
    exact ih (s := drop s) his he h

theorem ready_of_commandsEnd {is : List Instr} {s t : State} (hr : s.ready) (h : commandsEnd is s = .ok t) : t.ready := by
  induction is generalizing s with
  | nil => cases h; exact hr
  | cons i is ih =>
    rw [commandsEnd] at h
    cases hend : commandEnd i s with
    | error x => rw [hend] at h; cases h
    | ok u => rw [hend] at h; exact ih (ready_of_commandEnd hr hend) h

/-- Commands in a row complete exactly when each completes where the one before it did. -/
theorem execAll_completes_iff {is : List Instr} {s t : State} (his : ∀ i ∈ is, takenInFault i = false) (hr : s.ready) :
    execAll is s = .next t ∧ t.status.err = false ↔ commandsEnd is s = .ok t := by
  induction is generalizing s with
  | nil =>
    constructor
    · rintro ⟨h, -⟩
      cases h
      rfl
    · intro h
      cases h
      exact ⟨rfl, hr.2⟩
  | cons i is ih =>
    obtain ⟨hi, his⟩ := List.forall_mem_cons.1 his
    have ho := operational_of_takenInFault_eq_false hi
    constructor
    · rintro ⟨h, he⟩
      obtain ⟨u, hu, h⟩ := execAll_cons_inv h
      have hue : u.status.err = false := by
        by_contra hue
        rw [execAll_keeps_err his (by simpa using hue) h] at he
        cases he
      have hend := (exec_completes_iff ho hr).1 ⟨hu, hue⟩
      rw [commandsEnd, hend]
      exact (ih his (ready_of_commandEnd hr hend)).1 ⟨h, he⟩
    · intro h
      rw [commandsEnd] at h
      cases hend : commandEnd i s with
      | error x => rw [hend] at h; cases h
      | ok u =>
        rw [hend] at h
        rw [execAll_cons_of_next ((exec_completes_iff ho hr).2 hend).1]
        exact (ih his (ready_of_commandEnd hr hend)).2 h

/-- The chain raises a fault exactly when its commands complete up to one that raises it. -/
theorem commandsEnd_raises_iff {is : List Instr} {s : State} {x : HwFault} :
    commandsEnd is s = .error (.raise x) ↔
      ∃ done i rest u, is = done ++ i :: rest ∧ commandsEnd done s = .ok u ∧ commandEnd i u = .error (.raise x) := by
  induction is generalizing s with
  | nil => simp [commandsEnd]
  | cons i is ih =>
    rw [commandsEnd]
    constructor
    · intro h
      cases hend : commandEnd i s with
      | error y => rw [hend] at h; exact ⟨[], i, is, s, rfl, rfl, hend.trans h⟩
      | ok u =>
        rw [hend] at h
        obtain ⟨done, j, rest, v, rfl, hdone, hj⟩ := ih.1 h
        exact ⟨i :: done, j, rest, v, rfl, by rw [commandsEnd, hend]; exact hdone, hj⟩
    · rintro ⟨_ | ⟨k, done⟩, j, rest, v, heq, hdone, hj⟩
      · cases heq
        cases hdone
        rw [hj]
        rfl
      · cases heq
        rw [commandsEnd] at hdone
        cases hend : commandEnd i s with
        | error y => rw [hend] at hdone; cases hdone
        | ok u =>
          rw [hend] at hdone
          exact ih.2 ⟨done, j, rest, v, rfl, hdone, hj⟩

/-- R129: a command that ends as the chain of its parts ends equals them, in success and in the fault raised. -/
theorem composite_equals_parts {c : Instr} {is : List Instr} {s : State} (ho : operational c = true)
    (his : ∀ i ∈ is, takenInFault i = false) (hr : s.ready) (h : commandEnd c s = commandsEnd is s) :
    (∀ t, (exec c s = .next t ∧ t.status.err = false) ↔ (execAll is s = .next t ∧ t.status.err = false)) ∧
    (∀ x, exec c s = .next (faultEntry x s) ↔
      ∃ done i rest u, is = done ++ i :: rest ∧
        execAll done s = .next u ∧ u.status.err = false ∧ exec i u = .next (faultEntry x u)) := by
  refine ⟨fun t => ?_, fun x => ?_⟩
  · rw [exec_completes_iff ho hr, execAll_completes_iff his hr, h]
  · rw [exec_raises_iff ho hr, h, commandsEnd_raises_iff]
    refine exists₄_congr fun done i rest u => and_congr_right fun heq => ?_
    subst heq
    rw [← and_assoc, execAll_completes_iff (fun j hj => his j (List.mem_append_left _ hj)) hr]
    have hi := operational_of_takenInFault_eq_false (his i (by simp))
    exact and_congr_right fun hdone => (exec_raises_iff hi (ready_of_commandsEnd hr hdone)).symm

/-- R129: in the state `s` the first phase of a composite command runs as the command `c` does, whose only phase it is. -/
theorem phase_then_parts {c : Instr} {p : Phase} {ps : List Phase} {is : List Instr} {s : State} {e : Env} {d : Datapath}
    {g : Datapath → State} (he : s.env = e) (hd : s.dp = d) (hc : phasesOf c = [p]) (hp : prerequisite c s = true)
    (h : ∀ d', (runAll (ps.map phaseFn) e d').map g = commandsEnd is (succeedWith c d' s)) :
    (runAll ((p :: ps).map phaseFn) e d).map g = commandsEnd (c :: is) s := by
  subst he hd
  rw [commandsEnd, commandEnd_of_prerequisite hp, phasesRun, hc, List.map_cons, List.map_singleton, runAll_cons, runAll_cons]
  cases phaseFn p s.env s.dp with
  | error x => rfl
  | ok d => exact h d

/-- R129, R177: ENCODE is its five phases, each of which finds the flag it needs set by the one before. -/
theorem commandEnd_encode (s : State) :
    commandEnd .encode s = commandsEnd [.freq, .build, .assign, .wrhdr, .pack] s := by
  cases hp : prerequisite .encode s with
  | false =>
    rw [commandsEnd, commandEnd_refused hp, commandEnd_refused (c := .freq) hp]
    rfl
  | true =>
    rw [commandEnd_of_prerequisite hp]
    refine phase_then_parts rfl rfl rfl hp fun freq => ?_
    refine phase_then_parts rfl rfl rfl rfl fun build => ?_
    refine phase_then_parts rfl rfl rfl rfl fun assign => ?_
    refine phase_then_parts rfl rfl rfl rfl fun wrhdr => ?_
    exact phase_then_parts rfl rfl rfl hp fun pack => rfl

/-- Settles O32: ENCODE ends as the chain of its five phases as commands. -/
theorem encodeEqualsItsFivePhases : Obligations.EncodeEqualsItsFivePhases := fun s hr =>
  composite_equals_parts rfl (by decide) hr (commandEnd_encode s)

end Sys2Proof.Machine

/-!
PROOFS. O10, O30, O33, O44: ENCODE and what the encoder leaves. On an input of at least one byte FREQ and BUILD always end, so
that ENCODE is the walk of ASSIGN and then the puts of WRHDR and PACK (`phasesRun_encode`).
-/

namespace Sys2Proof.Machine

/-! ### Where the puts of PACK end -/

section
variable {e : Env} {d d' : Datapath}

/-- R68: puts write OUT and move WP. -/
theorem putAll_frame {bs : List Byte} (h : putAll e bs d = .ok d') : ∃ out wp, d' = { d with out := out, wp := wp } := by
  induction bs generalizing d with
  | nil => cases h; exact ⟨_, _, rfl⟩
  | cons v vs ih =>
    obtain ⟨d1, hv, hvs⟩ := putAll_cons_inv h
    obtain ⟨-, rfl⟩ := put8_inv hv
    obtain ⟨out, wp, rfl⟩ := ih hvs
    exact ⟨out, wp, rfl⟩

/-- R68: puts raise nothing but OutputOverflow. -/
theorem putAll_error {bs : List Byte} {x : Stop} (h : putAll e bs d = .error x) : x = .raise .outputOverflow := by
  induction bs generalizing d with
  | nil => cases h
  | cons v vs ih =>
    rw [putAll_cons] at h
    rcases put8_cases e v d with ⟨-, hv⟩ | ⟨-, hv⟩ <;> rw [hv] at h
    · exact ih h
    · cases h; rfl

/-- R175, R176: a PACK that ends has found a code for every byte of a non-empty input. -/
theorem phasePack_end (h : phasePack e d = .ok d') :
    e.inLen ≠ 0 ∧ (∀ b ∈ e.bytesFrom 0 e.inLen.toNat, entry d.codeLen b ≠ 0) ∧
    ∃ out wp csr, d' = { d with out := out, wp := wp }.packEnd e.inLen csr
      (padCount (payloadBits ⟨d.codeLen, d.codeVal⟩ (e.bytesFrom 0 e.inLen.toNat))) := by
  obtain ⟨hl, d1, hloop, -⟩ := phasePack_inv h
  have hc : ∀ b ∈ e.bytesFrom 0 e.inLen.toNat, entry d.codeLen b ≠ 0 := (loop_packByte_inv hloop).1
  obtain ⟨csr, hput⟩ := phasePack_eq_putAll hl hc
  rw [hput] at h
  cases hd : putAll e (packBytes ⟨d.codeLen, d.codeVal⟩ (e.bytesFrom 0 e.inLen.toNat)) (packStart d) with
  | error x => rw [hd] at h; cases h
  | ok d2 =>
    rw [hd] at h
    cases h
    obtain ⟨out, wp, rfl⟩ := putAll_frame hd
    exact ⟨hl, hc, out, wp, csr, rfl⟩

/-- R176, R179: a PACK of a coded input stops at OUT_CAP only. -/
theorem phasePack_error {x : Stop} (hl : e.inLen ≠ 0) (hc : ∀ b ∈ e.bytesFrom 0 e.inLen.toNat, entry d.codeLen b ≠ 0)
    (h : phasePack e d = .error x) : x = .raise .outputOverflow := by
  obtain ⟨csr, hput⟩ := phasePack_eq_putAll hl hc
  rw [hput] at h
  cases hd : putAll e (packBytes ⟨d.codeLen, d.codeVal⟩ (e.bytesFrom 0 e.inLen.toNat)) (packStart d) with
  | error y => rw [hd] at h; cases h; exact putAll_error hd
  | ok d2 => rw [hd] at h; cases h

theorem runAll_cons_ok {f : PhaseFn} (fs : List PhaseFn) (h : f e d = .ok d') : runAll (f :: fs) e d = runAll fs e d' := by
  rw [runAll_cons, h]
  rfl

theorem runAll_cons_error {f : PhaseFn} {x : Stop} (fs : List PhaseFn) (h : f e d = .error x) :
    runAll (f :: fs) e d = .error x := by
  rw [runAll_cons, h]
  rfl

theorem runAll_singleton (f : PhaseFn) : runAll [f] e d = f e d := by
  rw [runAll_cons]
  cases f e d <;> rfl

/-- R129: a run of phases that ends has a first one that ends. -/
theorem runAll_cons_inv {f : PhaseFn} {fs : List PhaseFn} (h : runAll (f :: fs) e d = .ok d') :
    ∃ d1, f e d = .ok d1 ∧ runAll fs e d1 = .ok d' := by
  cases hf : f e d with
  | error x => rw [runAll_cons_error fs hf] at h; cases h
  | ok d1 => exact ⟨d1, rfl, runAll_cons_ok fs hf ▸ h⟩

/-- R129: the datapath at the end of the phases comes from the last one. -/
theorem runAll_last {fs : List PhaseFn} {f : PhaseFn} (h : runAll (fs ++ [f]) e d = .ok d') : ∃ d1, f e d1 = .ok d' := by
  induction fs generalizing d with
  | nil =>
    obtain ⟨d1, hf, h⟩ := runAll_cons_inv h
    cases h
    exact ⟨d, hf⟩
  | cons g fs ih =>
    obtain ⟨d1, -, h⟩ := runAll_cons_inv h
    exact ih h

end

/-! ### The pad count -/

theorem input_length (s : State) : s.input.length = s.inLen.toNat := by simp [State.input]

theorem input_ne_nil {s : State} (hl : s.inLen ≠ 0) : s.input ≠ [] := by
  rw [← List.length_pos_iff, input_length]
  exact Nat.pos_of_ne_zero fun h0 => hl (BitVec.eq_of_toNat_eq h0)

theorem codeOf_length (c : CodeTable) (b : Byte) : (codeOf c b).length = (entry c.len b).toNat := by
  simp [codeOf, bitString]

/-- R173: `T`, the number of payload bits. -/
theorem payloadBits_length (c : CodeTable) (input : List Byte) :
    (payloadBits c input).length = (input.map fun b => (entry c.len b).toNat).sum := by
  simp only [payloadBits, List.length_flatMap, codeOf_length]

theorem payloadBits_length_pos {c : CodeTable} {input : List Byte} (hne : input ≠ [])
    (hc : ∀ b ∈ input, entry c.len b ≠ 0) : 1 ≤ (payloadBits c input).length := by
  obtain ⟨b, input, rfl⟩ := List.exists_cons_of_ne_nil hne
  have hb : (entry c.len b).toNat ≠ 0 := fun h => hc b List.mem_cons_self (BitVec.eq_of_toNat_eq h)
  rw [payloadBits_length, List.map_cons, List.sum_cons]
  omega

/-- R173: the pad count fills up the last byte, and is below the payload's bit count. -/
theorem padCount_legal {bits : List Bool} {pad : Nat} (hT : 1 ≤ bits.length) (hpad : pad = padCount bits) :
    1 ≤ payloadLength bits ∧ pad < 8 * payloadLength bits ∧ bits.length + pad = 8 * payloadLength bits := by
  rw [hpad, padCount, payloadLength]
  omega

/-- R121: PACK is the last phase of the commands that set PAD from an input. -/
theorem phasePack_of_phasesRun {i : Instr} {e : Env} {d d' : Datapath} (hi : i = .pack ∨ i = .encode)
    (h : phasesRun i e d = .ok d') : ∃ d1, phasePack e d1 = .ok d' := by
  rcases hi with rfl | rfl
  · exact runAll_last (fs := []) h
  · exact runAll_last (fs := [phaseFreq, phaseBuild, phaseAssign, phaseWrhdr]) h

/-- Settles O30: PACK, on its own or as the last phase of ENCODE, ends with PAD for the bits it has pushed, at least one. -/
theorem padCountIsAlwaysLegal : Obligations.PadCountIsAlwaysLegal := by
  intro i s t hi hr h he
  have ho : operational i = true := by rcases hi with rfl | rfl <;> rfl
  obtain ⟨-, d, hrun, rfl⟩ := commandEnd_inv ((exec_completes_iff ho hr).1 ⟨h, he⟩)
  obtain ⟨d1, hpack⟩ := phasePack_of_phasesRun hi hrun
  obtain ⟨hl, hc, out, wp, csr, rfl⟩ := phasePack_end hpack
  rw [show s.env.bytesFrom 0 s.env.inLen.toNat = s.input from bytesFrom_all s] at hc ⊢
  have hne : s.input ≠ [] := input_ne_nil hl
  have hpad := packEnd_pad_toNat { d1 with out := out, wp := wp } s.inLen csr
    (payloadBits ⟨d1.codeLen, d1.codeVal⟩ s.input)
  have hT := payloadBits_length_pos (c := ⟨d1.codeLen, d1.codeVal⟩) hne hc
  exact ⟨payloadBits_length ⟨d1.codeLen, d1.codeVal⟩ s.input, hpad, hT, padCount_legal hT hpad⟩

/-! ### The decoder's state -/

/-- What RDHDR and DWALK alone write (R44, R45, R47). -/
structure DecoderState where
  tnode : TrieMem
  tnn : BitVec 14
  da : BitVec 9
  dh : BitVec 12
  usr : Byte
  ub : BitVec 4
  bitsLeft : BitVec 35
  cur : TrieIdx
  dstate : DState

/-- The decoder's part of the datapath. -/
def Datapath.decoder (d : Datapath) : DecoderState :=
  ⟨d.tnode, d.tnn, d.da, d.dh, d.usr, d.ub, d.bitsLeft, d.cur, d.dstate⟩

/-- R180: no phase of the encoder writes the decoder's state. -/
theorem phaseFn_keeps_decoder {p : Phase} {e : Env} {d d' : Datapath} (hp : p ∈ phasesOf .encode)
    (h : phaseFn p e d = .ok d') : d'.decoder = d.decoder := by
  cases p with
  | freq => obtain ⟨freq, -, rfl⟩ := phaseFreq_sum h; rfl
  | build => obtain ⟨t, -, rfl⟩ := phaseBuild_inv (e := e) h; rfl
  | assign => obtain ⟨c, -, rfl⟩ := phaseAssign_inv (e := e) h; rfl
  | wrhdr => obtain ⟨out, wp, rfl⟩ := putAll_frame (e := e) h; rfl
  | pack => obtain ⟨-, -, out, wp, csr, rfl⟩ := phasePack_end h; rfl
  | clr | rdhdr | dwalk => simp [phasesOf] at hp

theorem runAll_keeps_decoder {ps : List Phase} {e : Env} {d d' : Datapath} (hps : ps ⊆ phasesOf .encode)
    (h : runAll (ps.map phaseFn) e d = .ok d') : d'.decoder = d.decoder := by
  induction ps generalizing d with
  | nil => cases h; rfl
  | cons p ps ih =>
    obtain ⟨hp, hps⟩ := List.cons_subset.1 hps
    obtain ⟨d1, hf, h⟩ := runAll_cons_inv h
    exact (ih hps h).trans (phaseFn_keeps_decoder hp hf)

/-- Settles O44: no phase of these commands writes the decoder's state, and none of them writes TRIE_VALID. -/
theorem encoderLeavesDecoderAlone : Obligations.EncoderLeavesDecoderAlone := by
  intro i s t hi h he
  have ho : operational i = true := by rcases hi with rfl | rfl | rfl | rfl | rfl | rfl <;> rfl
  rcases (exec_next_iff ho).1 h with ⟨-, rfl⟩ | ⟨-, -, rfl⟩ | ⟨-, -, ⟨x, -, rfl⟩ | ⟨d, hrun, rfl⟩⟩
  · exact ⟨rfl, rfl, rfl, rfl, rfl, rfl, rfl, rfl, rfl, rfl⟩
  · cases he
  · cases he
  · have hps : phasesOf i ⊆ phasesOf .encode := by rcases hi with rfl | rfl | rfl | rfl | rfl | rfl <;> decide
    have htrie : (succeedWith i d s).status.trieValid = s.status.trieValid := by
      rw [succeedWith_status_table]
      rcases hi with rfl | rfl | rfl | rfl | rfl | rfl <;> rfl
    have hd : d.decoder = s.dp.decoder := runAll_keeps_decoder hps hrun
    injection hd with htnode htnn hda hdh husr hub hbl hcur hds
    exact ⟨htnode, htnn, hda, hdh, htrie, husr, hub, hbl, hcur, hds⟩

/-! ### ENCODE -/

/-- R140, R142: the counts of an input are nonzero for its bytes and for no other. -/
theorem entry_countTable_ne_zero_iff {bs : List Byte} (h : bs.length < 2 ^ 32) {b : Byte} :
    entry (countTable bs) b ≠ 0 ↔ b ∈ bs := by
  have hlt : bs.count b < 2 ^ 32 := List.count_le_length.trans_lt h
  rw [entry_countTable, ← List.count_pos_iff, Nat.pos_iff_ne_zero, not_iff_not]
  refine ⟨fun h0 => ?_, fun h0 => by rw [h0]; rfl⟩
  have h1 := congrArg BitVec.toNat h0
  rwa [BitVec.toNat_ofNat, Nat.mod_eq_of_lt hlt] at h1

theorem input_length_lt (s : State) : s.input.length < 2 ^ 32 := input_length s ▸ s.inLen.isLt

/-- R177, R222: the input of ENCODE has a tree. -/
theorem buildTree_input {s : State} (hl : s.inLen ≠ 0) : ∃ t, buildTree (countTable s.input) = .ok t := by
  obtain ⟨b, hb⟩ := List.exists_mem_of_ne_nil _ (input_ne_nil hl)
  have hcount := (entry_countTable_ne_zero_iff (input_length_lt s)).2 hb
  exact ⟨_, buildTree_eq_finish (List.ne_nil_of_mem (mem_alphabet.2 hcount))⟩

/-- R177, R229: the codes of its tree cover the input of ENCODE. -/
theorem input_coded {s : State} {t : Tree} {c : CodeTable} (ht : buildTree (countTable s.input) = .ok t)
    (hc : assignCodes t.node t.root = .ok c) : ∀ b ∈ s.input, entry c.len b ≠ 0 := fun b hb =>
  (coded_iff_of_assignCodes ht hc b).2 ((entry_countTable_ne_zero_iff (input_length_lt s)).2 hb)

/-- The datapath after FREQ with the counts `freq` and BUILD with the tree `t` (log 9). -/
def State.afterBuild (s : State) (freq : WordTable) (t : Tree) : Datapath :=
  { s.dp with freq := freq, rp := s.inLen }.withTree t

/-- R177: on a non-empty input FREQ and BUILD end. -/
theorem phasesRun_encode {s : State} {t : Tree} (hl : s.inLen ≠ 0) (ht : buildTree (countTable s.input) = .ok t) :
    phasesRun .encode s.env s.dp = runAll [phaseAssign, phaseWrhdr, phasePack] s.env (s.afterBuild (countTable s.input) t) := by
  have hfreq : phaseFreq s.env s.dp = .ok { s.dp with freq := countTable s.input, rp := s.inLen } := phaseFreq_ok s.dp hl
  have hbuild : phaseBuild s.env { s.dp with freq := countTable s.input, rp := s.inLen } =
    .ok (s.afterBuild (countTable s.input) t) := phaseBuild_ok ht
  exact (runAll_cons_ok [phaseBuild, phaseAssign, phaseWrhdr, phasePack] hfreq).trans (runAll_cons_ok _ hbuild)

/-- R177, R222, R229: what the phases of ENCODE can raise. -/
theorem phasesRun_encode_error {s : State} {x : Stop} (h : phasesRun .encode s.env s.dp = .error x) :
    x = .raise .emptyInput ∨ x = .raise .codeTooLong ∨ x = .raise .outputOverflow := by
  by_cases hl : s.inLen = 0
  · cases (runAll_cons_error _ (phaseFreq_empty (e := s.env) s.dp hl)).symm.trans h
    exact .inl rfl
  obtain ⟨t, ht⟩ := buildTree_input hl
  rw [phasesRun_encode hl ht] at h
  obtain ⟨-, c, hc⟩ | ⟨-, hc⟩ := assignCodes_cases ht
  case inr =>
    cases (runAll_cons_error _ (phaseAssign_error (d := s.afterBuild (countTable s.input) t) hc)).symm.trans h
    exact .inr (.inl rfl)
  refine .inr (.inr ?_)
  rw [runAll_cons_ok _ (phaseAssign_ok (d := s.afterBuild (countTable s.input) t) hc)] at h
  cases hw : phaseWrhdr s.env ((s.afterBuild (countTable s.input) t).withCodes c) with
  | error y =>
    cases (runAll_cons_error _ hw).symm.trans h
    exact putAll_error hw
  | ok d =>
    rw [runAll_cons_ok _ hw, runAll_singleton] at h
    obtain ⟨out, wp, rfl⟩ := putAll_frame hw
    have hbytes : s.env.bytesFrom 0 s.env.inLen.toNat = s.input := bytesFrom_all s
    exact phasePack_error hl (hbytes.symm ▸ input_coded ht hc) h

/-! ### The container -/

/-- R95: the container is the header and what PACK puts. -/
theorem container_eq (n : BitVec 9) (c : CodeTable) (input : List Byte) :
    container n c input = header n c ++ packBytes c input := List.append_assoc _ _ _

/-- R175: where WP already stands at the payload's start, PACK puts on. -/
theorem packEnd_packStart {d : Datapath} {bs : List Byte} {len csr : Word} {pad : Nat} (h : d.wp = payloadStart d) :
    ((packStart d).putBytes bs).packEnd len csr pad = (d.putBytes bs).packEnd len csr pad := by
  rw [packStart, ← h]
  rfl

/-- R174, R175: WRHDR and PACK behind it put the container, if the header ends where PACK begins and all of it fits OUT. -/
theorem runAll_wrhdr_pack {s : State} {d : Datapath} (hpos : 0 < s.inLen.toNat) (hcap : s.outCap < 2 ^ 32)
    (hc : ∀ b ∈ s.input, entry d.codeLen b ≠ 0)
    (hlen : (header d.nsyms ⟨d.codeLen, d.codeVal⟩).length = 4 + 9 * d.nsyms.toNat)
    (hfit : (container d.nsyms ⟨d.codeLen, d.codeVal⟩ s.input).length ≤ s.outCap) :
    ∃ csr, runAll [phaseWrhdr, phasePack] s.env d =
      .ok (({ d with wp := 0 }.putBytes (container d.nsyms ⟨d.codeLen, d.codeVal⟩ s.input)).packEnd s.inLen csr
        (padCount (payloadBits ⟨d.codeLen, d.codeVal⟩ s.input))) := by
  obtain ⟨hdr, hhdr⟩ : ∃ hdr, header d.nsyms ⟨d.codeLen, d.codeVal⟩ = hdr := ⟨_, rfl⟩
  rw [container_eq, List.length_append] at hfit
  rw [container_eq]
  rw [hhdr] at hlen hfit ⊢
  have hhdrfit : hdr.length ≤ s.outCap := (Nat.le_add_right _ _).trans hfit
  have hwrhdr : phaseWrhdr s.env d = .ok ({ d with wp := 0 }.putBytes hdr) :=
    hhdr ▸ phaseWrhdr_ok (e := s.env) (hhdr ▸ hhdrfit) hcap
  obtain ⟨csr, hpack⟩ := phasePack_ok (d := { d with wp := 0 }.putBytes hdr) hpos hcap hc (hlen ▸ hfit)
  have hfit0 : ({ d with wp := 0 } : Datapath).wp.toNat + hdr.length ≤ s.outCap := (Nat.zero_add _).trans_le hhdrfit
  have hwp : ({ d with wp := 0 }.putBytes hdr).wp = payloadStart ({ d with wp := 0 }.putBytes hdr) := by
    apply BitVec.eq_of_toNat_eq
    rw [putBytes_wp hfit0 hcap, payloadStart_toNat]
    exact (Nat.zero_add _).trans hlen
  refine ⟨csr, ?_⟩
  rw [runAll_cons_ok _ hwrhdr, runAll_singleton, hpack, packEnd_packStart hwp, putBytes_append hfit0 hcap]
  rfl

/-- The datapath after FREQ, BUILD and ASSIGN, as WRHDR begins to write. -/
def State.beforeWrhdr (s : State) (freq : WordTable) (t : Tree) (c : CodeTable) : Datapath :=
  { (s.afterBuild freq t).withCodes c with wp := 0 }

/-- R177, R95: when the container of the input fits OUT, ENCODE puts its bytes from OUT[0] on. -/
theorem phasesRun_encode_ok {s : State} {t : Tree} {c : CodeTable} (hpos : 0 < s.inLen.toNat) (hcap : s.outCap < 2 ^ 32)
    (ht : buildTree (countTable s.input) = .ok t) (hc : assignCodes t.node t.root = .ok c)
    (hfit : (container t.nsyms c s.input).length ≤ s.outCap) :
    ∃ csr, phasesRun .encode s.env s.dp =
      .ok (((s.beforeWrhdr (countTable s.input) t c).putBytes (container t.nsyms c s.input)).packEnd s.inLen csr
        (padCount (payloadBits c s.input))) := by
  have hl : s.inLen ≠ 0 := fun h => hpos.ne' (congrArg BitVec.toNat h)
  rw [phasesRun_encode hl ht, runAll_cons_ok _ (phaseAssign_ok (d := s.afterBuild (countTable s.input) t) hc)]
  exact runAll_wrhdr_pack (d := (s.afterBuild (countTable s.input) t).withCodes c) hpos hcap (input_coded ht hc)
    (header_length_of_assignCodes ht hc) hfit

/-- Settles O33: the bytes put are the container, and every other byte of OUT is left alone. -/
theorem encodeWritesTheContainer : Obligations.EncodeWritesTheContainer := by
  intro s t c hr hpos hin hcap ht hc hfit
  obtain ⟨csr, hrun⟩ := phasesRun_encode_ok hpos hcap ht hc hfit
  -- the counts as a variable, so that no unfolding below runs into their table
  obtain ⟨freq, hfreq⟩ : ∃ freq, countTable s.input = freq := ⟨_, rfl⟩
  rw [hfreq] at hrun ⊢
  have hend : commandEnd .encode s = .ok (succeedWith .encode _ s) :=
    (commandEnd_of_prerequisite (by simp [prerequisite, neededFlag, hin])).trans (congrArg _ hrun)
  have hlen : ((s.beforeWrhdr freq t c).putBytes (container t.nsyms c s.input)).wp.toNat =
      (container t.nsyms c s.input).length :=
    (putBytes_wp ((Nat.zero_add _).trans_le hfit) hcap).trans (Nat.zero_add _)
  refine ⟨_, ((exec_completes_iff rfl hr).2 hend).1, hlen, ?_, fun a ha => ?_, packEnd_pad_toNat _ _ _ _, rfl⟩
  · refine (congrArg _ hlen).trans ?_
    exact Memory.map_read_writeAll s.dp.out 0 _
  · refine Memory.read_writeAll_outside s.dp.out 0 _ (.inr ?_)
    rw [Nat.zero_add, ← hlen]
    exact ha

/-- Settles O10: IllegalCommand is IN_LEN above IN_CAP, the others come from the phases. -/
theorem encodeRaisesOnlyItsOwnFaults : Obligations.EncodeRaisesOnlyItsOwnFaults := by
  intro s t hr h he
  rcases (exec_ready_next_iff rfl hr).1 h with hend | ⟨x, hend, rfl⟩
  · rw [(ready_of_commandEnd hr hend).2] at he
    cases he
  · rcases commandEnd_error_inv hend with hx | hrun
    · cases hx
      exact .inr (.inr (.inr rfl))
    · rcases phasesRun_encode_error hrun with hx | hx | hx <;> cases hx
      · exact .inl rfl
      · exact .inr (.inl rfl)
      · exact .inr (.inr (.inl rfl))

end Sys2Proof.Machine

/-!
PROOFS. O27: the header of an assigned code table, byte by byte (R95 to R97): the entries are nine bytes each, so entry `j` begins
at byte 4 + 9 j.
-/

namespace Sys2Proof.Machine

/-- Pieces of one length in a row: byte `k` of piece `j`. -/
theorem getElem?_flatMap_of_length {α β : Type} {f : α → List β} {n : Nat} (hf : ∀ x, (f x).length = n) {l : List α}
    {j k : Nat} {x : α} (hj : l[j]? = some x) (hk : k < n) : (l.flatMap f)[n * j + k]? = (f x)[k]? := by
  induction l generalizing j with
  | nil => cases hj
  | cons y l ih =>
    rw [List.flatMap_cons]
    cases j with
    | zero =>
      obtain rfl : y = x := Option.some.inj hj
      rw [Nat.mul_zero, Nat.zero_add, List.getElem?_append_left (by rw [hf]; exact hk)]
    | succ j =>
      have hidx : n * (j + 1) + k - n = n * j + k := by rw [Nat.mul_succ]; omega
      rw [List.getElem?_append_right (by rw [hf, Nat.mul_succ]; omega), hf, hidx]
      exact ih (by simpa using hj)

theorem fieldBytes_length (v : Nat) : (fieldBytes v).length = 4 := by simp [fieldBytes]

/-- R62: byte `k` of a field is digit `k` of its value to the base 256. -/
theorem fieldBytes_getElem? (v : Nat) {k : Nat} (hk : k < 4) :
    (fieldBytes v)[k]? = some (BitVec.ofNat 8 (v / 256 ^ k)) := by
  simp [fieldBytes, hk]

section
variable (c : CodeTable) (b : Byte) {k : Nat} (hk : k < 4)
include hk

/-- R97: the length stands behind the symbol. -/
theorem headerEntryBytes_len : (headerEntryBytes c b)[1 + k]? = some (BitVec.ofNat 8 ((entry c.len b).toNat / 256 ^ k)) := by
  rw [headerEntryBytes, Nat.add_comm, List.getElem?_cons_succ,
    List.getElem?_append_left (by rw [fieldBytes_length]; exact hk), fieldBytes_getElem? _ hk]

/-- R97: the value stands behind the length. -/
theorem headerEntryBytes_val : (headerEntryBytes c b)[5 + k]? = some (BitVec.ofNat 8 ((entry c.val b).toNat / 256 ^ k)) := by
  have hidx : 5 + k = (4 + k) + 1 := by omega
  rw [headerEntryBytes, hidx, List.getElem?_cons_succ, List.getElem?_append_right (by rw [fieldBytes_length]; omega),
    fieldBytes_length, Nat.add_sub_cancel_left, fieldBytes_getElem? _ hk]

end

/-- R96: the header begins with the alphabet size. -/
theorem header_getElem?_size (n : BitVec 9) (c : CodeTable) {k : Nat} (hk : k < 4) :
    (header n c)[k]? = some (BitVec.ofNat 8 (n.toNat / 256 ^ k)) := by
  rw [header, List.getElem?_append_left (by rw [fieldBytes_length]; exact hk), fieldBytes_getElem? _ hk]

/-- R95: the entry of the `j`-th coded symbol. -/
theorem header_getElem?_entry (n : BitVec 9) {c : CodeTable} {j k : Nat} {b : Byte} (hj : (codedSymbols c.len)[j]? = some b)
    (hk : k < 9) : (header n c)[4 + 9 * j + k]? = (headerEntryBytes c b)[k]? := by
  rw [header, Nat.add_assoc, List.getElem?_append_right (by rw [fieldBytes_length]; omega), fieldBytes_length,
    Nat.add_sub_cancel_left, getElem?_flatMap_of_length (headerEntryBytes_length c) hj hk]

/-- Settles O27: the coded symbols of an assigned table are the alphabet. -/
theorem headerHasNineBytesPerSymbol : Obligations.HeaderHasNineBytesPerSymbol := by
  intro freq t c ht hc
  refine ⟨header_length_of_assignCodes ht hc, fun k hk => ?_, fun j b hj => ?_⟩
  · rw [header_getElem?_size _ _ hk, (builtTree ht).nsyms]
  · rw [← codedSymbols_of_assignCodes ht hc] at hj
    refine ⟨header_getElem?_entry _ hj (k := 0) (by decide), fun k hk => ⟨?_, ?_⟩⟩
    · rw [Nat.add_assoc, header_getElem?_entry _ hj (by omega), headerEntryBytes_len c b hk]
    · rw [Nat.add_assoc, header_getElem?_entry _ hj (by omega), headerEntryBytes_val c b hk]

end Sys2Proof.Machine

/-!
PROOFS. O36, O40, O45: what DWALK tests before its walk (R199, R205), DECODE against its two phases (R204), and what no phase of
the decoder writes (R207).
-/

namespace Sys2Proof.Machine

/-! ### The tests before the walk -/

theorem prerequisite_dwalk {s : State} (hv : s.status.trieValid = true) (hin : s.inLen.toNat ≤ s.inCap) :
    prerequisite .dwalk s = true := by
  simp [prerequisite, neededFlag, hv, hin]

/-- R99: the pad count of the claims is the one DWALK reads. -/
theorem env_trailer (s : State) : s.env.trailer = s.trailer := s32_read32 s.inp _

theorem env_paddingOk_iff (s : State) (h : Nat) : s.env.paddingOk h ↔ s.paddingOk h := by
  rw [Env.paddingOk, env_trailer]
  rfl

/-- Settles O36: with a missing trailer or a bad pad count DWALK stops before it walks. -/
theorem dwalkRefusesMissingTrailerAndBadPadding : Obligations.DwalkRefusesMissingTrailerAndBadPadding := by
  intro s hr hv hin
  have hp := prerequisite_dwalk hv hin
  refine ⟨fun hshort => exec_of_phase_raise rfl rfl hr hp (phaseDwalk_short (e := s.env) hshort), fun hlen hbad => ?_⟩
  refine exec_of_phase_raise rfl rfl hr hp (phaseDwalk_badPadding (e := s.env) hlen fun hok => ?_)
  obtain ⟨-, h0, h7, hlt⟩ := (env_paddingOk_iff s _).1 hok
  omega

/-! ### DECODE and its two phases -/

/-- R129, R204: DECODE is RDHDR and DWALK, which finds TRIE_VALID set by the first. -/
theorem commandEnd_decode (s : State) : commandEnd .decode s = commandsEnd [.rdhdr, .dwalk] s := by
  cases hp : prerequisite .decode s with
  | false =>
    rw [commandsEnd, commandEnd_refused hp, commandEnd_refused (c := .rdhdr) hp]
    rfl
  | true =>
    rw [commandEnd_of_prerequisite hp]
    refine phase_then_parts rfl rfl rfl hp fun trie => ?_
    exact phase_then_parts rfl rfl rfl hp fun walked => rfl

/-- Settles O40: DECODE ends as the chain of its two phases as commands. -/
theorem decodeEqualsItsTwoPhases : Obligations.DecodeEqualsItsTwoPhases := fun s hr =>
  composite_equals_parts rfl (by decide) hr (commandEnd_decode s)

/-! ### The encoder's state -/

/-- What the tree builder, the code assigner and the packer keep in the datapath and DEC never writes (R40 to R43, R46, R50). -/
structure EncoderState where
  freq : WordTable
  node : NodeTable
  nsyms : BitVec 9
  nnodes : BitVec 9
  root : NodeIdx
  pq : List NodeIdx
  codeLen : LenTable
  codeVal : WordTable
  acc : Byte
  nb : BitVec 4
  csr : Word
  crem : BitVec 6
  stack : List PathEntry

/-- The encoder's part of the datapath. -/
def Datapath.encoder (d : Datapath) : EncoderState :=
  ⟨d.freq, d.node, d.nsyms, d.nnodes, d.root, d.pq, d.codeLen, d.codeVal, d.acc, d.nb, d.csr, d.crem, d.stack⟩

theorem walkBit_keeps_encoder {e : Env} {d d' : Datapath} (h : walkBit e d = .ok d') : d'.encoder = d.encoder := by
  obtain ⟨bit, rp, usr, ub, bl, -, -, ⟨-, rfl⟩ | ⟨-, -, rfl⟩⟩ := walkBit_inv h <;> rfl

/-- R207: no phase of the decoder writes the encoder's state. -/
theorem phaseFn_keeps_encoder {p : Phase} {e : Env} {d d' : Datapath} (hp : p ∈ phasesOf .decode)
    (h : phaseFn p e d = .ok d') : d'.encoder = d.encoder := by
  cases p with
  | rdhdr =>
    obtain ⟨a, t, -, rfl⟩ := phaseRdhdr_inv h
    rfl
  | dwalk =>
    obtain ⟨n, d1, pad, -, hloop, -, rfl⟩ := phaseDwalk_inv h
    exact loop_keeps (P := fun d1 => d1.encoder = d.encoder) (walkBit e)
      (fun _ _ ha hb => (walkBit_keeps_encoder hb).trans ha) n (walkStart n d) d1 rfl hloop
  | clr | freq | build | assign | wrhdr | pack => simp [phasesOf] at hp

theorem runAll_keeps_encoder {ps : List Phase} {e : Env} {d d' : Datapath} (hps : ps ⊆ phasesOf .decode)
    (h : runAll (ps.map phaseFn) e d = .ok d') : d'.encoder = d.encoder := by
  induction ps generalizing d with
  | nil => cases h; rfl
  | cons p ps ih =>
    obtain ⟨hp, hps⟩ := List.cons_subset.1 hps
    obtain ⟨d1, hf, h⟩ := runAll_cons_inv h
    exact (ih hps h).trans (phaseFn_keeps_encoder hp hf)

/-- Settles O45: no phase of these commands writes the encoder's state, and the flags are as R121's table says. -/
theorem decoderLeavesEncoderTablesAlone : Obligations.DecoderLeavesEncoderTablesAlone := by
  intro i s t hi h he
  have ho : operational i = true := by rcases hi with rfl | rfl | rfl <;> rfl
  rcases (exec_next_iff ho).1 h with ⟨-, rfl⟩ | ⟨-, -, rfl⟩ | ⟨-, -, ⟨x, -, rfl⟩ | ⟨d, hrun, rfl⟩⟩
  · exact ⟨rfl, rfl, rfl, rfl, rfl, rfl, rfl, rfl, rfl, rfl, rfl, rfl, rfl, rfl, rfl, fun _ => rfl⟩
  · cases he
  · cases he
  · have hps : phasesOf i ⊆ phasesOf .decode := by rcases hi with rfl | rfl | rfl <;> decide
    have hd : d.encoder = s.dp.encoder := runAll_keeps_encoder hps hrun
    injection hd with hfreq hnode hnsyms hnnodes hroot hpq hlen hval hacc hnb hcsr hcrem hstack
    have hflags : (succeedWith i d s).status.treeValid = s.status.treeValid ∧
        (succeedWith i d s).status.codeValid = s.status.codeValid ∧
        (i = .rdhdr → (succeedWith i d s).status.hdrDone = s.status.hdrDone) := by
      rw [succeedWith_status_table]
      rcases hi with rfl | rfl | rfl <;> simp
    exact ⟨hfreq, hnode, hnsyms, hnnodes, hroot, hpq, hlen, hval, hacc, hnb, hcsr, hcrem, hstack, hflags⟩

end Sys2Proof.Machine

/-!
PROOFS. O34, O35: the trie RDHDR builds (R191 to R195). `trieNode` is the record a path of children leads to, and `TrieHolds` says
which paths there are and which of them end on leaves: a record that `grow` creates adds one path, an inserted code one leaf, and an
insertion is refused exactly when the new code and an earlier one start alike. RDHDR is then one acceptance test over its entries.
-/

namespace Sys2Proof.Machine

/-! ### Paths in a trie -/

/-- The record that the children for the bits of a path lead to from node `c` (R44, R194). -/
def trieNode (m : TrieMem) : TrieIdx → List Bool → Option TrieIdx
  | c, [] => some c
  | c, b :: p => if (m.read c).child b = 0 then none else trieNode m ((m.read c).child b) p

section
variable {m : TrieMem} {c n : TrieIdx}

theorem trieNode_append (p q : List Bool) :
    trieNode m c (p ++ q) = (trieNode m c p).bind fun n => trieNode m n q := by
  induction p generalizing c with
  | nil => rfl
  | cons b p ih =>
    rw [List.cons_append, trieNode, trieNode]
    split
    · rfl
    · exact ih

theorem trieNode_singleton (b : Bool) :
    trieNode m c [b] = if (m.read c).child b = 0 then none else some ((m.read c).child b) := rfl

/-- One bit more on a path. -/
theorem trieNode_concat {p : List Bool} (h : trieNode m c p = some n) (b : Bool) :
    trieNode m c (p ++ [b]) = if (m.read n).child b = 0 then none else some ((m.read n).child b) := by
  rw [trieNode_append, h]
  rfl

/-- Paths are a matter of the children alone. -/
theorem trieNode_congr {m' : TrieMem} (h : ∀ j b, (m'.read j).child b = (m.read j).child b) (c : TrieIdx)
    (p : List Bool) : trieNode m' c p = trieNode m c p := by
  induction p generalizing c with
  | nil => rfl
  | cons b p ih => rw [trieNode, trieNode, h, ih]

end

section
variable {room : Nat} {t : Trie} {c n : TrieIdx}

/-- R197: a path stays among the records in use. -/
theorem TrieClosed.trieNode_lt (h : TrieClosed room t) {p : List Bool} (hc : c.toNat < t.tnn.toNat)
    (hn : trieNode t.mem c p = some n) : n.toNat < t.tnn.toNat := by
  induction p generalizing c with
  | nil => cases hn; exact hc
  | cons b p ih =>
    rw [trieNode] at hn
    split at hn
    · cases hn
    · exact ih (h.child_lt c hc b) hn

theorem TrieClosed.lt_trieCap (h : TrieClosed room t) (hn : n.toNat < t.tnn.toNat) : n.toNat < trieCap :=
  hn.trans_le ((Nat.le_add_right _ _).trans h.fits)

end

/-! ### What a trie holds -/

/-- The trie has the paths of the codes and, while a code is being inserted, of the bits `w` it has come to, each at a record of
its own; its leaves are at the ends of the codes and have their symbols; `room` more records fit TNODE (R194, R195, R197). -/
structure TrieHolds (room : Nat) (w : List Bool) (codes : List (List Bool × Byte)) (t : Trie) : Prop where
  closed : TrieClosed room t
  path_unique : ∀ {p q n}, trieNode t.mem 0 p = some n → trieNode t.mem 0 q = some n → p = q
  node_iff : ∀ p, (∃ n, trieNode t.mem 0 p = some n) ↔ p <+: w ∨ ∃ x ∈ codes, p <+: x.1
  leaf_iff : ∀ {p n}, trieNode t.mem 0 p = some n → ((t.mem.read n).leaf = true ↔ ∃ x ∈ codes, x.1 = p)
  sym : ∀ x ∈ codes, ∀ {n}, trieNode t.mem 0 x.1 = some n → (t.mem.read n).sym = x.2

/-- R191: the empty tree has the empty path only. -/
theorem trieHolds_root (m : TrieMem) : TrieHolds (32 * 256) [] [] (Trie.root m) := by
  have hroot : (Trie.root m).mem.read 0 = TNode.empty := TrieMem.read_write_self _ _ (by decide)
  have hchild (b : Bool) : TNode.empty.child b = 0 := by cases b <;> rfl
  have hnode (p : List Bool) : trieNode (Trie.root m).mem 0 p = if p = [] then some 0 else none := by
    cases p with
    | nil => rfl
    | cons b p => rw [trieNode, hroot, hchild]; rfl
  refine ⟨trieClosed_root m, fun {p q n} hp hq => ?_, fun p => ?_, fun {p n} hp => ?_, by simp⟩
  · rw [hnode] at hp hq
    rw [(Option.ite_none_right_eq_some.1 hp).1, (Option.ite_none_right_eq_some.1 hq).1]
  · rw [hnode]
    simp
  · rw [hnode] at hp
    obtain ⟨-, hn⟩ := Option.ite_none_right_eq_some.1 hp
    rw [← Option.some.inj hn, hroot]
    simp [TNode.empty]

section
variable {room : Nat} {w : List Bool} {codes : List (List Bool × Byte)} {t : Trie} {c : TrieIdx}

theorem TrieHolds.node_lt (h : TrieHolds room w codes t) {p : List Bool} {n : TrieIdx}
    (hn : trieNode t.mem 0 p = some n) : n.toNat < t.tnn.toNat := h.closed.trieNode_lt (c := 0) h.closed.pos hn

theorem TrieHolds.ne_tnn (h : TrieHolds room w codes t) {p : List Bool} {n : TrieIdx}
    (hn : trieNode t.mem 0 p = some n) : n ≠ t.tnn := by
  rintro rfl
  exact lt_irrefl _ (h.node_lt hn)

/-- R194: what the records hold after `grow`. -/
theorem TrieHolds.grow_read (h : TrieHolds (room + 1) w codes t) (hc : trieNode t.mem 0 w = some c) (b : Bool)
    (j : TrieIdx) :
    (t.grow c b).mem.read j =
      if j = c then (t.mem.read c).setChild b t.tnn else if j = t.tnn then TNode.empty else t.mem.read j := by
  have hfits := h.closed.fits
  exact Machine.grow_read t c b (h.ne_tnn hc) (h.closed.lt_trieCap (h.node_lt hc)) (by omega) j

theorem TrieHolds.grow_read_leaf_sym (h : TrieHolds (room + 1) w codes t) (hc : trieNode t.mem 0 w = some c) (b : Bool)
    {j : TrieIdx} (hj : j ≠ t.tnn) :
    ((t.grow c b).mem.read j).leaf = (t.mem.read j).leaf ∧ ((t.grow c b).mem.read j).sym = (t.mem.read j).sym := by
  rw [h.grow_read hc b j, if_neg hj]
  split
  · next hjc => rw [hjc]; exact ⟨TNode.leaf_setChild .., TNode.sym_setChild ..⟩
  · exact ⟨rfl, rfl⟩

/-- R194: creating the child `b` of the record on the path `w` adds the one path `w ++ [b]`. -/
theorem TrieHolds.trieNode_grow (h : TrieHolds (room + 1) w codes t) (hc : trieNode t.mem 0 w = some c) {b : Bool}
    (hb : (t.mem.read c).child b = 0) (p : List Bool) :
    trieNode (t.grow c b).mem 0 p = if p = w ++ [b] then some t.tnn else trieNode t.mem 0 p := by
  have hnew : trieNode t.mem 0 (w ++ [b]) = none := by rw [trieNode_concat hc, if_pos hb]
  have htnn : t.tnn ≠ 0 := fun h0 => h.ne_tnn (p := []) rfl h0.symm
  induction p using List.reverseRecOn with
  | nil => rw [if_neg (by simp)]; rfl
  | append_singleton p a ih =>
    by_cases hp : p = w ++ [b]
    · have hread : (t.grow c b).mem.read t.tnn = TNode.empty := by
        rw [h.grow_read hc, if_neg (h.ne_tnn hc).symm, if_pos rfl]
      rw [if_pos hp] at ih
      rw [trieNode_concat ih, hread, if_pos (by cases a <;> rfl), if_neg (by simp [hp]), hp, trieNode_append, hnew]
      rfl
    rw [if_neg hp] at ih
    cases hj : trieNode t.mem 0 p with
    | none =>
      have hpw : p ≠ w := by
        rintro rfl
        rw [hc] at hj
        cases hj
      rw [trieNode_append, ih, hj, if_neg (by simp [hpw]), trieNode_append, hj]
      rfl
    | some j =>
      rw [hj] at ih
      rw [trieNode_concat ih, trieNode_concat hj, h.grow_read hc, if_neg (h.ne_tnn hj)]
      by_cases hjc : j = c
      · obtain rfl : p = w := h.path_unique hj (hjc ▸ hc)
        rw [if_pos hjc, TNode.child_setChild, hjc]
        by_cases hab : a = b
        · rw [if_pos hab, if_neg htnn, if_pos (by rw [hab])]
        · rw [if_neg hab, if_neg (c := p ++ [a] = p ++ [b]) (by simpa using hab)]
      · have hpw : p ≠ w := by
          rintro rfl
          exact hjc (Option.some.inj (hj.symm.trans hc))
        rw [if_neg hjc, if_neg (c := p ++ [a] = w ++ [b]) (by simp [hpw])]

/-- R194: no code goes through a child that is absent. -/
theorem TrieHolds.no_code_through (h : TrieHolds room w codes t) (hc : trieNode t.mem 0 w = some c) {b : Bool}
    (hb : (t.mem.read c).child b = 0) : ∀ x ∈ codes, ¬ w ++ [b] <+: x.1 := by
  intro x hx hpre
  obtain ⟨n, hn⟩ := (h.node_iff _).2 (.inr ⟨x, hx, hpre⟩)
  rw [trieNode_concat hc, if_pos hb] at hn
  cases hn

/-- R194: a descent that creates a child has come one bit further. -/
theorem TrieHolds.grow (h : TrieHolds (room + 1) w codes t) (hc : trieNode t.mem 0 w = some c) {b : Bool}
    (hb : (t.mem.read c).child b = 0) :
    TrieHolds room (w ++ [b]) codes (t.grow c b) ∧ trieNode (t.grow c b).mem 0 (w ++ [b]) = some t.tnn := by
  have hnode := h.trieNode_grow hc hb
  have hthrough := h.no_code_through hc hb
  refine ⟨⟨(h.closed.grow (h.node_lt hc) b).1, fun {p q n} hp hq => ?_, fun p => ?_, fun {p n} hp => ?_,
    fun x hx n hn => ?_⟩, by rw [hnode, if_pos rfl]⟩
  · rw [hnode] at hp hq
    split at hp <;> split at hq
    · next hpw hqw => rw [hpw, hqw]
    · cases hp; exact absurd rfl (h.ne_tnn hq)
    · cases hq; exact absurd rfl (h.ne_tnn hp)
    · exact h.path_unique hp hq
  · rw [hnode, List.prefix_concat_iff, or_assoc, ← h.node_iff]
    by_cases hp : p = w ++ [b] <;> simp [hp]
  · rw [hnode] at hp
    split at hp
    · next hpw =>
      cases hp
      have hread : (t.grow c b).mem.read t.tnn = TNode.empty := by
        rw [h.grow_read hc, if_neg (h.ne_tnn hc).symm, if_pos rfl]
      rw [hread, hpw]
      exact iff_of_false (by simp [TNode.empty]) fun ⟨x, hx, hxw⟩ => hthrough x hx (hxw ▸ List.prefix_refl _)
    · rw [(h.grow_read_leaf_sym hc b (h.ne_tnn hp)).1]
      exact h.leaf_iff hp
  · rw [hnode] at hn
    split at hn
    · next hxw => exact absurd (hxw ▸ List.prefix_refl _) (hthrough x hx)
    · rw [(h.grow_read_leaf_sym hc b (h.ne_tnn hn)).2]
      exact h.sym x hx hn

/-- R194: so has a descent that finds the child there. -/
theorem TrieHolds.follow (h : TrieHolds (room + 1) w codes t) (hc : trieNode t.mem 0 w = some c) {b : Bool}
    (hb : (t.mem.read c).child b ≠ 0) :
    TrieHolds room (w ++ [b]) codes t ∧ trieNode t.mem 0 (w ++ [b]) = some ((t.mem.read c).child b) := by
  have hnode : trieNode t.mem 0 (w ++ [b]) = some ((t.mem.read c).child b) := by rw [trieNode_concat hc, if_neg hb]
  refine ⟨⟨h.closed.mono (Nat.le_succ _), h.path_unique, fun p => ?_, h.leaf_iff, h.sym⟩, hnode⟩
  have hold : ∃ x ∈ codes, w ++ [b] <+: x.1 := by
    refine ((h.node_iff _).1 ⟨_, hnode⟩).resolve_left fun hpre => ?_
    have := hpre.length_le
    simp at this
  rw [h.node_iff, List.prefix_concat_iff, or_assoc]
  exact (or_iff_right_of_imp fun hp => .inr (hp ▸ hold)).symm

/-! ### Insertion -/

/-- R194: one bit of a descent leads from a record that is no leaf to a record one bit further, found or created. -/
theorem TrieHolds.descend_step {k : Nat} (h : TrieHolds (room + (k + 1)) w codes t) (hc : trieNode t.mem 0 w = some c)
    (hleaf : (t.mem.read c).leaf = false) (val : Word) :
    ∃ c' t', Trie.descend val (k + 1) c t = Trie.descend val k c' t' ∧
      TrieHolds (room + k) (w ++ [val.getLsbD k]) codes t' ∧ trieNode t'.mem 0 (w ++ [val.getLsbD k]) = some c' := by
  rw [descend_succ, hleaf, if_neg Bool.false_ne_true]
  split
  · next hb => exact ⟨_, _, rfl, h.grow hc hb⟩
  · next hb => exact ⟨_, _, rfl, h.follow hc hb⟩

/-- R194: from the path `w` a descent along its bits is stopped by a leaf before their end, that is by a code among the paths in
between, or it ends at the record on the path of `w` and the bits. -/
theorem TrieHolds.descend_cases {k : Nat} (h : TrieHolds (room + k) w codes t) (hc : trieNode t.mem 0 w = some c)
    (val : Word) :
    ((∃ x ∈ codes, w <+: x.1 ∧ x.1 <+: w ++ bitString k val.toNat ∧ x.1 ≠ w ++ bitString k val.toNat) ∧
      Trie.descend val k c t = .error (.raise .corruptHeader)) ∨
    ((∀ x ∈ codes, w <+: x.1 → x.1 <+: w ++ bitString k val.toNat → x.1 = w ++ bitString k val.toNat) ∧
      ∃ c' t', Trie.descend val k c t = .ok (c', t') ∧ TrieHolds room (w ++ bitString k val.toNat) codes t' ∧
        trieNode t'.mem 0 (w ++ bitString k val.toNat) = some c') := by
  induction k generalizing w c t with
  | zero =>
    refine .inr ⟨fun x _ hw hx => ?_, c, t, rfl, ?_⟩
    · exact hx.eq_of_length_le (by simpa [bitString] using hw.length_le)
    · simpa [bitString] using ⟨h, hc⟩
  | succ k ih =>
    have hbits : w ++ bitString (k + 1) val.toNat = (w ++ [val.getLsbD k]) ++ bitString k val.toNat := by
      rw [bitString_succ, List.append_assoc, List.singleton_append]
    rw [hbits]
    cases hleaf : (t.mem.read c).leaf with
    | true =>
      obtain ⟨x, hx, rfl⟩ := (h.leaf_iff hc).1 hleaf
      refine .inl ⟨⟨x, hx, List.prefix_refl _, ?_, ?_⟩, ?_⟩
      · rw [List.append_assoc]
        exact List.prefix_append _ _
      · simp
      · rw [descend_succ, if_pos hleaf]
    | false =>
      obtain ⟨c', t', hstep, hg, hc'⟩ := h.descend_step hc hleaf val
      rw [hstep]
      rcases ih hg hc' with ⟨⟨x, hx, hw, hpre, hne⟩, hd⟩ | ⟨hno, hok⟩
      · exact .inl ⟨⟨x, hx, (List.prefix_append _ _).trans hw, hpre, hne⟩, hd⟩
      · refine .inr ⟨fun x hx hw hpre => hno x hx ?_ hpre, hok⟩
        -- no code ends at `w`, so one that goes on from there has the next bit
        have hne : w ≠ x.1 := fun hw => by simp [(h.leaf_iff hc).2 ⟨x, hx, hw.symm⟩] at hleaf
        refine List.prefix_of_prefix_length_le (List.prefix_append _ _) hpre ?_
        rw [List.length_append, List.length_singleton]
        exact lt_of_le_of_ne hw.length_le fun hlen => hne (hw.eq_of_length hlen)

/-- Neither bit-string starts the other (R165, R195). -/
def Apart (p q : List Bool) : Prop := ¬ p <+: q ∧ ¬ q <+: p

/-- R194: the symbol put at the end of a new code. -/
theorem TrieHolds.addLeaf (h : TrieHolds room w codes t) (hc : trieNode t.mem 0 w = some c)
    (hw : ∀ x ∈ codes, x.1 ≠ w) (sym : Byte) :
    TrieHolds room [] ((w, sym) :: codes)
      { t with mem := t.mem.write c { t.mem.read c with leaf := true, sym := sym } } := by
  have hself := t.mem.read_write_self { t.mem.read c with leaf := true, sym := sym } (h.closed.lt_trieCap (h.node_lt hc))
  have hother {j : TrieIdx} (hj : j ≠ c) := t.mem.read_write_other { t.mem.read c with leaf := true, sym := sym } hj
  have hnode := trieNode_congr (m := t.mem) (m' := t.mem.write c { t.mem.read c with leaf := true, sym := sym })
    (fun j b => by
      by_cases hj : j = c
      · rw [hj, hself]; rfl
      · rw [hother hj])
  refine ⟨h.closed.setSym sym, fun {p q n} hp hq => ?_, fun p => ?_, fun {p n} hp => ?_, fun x hx n hn => ?_⟩
  · exact h.path_unique (hnode 0 p ▸ hp) (hnode 0 q ▸ hq)
  · rw [hnode, h.node_iff, List.exists_mem_cons_iff, List.prefix_nil]
    exact (or_iff_right_of_imp fun hp => .inl (hp ▸ List.nil_prefix)).symm
  · rw [hnode] at hp
    rw [List.exists_mem_cons_iff]
    by_cases hn : n = c
    · rw [hn, hself]
      exact iff_of_true rfl (.inl (h.path_unique hc (hn ▸ hp)))
    · have hpw : w ≠ p := by
        rintro rfl
        exact hn (Option.some.inj (hp.symm.trans hc))
      rw [hother hn, h.leaf_iff hp, or_iff_right hpw]
  · rw [hnode] at hn
    rcases List.mem_cons.1 hx with rfl | hx
    · rw [Option.some.inj (hn.symm.trans hc), hself]
    · have hnc : n ≠ c := fun hnc => hw x hx (h.path_unique hn (hnc ▸ hc))
      rw [hother hnc]
      exact h.sym x hx hn

/-- R195 (c): the record at the end of a code has a child exactly when a code goes on from there. -/
theorem TrieHolds.child_iff (h : TrieHolds room w codes t) (hc : trieNode t.mem 0 w = some c) :
    ((t.mem.read c).left ≠ 0 ∨ (t.mem.read c).right ≠ 0) ↔ ∃ x ∈ codes, w <+: x.1 ∧ x.1 ≠ w := by
  have hchild (b : Bool) : (t.mem.read c).child b ≠ 0 ↔ ∃ x ∈ codes, w ++ [b] <+: x.1 := by
    have hlen : ¬ w ++ [b] <+: w := fun hpre => by simpa using hpre.length_le
    have hnode := h.node_iff (w ++ [b])
    rw [or_iff_right hlen, trieNode_concat hc] at hnode
    rw [← hnode]
    by_cases hb : (t.mem.read c).child b = 0 <;> simp [hb]
  change (t.mem.read c).child false ≠ 0 ∨ (t.mem.read c).child true ≠ 0 ↔ _
  rw [hchild, hchild]
  constructor
  · rintro (⟨x, hx, hpre⟩ | ⟨x, hx, hpre⟩)
    all_goals exact ⟨x, hx, (List.prefix_append _ _).trans hpre, fun hw => by simpa [hw] using hpre.length_le⟩
  · rintro ⟨x, hx, ⟨r, hr⟩, hne⟩
    cases r with
    | nil => exact absurd (by simpa using hr.symm) hne
    | cons b r =>
      have hpre : w ++ [b] <+: x.1 := ⟨r, by rw [← hr]; simp⟩
      cases b with
      | false => exact .inl ⟨x, hx, hpre⟩
      | true => exact .inr ⟨x, hx, hpre⟩

theorem insert_of_descend {sym : Byte} {len : Nat} {val : Word} {t' : Trie}
    (h : Trie.descend val len 0 t = .ok (c, t')) :
    t.insert sym len val =
      if (t'.mem.read c).leaf then .error (.raise .corruptHeader)
      else if (t'.mem.read c).left ≠ 0 ∨ (t'.mem.read c).right ≠ 0 then .error (.raise .corruptHeader)
      else .ok { t' with mem := t'.mem.write c { t'.mem.read c with leaf := true, sym := sym } } := by
  rw [Trie.insert, h]

/-- R194, R195: a code is inserted exactly when none of the codes before starts as it does, whichever is the longer. -/
theorem TrieHolds.insert_cases {len : Nat} (h : TrieHolds (room + len) [] codes t) (sym : Byte) (val : Word) :
    ((∀ x ∈ codes, Apart x.1 (bitString len val.toNat)) ∧
      ∃ t', t.insert sym len val = .ok t' ∧ TrieHolds room [] ((bitString len val.toNat, sym) :: codes) t') ∨
    ((¬ ∀ x ∈ codes, Apart x.1 (bitString len val.toNat)) ∧
      t.insert sym len val = .error (.raise .corruptHeader)) := by
  obtain ⟨w, hw⟩ : ∃ w, bitString len val.toNat = w := ⟨_, rfl⟩
  have hdesc := h.descend_cases (c := 0) rfl val
  simp only [List.nil_append, List.nil_prefix, true_and, true_implies, hw] at hdesc
  rw [hw]
  rcases hdesc with ⟨⟨x, hx, hpre, -⟩, hd⟩ | ⟨hshort, c, t', hd, hT, hc⟩
  · exact .inr ⟨fun hall => (hall x hx).1 hpre, by rw [Trie.insert, hd]⟩
  rw [insert_of_descend hd]
  by_cases hleaf : ∃ x ∈ codes, x.1 = w
  · obtain ⟨x, hx, hxw⟩ := hleaf
    exact .inr ⟨fun hall => (hall x hx).1 (hxw ▸ List.prefix_refl _), if_pos ((hT.leaf_iff hc).2 ⟨x, hx, hxw⟩)⟩
  have hne : ∀ x ∈ codes, x.1 ≠ w := fun x hx hxw => hleaf ⟨x, hx, hxw⟩
  rw [if_neg (mt (hT.leaf_iff hc).1 hleaf)]
  by_cases hlong : ∃ x ∈ codes, w <+: x.1 ∧ x.1 ≠ w
  · obtain ⟨x, hx, hpre, -⟩ := id hlong
    exact .inr ⟨fun hall => (hall x hx).2 hpre, if_pos ((hT.child_iff hc).2 hlong)⟩
  · refine .inl ⟨fun x hx => ⟨fun hpre => hne x hx (hshort x hx hpre), fun hpre => hlong ⟨x, hx, hpre, hne x hx⟩⟩,
      _, if_neg (mt (hT.child_iff hc).1 hlong), hT.addLeaf hc hne sym⟩

end

/-! ### The entries of a header -/

/-- A header entry as a code and its symbol. -/
def HeaderEntry.pick (x : HeaderEntry) : List Bool × Byte := (x.code, x.sym)

/-- The `n` header entries from offset `o` on (R95). -/
def entriesFrom (m : Memory) (o n : Nat) : List HeaderEntry := (List.range n).map fun i => headerEntryAt m (o + 9 * i)

theorem entriesFrom_succ (m : Memory) (o n : Nat) :
    entriesFrom m o (n + 1) = headerEntryAt m o :: entriesFrom m (o + 9) n := by
  rw [entriesFrom, List.range_succ_eq_map, List.map_cons, List.map_map]
  refine congrArg₂ List.cons rfl (List.map_congr_left fun i _ => ?_)
  rw [Function.comp, Nat.succ_eq_add_one, Nat.mul_succ, Nat.add_assoc, Nat.add_comm 9]

/-- R195: behind the codes of `codes` the entries `xs` are accepted. -/
def Acceptable (codes : List (List Bool × Byte)) (xs : List HeaderEntry) : Prop :=
  (∀ x ∈ xs, x.legal) ∧ prefixFree (xs.map HeaderEntry.code) ∧ ∀ x ∈ xs, ∀ y ∈ codes, Apart y.1 x.code

theorem acceptable_cons {codes : List (List Bool × Byte)} {x : HeaderEntry} {xs : List HeaderEntry} :
    Acceptable codes (x :: xs) ↔ (x.legal ∧ ∀ y ∈ codes, Apart y.1 x.code) ∧ Acceptable (x.pick :: codes) xs := by
  have hpair : prefixFree ((x :: xs).map HeaderEntry.code) ↔
      (∀ z ∈ xs, Apart x.code z.code) ∧ prefixFree (xs.map HeaderEntry.code) := by
    rw [prefixFree, List.map_cons, List.pairwise_cons, List.forall_mem_map]
    rfl
  simp only [Acceptable, hpair, List.forall_mem_cons, HeaderEntry.pick, forall_and]
  tauto

theorem fieldAt_lt (m : Memory) (a : Nat) : fieldAt m a < 2 ^ 32 := read32_toNat m a ▸ (m.read32 a).isLt

section
variable {m : Memory} {codes : List (List Bool × Byte)} {t : Trie} {n o : Nat}

/-- R193, R195: an entry is accepted or it is CorruptHeader. -/
theorem TrieHolds.readEntry_cases (h : TrieHolds (n + 32) [] codes t) :
    (((headerEntryAt m o).legal ∧ ∀ y ∈ codes, Apart y.1 (headerEntryAt m o).code) ∧
      ∃ t', readEntry m o t = .ok t' ∧ TrieHolds n [] ((headerEntryAt m o).pick :: codes) t') ∨
    ((¬ ((headerEntryAt m o).legal ∧ ∀ y ∈ codes, Apart y.1 (headerEntryAt m o).code)) ∧
      readEntry m o t = .error (.raise .corruptHeader)) := by
  by_cases hl : (headerEntryAt m o).legal
  case neg => exact .inr ⟨fun hok => hl hok.1, readEntry_illegal t hl⟩
  have hlen : n + (headerEntryAt m o).len.toNat ≤ n + 32 := by
    obtain ⟨-, h32, -⟩ := hl
    omega
  have hval : (headerEntryAt m o).val < 2 ^ 32 := fieldAt_lt m (o + 5)
  have hcode : bitString (headerEntryAt m o).len.toNat (BitVec.ofNat 32 (headerEntryAt m o).val).toNat =
      (headerEntryAt m o).code := by
    rw [BitVec.toNat_ofNat, Nat.mod_eq_of_lt hval]
    rfl
  have hT : TrieHolds (n + (headerEntryAt m o).len.toNat) [] codes t := { h with closed := h.closed.mono hlen }
  rw [readEntry_legal t hl]
  rcases hT.insert_cases (headerEntryAt m o).sym (BitVec.ofNat 32 (headerEntryAt m o).val) with
    ⟨hap, t', hi, hT'⟩ | ⟨hap, hi⟩ <;> rw [hcode] at hap
  · rw [hcode] at hT'
    exact .inl ⟨⟨hl, hap⟩, t', hi, hT'⟩
  · exact .inr ⟨fun hok => hap hok.2, hi⟩

/-- R191, R195: the entries are accepted and the trie holds their codes, or they are CorruptHeader. -/
theorem TrieHolds.readEntries_cases (h : TrieHolds (32 * n) [] codes t) :
    (Acceptable codes (entriesFrom m o n) ∧
      ∃ t', readEntries m n o t = .ok t' ∧
        TrieHolds 0 [] (((entriesFrom m o n).map HeaderEntry.pick).reverse ++ codes) t') ∨
    (¬ Acceptable codes (entriesFrom m o n) ∧ readEntries m n o t = .error (.raise .corruptHeader)) := by
  induction n generalizing o t codes with
  | zero => exact .inl ⟨⟨by simp [entriesFrom], by simp [entriesFrom, prefixFree], by simp [entriesFrom]⟩, t, rfl, h⟩
  | succ n ih =>
    rw [entriesFrom_succ, acceptable_cons, readEntries]
    rcases h.readEntry_cases (n := 32 * n) (m := m) (o := o) with ⟨hok, t1, hr, hT⟩ | ⟨hbad, hr⟩
    · rw [hr, and_iff_right hok, List.map_cons, List.reverse_cons, List.append_assoc]
      exact ih hT
    · rw [hr]
      exact .inr ⟨fun hok => hbad hok.1, rfl⟩

end

/-! ### RDHDR -/

theorem goodHeader_iff (s : State) : s.goodHeader ↔ s.headerFits ∧ Acceptable [] s.entries := by
  simp [State.goodHeader, Acceptable]

/-- R191, R192, R195: RDHDR accepts exactly the good headers, and its trie then holds the codes of the entries. -/
theorem readHeader_cases (s : State) (old : TrieMem) :
    (s.goodHeader ∧ ∃ t, readHeader s.env old = .ok (s.headerCount.toNat, t) ∧
      TrieHolds 0 [] (s.entries.map HeaderEntry.pick).reverse t) ∨
    (¬ s.goodHeader ∧ readHeader s.env old = .error (.raise .corruptHeader)) := by
  have hcount : s32 (s.env.inp.read32 0) = s.headerCount := s32_read32 s.inp 0
  rw [readHeader, hcount, goodHeader_iff]
  by_cases h4 : s.env.inLen.toNat < 4
  · exact .inr ⟨fun hgood => absurd hgood.1.1 (Nat.not_le.2 h4), if_pos h4⟩
  rw [if_neg h4]
  by_cases ha : s.headerCount < 1 ∨ 256 < s.headerCount
  · refine .inr ⟨fun hgood => ?_, if_pos ha⟩
    obtain ⟨⟨-, h1, h256, -⟩, -⟩ := hgood
    omega
  dsimp only
  rw [if_neg ha]
  by_cases hfit : s.env.inLen.toNat < 4 + 9 * s.headerCount.toNat
  · refine .inr ⟨fun hgood => ?_, if_pos hfit⟩
    obtain ⟨⟨-, -, -, hle⟩, -⟩ := hgood
    exact hfit.not_ge hle
  have hfits : s.headerFits := ⟨Nat.le_of_not_lt h4, by omega, by omega, Nat.le_of_not_lt hfit⟩
  rw [if_neg hfit, and_iff_right hfits]
  have hroot : TrieHolds (32 * s.headerCount.toNat) [] [] (Trie.root old) :=
    { trieHolds_root old with closed := (trieClosed_root old).mono (by omega) }
  rcases hroot.readEntries_cases (m := s.env.inp) (o := 4) with ⟨hok, t, hr, hT⟩ | ⟨hbad, hr⟩
  · rw [hr]
    rw [List.append_nil] at hT
    exact .inl ⟨hok, t, rfl, hT⟩
  · rw [hr]
    exact .inr ⟨hbad, rfl⟩

theorem prerequisite_rdhdr {s : State} (hin : s.inLen.toNat ≤ s.inCap) : prerequisite .rdhdr s = true := by
  simp [prerequisite, neededFlag, hin]

/-- R191: the phase RDHDR on a good header. -/
theorem phaseRdhdr_good {s : State} (hg : s.goodHeader) (d : Datapath) :
    ∃ t, phaseRdhdr s.env d = .ok (d.withTrie s.headerCount.toNat t) ∧ t.tnn.toNat ≤ trieCap ∧
      TrieHolds 0 [] (s.entries.map HeaderEntry.pick).reverse t := by
  rcases readHeader_cases s d.tnode with ⟨-, t, hr, hT⟩ | ⟨hbad, -⟩
  · exact ⟨t, phaseRdhdr_ok hr, readHeader_tnn_le hr, hT⟩
  · exact absurd hg hbad

/-- R47: DA and DH have room for the counts of a header that fits. -/
theorem withTrie_da_dh {s : State} (hg : s.headerFits) (d : Datapath) (t : Trie) :
    (d.withTrie s.headerCount.toNat t).da.toNat = s.headerCount.toNat ∧
    (d.withTrie s.headerCount.toNat t).dh.toNat = 4 + 9 * s.headerCount.toNat := by
  obtain ⟨-, -, h256, -⟩ := hg
  exact ⟨Nat.mod_eq_of_lt (by omega), Nat.mod_eq_of_lt (by omega)⟩

/-- Settles O34: the entries are read one by one, each refused or inserted. -/
theorem rdhdrAcceptsExactlyGoodHeaders : Obligations.RdhdrAcceptsExactlyGoodHeaders := by
  intro s hr hin
  have hp := prerequisite_rdhdr hin
  refine ⟨fun hg => ?_, fun hbad => ?_⟩
  · obtain ⟨t, hphase, htnn, -⟩ := phaseRdhdr_good hg s.dp
    obtain ⟨hda, hdh⟩ := withTrie_da_dh hg.1 s.dp t
    exact ⟨_, exec_of_phase_ok (p := .rdhdr) rfl rfl hr hp hphase, hda, hdh, htnn, rfl⟩
  · rcases readHeader_cases s s.dp.tnode with ⟨hg, -⟩ | ⟨-, hx⟩
    · exact absurd hg hbad
    · exact exec_of_phase_raise (p := .rdhdr) rfl rfl hr hp (phaseRdhdr_error (e := s.env) hx)

/-! ### The codes of the trie -/

section
variable {m : TrieMem} {c : TrieIdx} {p : List Bool} {v : Byte}

/-- R103: a symbol stands at the end of its path. -/
theorem trieNode_of_trieSymbol (h : trieSymbol m c p = some v) :
    ∃ n, trieNode m c p = some n ∧ (m.read n).leaf = true ∧ (m.read n).sym = v := by
  induction p generalizing c with
  | nil => cases h
  | cons b p ih =>
    simp only [trieSymbol] at h
    split at h
    · cases h
    · next hn =>
      obtain ⟨h0, -⟩ := not_or.1 hn
      rw [trieNode, if_neg h0]
      split at h
      · next hl =>
        obtain ⟨rfl, hv⟩ := Option.ite_none_right_eq_some.1 h
        exact ⟨_, rfl, hl, Option.some.inj hv⟩
      · exact ih h

/-- R103, R201: a path ends on the first leaf it meets if there is none before its end. -/
theorem trieSymbol_of_trieNode {room : Nat} {t : Trie} {n : TrieIdx} (ht : TrieClosed room t)
    (hc : c.toNat < t.tnn.toNat) (hne : p ≠ []) (hn : trieNode t.mem c p = some n) (hl : (t.mem.read n).leaf = true)
    (hinner : ∀ q j, q <+: p → q ≠ [] → trieNode t.mem c q = some j → (t.mem.read j).leaf = true → q = p) :
    trieSymbol t.mem c p = some (t.mem.read n).sym := by
  induction p generalizing c with
  | nil => exact absurd rfl hne
  | cons b p ih =>
    rw [trieNode] at hn
    split at hn
    · cases hn
    next h0 =>
    have hlt := ht.child_lt c hc b
    have hcap := ht.lt_trieCap hlt
    have hone : trieNode t.mem c [b] = some ((t.mem.read c).child b) := by rw [trieNode_singleton, if_neg h0]
    cases hbl : (t.mem.read ((t.mem.read c).child b)).leaf with
    | true =>
      obtain rfl : [] = p := by simpa using hinner [b] _ (by simp) (by simp) hone hbl
      cases hn
      exact trieSymbol_leaf h0 hcap hbl
    | false =>
      have hp : p ≠ [] := by
        rintro rfl
        cases hn
        simp [hbl] at hl
      rw [trieSymbol_inner p h0 hcap hbl]
      refine ih hlt hp hn fun q j hq _ hj hjl => ?_
      have := hinner (b :: q) j (by simpa using hq) (by simp) (by rw [trieNode, if_neg h0]; exact hj) hjl
      exact (List.cons.inj this).2

end

/-- R195, R196: of codes of which none starts another the trie has exactly their symbols. -/
theorem TrieHolds.trieSymbol_iff {room : Nat} {codes : List (List Bool × Byte)} {t : Trie} (h : TrieHolds room [] codes t)
    (hne : ∀ x ∈ codes, x.1 ≠ []) (hfree : ∀ x ∈ codes, ∀ y ∈ codes, x.1 <+: y.1 → x.1 = y.1) (p : List Bool) (v : Byte) :
    trieSymbol t.mem 0 p = some v ↔ ∃ x ∈ codes, x.1 = p ∧ x.2 = v := by
  constructor
  · intro hs
    obtain ⟨n, hn, hl, rfl⟩ := trieNode_of_trieSymbol hs
    obtain ⟨x, hx, rfl⟩ := (h.leaf_iff hn).1 hl
    exact ⟨x, hx, rfl, (h.sym x hx hn).symm⟩
  · rintro ⟨x, hx, rfl, rfl⟩
    obtain ⟨n, hn⟩ := (h.node_iff x.1).2 (.inr ⟨x, hx, List.prefix_refl _⟩)
    rw [← h.sym x hx hn]
    refine trieSymbol_of_trieNode h.closed (c := 0) h.closed.pos (hne x hx) hn ((h.leaf_iff hn).2 ⟨x, hx, rfl⟩) ?_
    intro q j hq _ hj hjl
    obtain ⟨y, hy, rfl⟩ := (h.leaf_iff hj).1 hjl
    exact hfree y hy x hx hq

/-- R195: none of the codes of such a list starts another one. -/
theorem eq_of_prefixFree {codes : List (List Bool)} (h : prefixFree codes) :
    ∀ p ∈ codes, ∀ q ∈ codes, p <+: q → p = q := by
  have hforward : codes.Pairwise fun p q => p <+: q → p = q := h.imp fun hpq hp => absurd hp hpq.1
  have hbackward : codes.Pairwise (flip fun p q => p <+: q → p = q) := h.imp fun hpq hq => absurd hq hpq.2
  exact hforward.forall_of_forall_of_flip (fun _ _ _ => rfl) hbackward

theorem code_ne_nil {x : HeaderEntry} (h : x.legal) : x.code ≠ [] := by
  obtain ⟨h1, -⟩ := h
  refine List.ne_nil_of_length_pos ?_
  rw [HeaderEntry.code, bitString, List.length_map, List.length_range]
  omega

/-- R196: the trie of a good header has a symbol at the end of each entry's code, and nowhere else. -/
theorem trieSymbol_of_goodHeader {s : State} {t : Trie} (hg : s.goodHeader)
    (h : TrieHolds 0 [] (s.entries.map HeaderEntry.pick).reverse t) (p : List Bool) (v : Byte) :
    trieSymbol t.mem 0 p = some v ↔ ∃ x ∈ s.entries, x.code = p ∧ x.sym = v := by
  obtain ⟨-, hlegal, hfree⟩ := hg
  have hmem {y : List Bool × Byte} (hy : y ∈ (s.entries.map HeaderEntry.pick).reverse) :
      ∃ x ∈ s.entries, x.pick = y := List.mem_map.1 (List.mem_reverse.1 hy)
  rw [h.trieSymbol_iff]
  · simp [HeaderEntry.pick]
  · intro y hy
    obtain ⟨x, hx, rfl⟩ := hmem hy
    exact code_ne_nil (hlegal x hx)
  · intro y hy z hz
    obtain ⟨x, hx, rfl⟩ := hmem hy
    obtain ⟨w, hw, rfl⟩ := hmem hz
    exact eq_of_prefixFree hfree _ (List.mem_map_of_mem hx) _ (List.mem_map_of_mem hw)

/-- Settles O35: RDHDR ends with the trie that holds the entries' codes. -/
theorem rdhdrTrieHoldsExactlyTheCodes : Obligations.RdhdrTrieHoldsExactlyTheCodes := by
  intro s t hr hin hg h
  obtain ⟨trie, hphase, -, hT⟩ := phaseRdhdr_good hg s.dp
  cases h.symm.trans (exec_of_phase_ok (p := .rdhdr) rfl rfl hr (prerequisite_rdhdr hin) hphase)
  exact trieSymbol_of_goodHeader hg hT

end Sys2Proof.Machine

/-!
PROOFS. O37, O38, O41: the walk of DWALK (R200 to R203). Its bits are codes of the trie, whose symbols are put (`walkAll_picks`),
and then the end of the payload, or bits that lead to no leaf. DECODE walks the trie RDHDR has just built.
-/

namespace Sys2Proof.Machine

/-! ### A payload of codes -/

/-- R198: the payload bits of the claims are those DWALK walks. -/
theorem payloadFrom_eq_payload (s : State) (h : Nat) :
    s.env.payloadFrom h 0 (s.env.walkLength h) = s.payload h := by
  rw [Env.walkLength, env_trailer, Env.payloadFrom]
  simp only [Nat.zero_add]
  rfl

/-- The datapath when DWALK has put the symbols `syms` and found the pad count `pad` (log 9). -/
def Datapath.dwalkEnd (d : Datapath) (syms : List Byte) (rp : Word) (usr : Byte) (ub : BitVec 4) (pad : Nat) : Datapath :=
  { d with
    out := d.out.writeAll 0 syms, wp := BitVec.ofNat 32 syms.length, rp := rp, usr := usr, ub := ub, bitsLeft := 0
    cur := 0, dstate := .atRoot, pad := BitVec.ofNat 3 pad }

section
variable {e : Env} {d d' : Datapath}

/-- R198: each bit of the walk is counted in BITS_LEFT. -/
theorem walkBit_bitsLeft (h : walkBit e d = .ok d') : d'.bitsLeft = d.bitsLeft - 1 := by
  obtain ⟨rp, usr, ub, hn⟩ := nextBit_frame e d
  change _ = d.withUnpacker rp usr ub (d.bitsLeft - 1) at hn
  rw [walkBit, hn, walkStep_withUnpacker] at h
  cases hw : walkStep e (nextBit e d).1 d with
  | error x => rw [hw] at h; cases h
  | ok d1 => rw [hw] at h; cases h; rfl

/-- R198: a whole walk uses BITS_LEFT up (log 9). -/
theorem loop_walkBit_bitsLeft {n : Nat} (hn : d.bitsLeft = BitVec.ofNat 35 n) (h : loop (walkBit e) n d = .ok d') :
    d'.bitsLeft = 0 := by
  induction n generalizing d with
  | zero => cases h; exact hn
  | succ n ih =>
    cases hb : walkBit e d with
    | error x => rw [loop_succ_error _ n hb] at h; cases h
    | ok d1 =>
      rw [loop_succ_ok _ n hb] at h
      refine ih ?_ h
      rw [walkBit_bitsLeft hb, hn, BitVec.ofNat_add]
      exact BitVec.add_sub_cancel _ _

variable {picks : List (List Bool × Byte)} (hp : e.paddingOk d.dh.toNat)
  (hpicks : ∀ x ∈ picks, trieSymbol d.tnode 0 x.1 = some x.2) (hfit : picks.length ≤ e.outCap) (hcap : e.outCap < 2 ^ 32)
include hp hpicks hfit hcap

/-- R200: DWALK of a payload that begins with codes of the trie, which fit OUT: their symbols are put, and the walk goes on from
the root. -/
theorem loop_walkBit_picks {rest : List Bool}
    (hbits : e.payloadFrom d.dh.toNat 0 (e.walkLength d.dh.toNat) = picks.flatMap Prod.fst ++ rest) :
    ∃ rp usr ub bl,
      loop (walkBit e) (e.walkLength d.dh.toNat) (walkStart (e.walkLength d.dh.toNat) d) =
        (walkAll e rest ((walkStart (e.walkLength d.dh.toNat) d).putBytes (picks.map Prod.snd)).toRoot).map
          (·.withUnpacker rp usr ub bl) := by
  have hn : e.walkLength d.dh.toNat ≤ 8 * (e.inLen.toNat - 4 - d.dh.toNat) := Nat.sub_le _ _
  obtain ⟨hh, -⟩ := hp
  obtain ⟨rp, usr, ub, bl, hloop⟩ := loop_walkBit_eq (fed_walkStart e (e.walkLength d.dh.toNat) d)
    (n := e.walkLength d.dh.toNat) (by omega)
  have hput : putAll e (picks.map Prod.snd) (walkStart (e.walkLength d.dh.toNat) d) =
      .ok ((walkStart (e.walkLength d.dh.toNat) d).putBytes (picks.map Prod.snd)) :=
    putAll_ok _ ((Nat.zero_add _).trans_le (by rwa [List.length_map])) hcap
  refine ⟨rp, usr, ub, bl, ?_⟩
  rw [hloop, hbits, walkAll_append, walkAll_picks (d := walkStart _ d) rfl hpicks, hput]
  rfl

/-- R200, R203: DWALK of a payload of codes. -/
theorem phaseDwalk_ok (hbits : e.payloadFrom d.dh.toNat 0 (e.walkLength d.dh.toNat) = picks.flatMap Prod.fst) :
    ∃ rp usr ub, phaseDwalk e d = .ok (d.dwalkEnd (picks.map Prod.snd) rp usr ub e.trailer.toNat) := by
  obtain ⟨rp, usr, ub, bl, hloop⟩ := loop_walkBit_picks hp hpicks hfit hcap (rest := []) (by rw [hbits, List.append_nil])
  obtain rfl : bl = 0 := loop_walkBit_bitsLeft (d := walkStart _ d) rfl hloop
  refine ⟨rp, usr, ub, ?_⟩
  rw [phaseDwalk_walk hp, hloop]
  exact congrArg (fun wp => Except.ok { d.dwalkEnd (picks.map Prod.snd) rp usr ub e.trailer.toNat with wp := wp })
    (BitVec.zero_add _)

end

/-- R36, R207: the result of a walk that has ended. -/
theorem dwalkEnd_result {t : State} {d : Datapath} {syms : List Byte} {rp : Word} {usr : Byte} {ub : BitVec 4} {pad : Nat}
    (hdp : t.dp = d.dwalkEnd syms rp usr ub pad) (hlen : t.outLen = t.dp.wp) (hfit : syms.length < 2 ^ 32)
    (hpad : pad ≤ 7) :
    t.outLen.toNat = syms.length ∧ t.outBytes 0 syms.length = syms ∧
      (∀ a, syms.length ≤ a → t.dp.out.read a = d.out.read a) ∧ t.dp.pad.toNat = pad := by
  rw [hlen, State.outBytes, hdp]
  exact ⟨Nat.mod_eq_of_lt hfit, Memory.map_read_writeAll d.out 0 syms,
    fun a ha => Memory.read_writeAll_outside d.out 0 syms (.inr ((Nat.zero_add _).trans_le ha)),
    Nat.mod_eq_of_lt (by omega)⟩

/-- Settles O37: the one phase of DWALK puts the symbols from WP = 0 on. -/
theorem dwalkEmitsTheSymbols : Obligations.DwalkEmitsTheSymbols := by
  intro s picks hr hv hin hcap hpad hpicks hbits hfit
  obtain ⟨rp, usr, ub, hphase⟩ := phaseDwalk_ok (e := s.env) ((env_paddingOk_iff s _).2 hpad) hpicks hfit hcap
    ((payloadFrom_eq_payload s _).trans hbits)
  obtain ⟨-, -, h7, -⟩ := hpad
  rw [env_trailer] at hphase
  obtain ⟨hlen, hbytes, hrest, hpad⟩ := dwalkEnd_result
    (t := succeedWith .dwalk (s.dp.dwalkEnd (picks.map Prod.snd) rp usr ub s.trailer.toNat) s) rfl rfl
    (by rw [List.length_map]; omega) (by omega)
  rw [List.length_map] at hlen hbytes hrest
  exact ⟨_, exec_of_phase_ok (p := .dwalk) rfl rfl hr (prerequisite_dwalk hv hin) hphase, hlen, hbytes, hrest, hpad, rfl⟩

/-! ### Bits that reach no leaf -/

theorem finishWalk_withUnpacker (pad : Int) (d : Datapath) (rp : Word) (usr : Byte) (ub : BitVec 4) (bl : BitVec 35) :
    finishWalk pad (d.withUnpacker rp usr ub bl) = (finishWalk pad d).map (·.withUnpacker rp usr ub bl) := by
  by_cases hc : d.cur ≠ 0
  · rw [finishWalk, finishWalk, if_pos hc, if_pos (show (d.withUnpacker rp usr ub bl).cur ≠ 0 from hc)]
    rfl
  · rw [finishWalk, finishWalk, if_neg hc, if_neg (show ¬ (d.withUnpacker rp usr ub bl).cur ≠ 0 from hc)]
    rfl

/-- R202, R203: bits none of which lead to a leaf, from the root or from inside the tree. -/
theorem walkAll_noLeaf {e : Env} {t : Trie} {n : Nat} (ht : TrieClosed n t) (pad : Int) {rest : List Bool} {d : Datapath}
    (hd : OnTrie t d) (hne : rest ≠ [] ∨ d.cur ≠ 0) (h : ∀ p, p <+: rest → trieSymbol d.tnode d.cur p = none) :
    (walkAll e rest d).bind (finishWalk pad) = .error (.raise .corruptContainer) := by
  induction rest generalizing d with
  | nil => exact if_pos (hne.resolve_left (by simp))
  | cons b rest ih =>
    rw [walkAll]
    have hlt := hd.next_lt ht b
    by_cases h0 : d.next b = 0
    · rw [walkStep_absent h0]
      rfl
    have hcap : (d.next b).toNat < trieCap := ht.lt_trieCap hlt
    cases hl : (d.tnode.read (d.next b)).leaf with
    | true =>
      have hsome := trieSymbol_leaf h0 hcap hl
      rw [h [b] (by simp)] at hsome
      cases hsome
    | false =>
      rw [walkStep_inner h0 hcap hl]
      refine ih (d := { d with cur := d.next b, dstate := .atInternal }) ⟨hd.mem, hlt⟩ (.inr h0) fun p hp => ?_
      rw [← h (b :: p) (by simpa using hp)]
      exact (trieSymbol_inner p h0 hcap hl).symm

/-- Settles O38: the walk goes on from the root behind the last whole code. -/
theorem dwalkRefusesBitsThatReachNoLeaf : Obligations.DwalkRefusesBitsThatReachNoLeaf := by
  intro s picks rest hr hv hin hcap hpad hpicks hbits hfit htrie hne hnone
  obtain ⟨e, old, a, hread, -, -⟩ := htrie
  have hp := (env_paddingOk_iff s _).2 hpad
  obtain ⟨rp, usr, ub, bl, hloop⟩ := loop_walkBit_picks (e := s.env) hp hpicks hfit hcap
    ((payloadFrom_eq_payload s _).trans hbits)
  have ht := trieClosed_of_readHeader hread
  have hwalk := walkAll_noLeaf (e := s.env) ht s.env.trailer (d :=
    ((walkStart (s.env.walkLength s.dp.dh.toNat) s.dp).putBytes (picks.map Prod.snd)).toRoot) ⟨rfl, ht.pos⟩ (.inl hne) hnone
  refine exec_of_phase_raise (p := .dwalk) rfl rfl hr (prerequisite_dwalk hv hin) ?_
  refine (phaseDwalk_walk hp).trans ?_
  rw [hloop]
  cases hw : walkAll s.env rest
      ((walkStart (s.env.walkLength s.dp.dh.toNat) s.dp).putBytes (picks.map Prod.snd)).toRoot with
  | error x => rw [hw] at hwalk; exact hwalk
  | ok d =>
    rw [hw] at hwalk
    exact (finishWalk_withUnpacker _ d rp usr ub bl).trans (congrArg _ hwalk)

/-! ### DECODE -/

/-- R204: DECODE of a good header and a payload of its codes: the trie, then the symbols. -/
theorem phasesRun_decode_ok {s : State} {picks : List HeaderEntry} (hg : s.goodHeader)
    (hpad : s.paddingOk (4 + 9 * s.headerCount.toNat)) (hpicks : ∀ x ∈ picks, x ∈ s.entries)
    (hbits : s.payload (4 + 9 * s.headerCount.toNat) = picks.flatMap HeaderEntry.code)
    (hfit : picks.length ≤ s.outCap) (hcap : s.outCap < 2 ^ 32) :
    ∃ t rp usr ub, phasesRun .decode s.env s.dp =
      .ok ((s.dp.withTrie s.headerCount.toNat t).dwalkEnd (picks.map HeaderEntry.sym) rp usr ub s.trailer.toNat) := by
  obtain ⟨t, hrdhdr, -, hT⟩ := phaseRdhdr_good hg s.dp
  obtain ⟨-, hdh⟩ := withTrie_da_dh hg.1 s.dp t
  rw [← hdh] at hpad hbits
  have hsym : ∀ x ∈ picks.map HeaderEntry.pick, trieSymbol t.mem 0 x.1 = some x.2 := by
    intro y hy
    obtain ⟨x, hx, rfl⟩ := List.mem_map.1 hy
    exact (trieSymbol_of_goodHeader hg hT _ _).2 ⟨x, hpicks x hx, rfl, rfl⟩
  obtain ⟨rp, usr, ub, hdwalk⟩ := phaseDwalk_ok (e := s.env) (d := s.dp.withTrie s.headerCount.toNat t)
    ((env_paddingOk_iff s _).2 hpad) hsym (by rwa [List.length_map]) hcap
    ((payloadFrom_eq_payload s _).trans (by rw [hbits, List.flatMap_map]; rfl))
  rw [env_trailer, List.map_map] at hdwalk
  exact ⟨t, rp, usr, ub, (runAll_cons_ok [phaseDwalk] hrdhdr).trans ((runAll_singleton _).trans hdwalk)⟩

/-- Settles O41: the payload's codes are codes of the trie that RDHDR has built (O35). -/
theorem decodeWritesTheSymbols : Obligations.DecodeWritesTheSymbols := by
  intro s picks hr hin hcap hg hpad hpicks hbits hfit
  obtain ⟨trie, rp, usr, ub, hrun⟩ := phasesRun_decode_ok hg hpad hpicks hbits hfit hcap
  obtain ⟨hda, hdh⟩ := withTrie_da_dh hg.1 s.dp trie
  obtain ⟨-, -, h7, -⟩ := hpad
  have hend : commandEnd .decode s = .ok (succeedWith .decode _ s) :=
    (commandEnd_of_prerequisite (by simp [prerequisite, neededFlag, hin])).trans (congrArg _ hrun)
  obtain ⟨hlen, hbytes, hrest, hpad⟩ := dwalkEnd_result
    (t := succeedWith .decode ((s.dp.withTrie s.headerCount.toNat trie).dwalkEnd (picks.map HeaderEntry.sym) rp usr ub
      s.trailer.toNat) s) rfl rfl (by rw [List.length_map]; omega) (by omega)
  rw [List.length_map] at hlen hbytes hrest
  exact ⟨_, ((exec_completes_iff rfl hr).2 hend).1, hlen, hbytes, hrest, hpad, hda, hdh, rfl⟩

end Sys2Proof.Machine

/-!
PROOFS. O42: DECODE after ENCODE (R208). An ENCODE that succeeds has left the container of its input (O33); to RDHDR the container's
header is good, with the codes of the alphabet as its entries, and to DWALK its payload is the codes of the input's bytes, so that
DECODE puts those bytes (O41).
-/

namespace Sys2Proof.Machine

/-! ### An ENCODE that succeeds -/

/-- R175, R68: what a PACK that ends has put lies in OUT. -/
theorem phasePack_fits {e : Env} {d d' : Datapath} (hcap : e.outCap < 2 ^ 32) (h : phasePack e d = .ok d') :
    4 + 9 * d.nsyms.toNat + (packBytes ⟨d.codeLen, d.codeVal⟩ (e.bytesFrom 0 e.inLen.toNat)).length ≤ e.outCap := by
  obtain ⟨hl, hc, -⟩ := phasePack_end h
  obtain ⟨csr, hput⟩ := phasePack_eq_putAll hl hc
  have hne : packBytes ⟨d.codeLen, d.codeVal⟩ (e.bytesFrom 0 e.inLen.toNat) ≠ [] :=
    List.ne_nil_of_length_pos (by rw [packBytes_length]; omega)
  rw [hput] at h
  cases hd : putAll e (packBytes ⟨d.codeLen, d.codeVal⟩ (e.bytesFrom 0 e.inLen.toNat)) (packStart d) with
  | error x => rw [hd] at h; cases h
  | ok d1 =>
    rw [← payloadStart_toNat]
    exact (putAll_inv hne hcap hd).1

/-- R174, R175: so does the container when WRHDR and PACK behind it end. -/
theorem container_fits {s : State} {d d' : Datapath} (hcap : s.outCap < 2 ^ 32)
    (hlen : (header d.nsyms ⟨d.codeLen, d.codeVal⟩).length = 4 + 9 * d.nsyms.toNat)
    (h : runAll [phaseWrhdr, phasePack] s.env d = .ok d') :
    (container d.nsyms ⟨d.codeLen, d.codeVal⟩ s.input).length ≤ s.outCap := by
  obtain ⟨d1, hwrhdr, hpack⟩ := runAll_cons_inv h
  rw [runAll_singleton] at hpack
  obtain ⟨out, wp, rfl⟩ := putAll_frame hwrhdr
  rw [container_eq, List.length_append, hlen, ← bytesFrom_all]
  exact phasePack_fits (d := { { d with wp := 0 } with out := out, wp := wp }) hcap hpack

/-- R177: what an ENCODE that ends has found: an input, its tree and codes, and room for the container. -/
theorem phasesRun_encode_inv {s : State} {d : Datapath} (hcap : s.outCap < 2 ^ 32)
    (h : phasesRun .encode s.env s.dp = .ok d) :
    s.inLen ≠ 0 ∧ ∃ t c, buildTree (countTable s.input) = .ok t ∧ assignCodes t.node t.root = .ok c ∧
      (container t.nsyms c s.input).length ≤ s.outCap := by
  have hl : s.inLen ≠ 0 := by
    intro hl
    have hempty : phasesRun .encode s.env s.dp = .error (.raise .emptyInput) :=
      runAll_cons_error _ (phaseFreq_empty (e := s.env) s.dp hl)
    rw [hempty] at h
    cases h
  obtain ⟨t, ht⟩ := buildTree_input hl
  rw [phasesRun_encode hl ht] at h
  -- the counts as a variable, so that no unfolding below runs into their table
  obtain ⟨freq, hfreq⟩ : ∃ freq, countTable s.input = freq := ⟨_, rfl⟩
  rw [hfreq] at h ht ⊢
  obtain ⟨-, c, hc⟩ | ⟨-, hc⟩ := assignCodes_cases ht
  · rw [runAll_cons_ok _ (phaseAssign_ok (d := s.afterBuild freq t) hc)] at h
    exact ⟨hl, t, c, ht, hc,
      container_fits (d := (s.afterBuild freq t).withCodes c) hcap (header_length_of_assignCodes ht hc) h⟩
  · cases (runAll_cons_error _ (phaseAssign_error (d := s.afterBuild freq t) hc)).symm.trans h

/-! ### Fields read back -/

/-- A number below 2^31 is its own two's complement value. -/
theorem signed32_of_lt {v : Nat} (h : v < 2 ^ 31) : signed32 v = v := if_pos h

/-- R62: the four digits of a number stand for it. -/
theorem fieldAt_of_digits {m : Memory} {a v : Nat} (hv : v < 2 ^ 32)
    (h : ∀ k < 4, m.read (a + k) = BitVec.ofNat 8 (v / 256 ^ k)) : fieldAt m a = v := by
  have hdigit {k : Nat} (hk : k < 4) : (m.read (a + k)).toNat = v / 256 ^ k % 256 := by
    rw [h k hk, BitVec.toNat_ofNat]
  simp only [fieldAt, List.range_succ, List.range_zero, List.nil_append, List.map_cons, List.map_nil, List.cons_append,
    List.sum_cons, List.sum_nil, hdigit (k := 0) (by decide), hdigit (k := 1) (by decide), hdigit (k := 2) (by decide),
    hdigit (k := 3) (by decide)]
  omega

theorem read_of_input {s : State} {bs : List Byte} (h : s.input = bs) {k : Nat} {v : Byte} (hk : bs[k]? = some v) :
    s.inp.read k = v := by
  subst h
  rw [State.input, List.getElem?_map, Option.map_eq_some_iff] at hk
  obtain ⟨a, ha, rfl⟩ := hk
  obtain ⟨hlt, hka⟩ := List.getElem?_eq_some_iff.1 ha
  rw [← hka, List.getElem_range]

/-! ### The payload read back -/

/-- R46: bit `i` of what ACC holds is the `i`-th of the bits pushed last. -/
theorem accOf_getLsbD (p : List Bool) {i : Nat} (hi : i < 8) : (accOf p).getLsbD i = p.reverse.getD i false := by
  induction p using List.reverseRecOn generalizing i with
  | nil => simp
  | append_singleton p b ih =>
    rw [accOf_concat, List.reverse_append, List.reverse_singleton, List.singleton_append]
    cases i with
    | zero => simp
    | succ i =>
      rw [List.getD_cons_succ, ← ih (by omega)]
      rw [BitVec.getLsbD_or, BitVec.getLsbD_shiftLeft]
      simp [hi]

/-- R63, R102: a payload byte holds the bits that DEC takes from it. -/
theorem payloadByte_getLsbD (bits : List Bool) (j : Nat) {i : Nat} (hi : i < 8) :
    (payloadByte bits j).getLsbD (7 - i) = bits.getD (8 * j + i) false := by
  rw [payloadByte_eq_accOf, accOf_getLsbD _ (by omega), List.getD_eq_getElem?_getD, List.getElem?_reverse (by simp; omega)]
  have hidx : 8 - 1 - (7 - i) = i := by omega
  simp [hidx, hi]

section
variable {s : State} {hdr : List Byte} {bits : List Bool} (hT : 1 ≤ bits.length)
  (hin : s.input = hdr ++ (payloadBytes bits ++ fieldBytes (padCount bits)))
include hin

theorem inLen_of_container : s.inLen.toNat = hdr.length + payloadLength bits + 4 := by
  rw [← input_length, hin]
  simp [payloadBytes, fieldBytes, Nat.add_assoc]

/-- R99: the trailer behind a payload is its pad count. -/
theorem trailer_of_container : s.trailer = padCount bits := by
  have hpad := padCount_lt bits
  have hend : s.inLen.toNat - 4 = hdr.length + payloadLength bits := by rw [inLen_of_container hin]; omega
  have hfield : fieldAt s.inp (s.inLen.toNat - 4) = padCount bits := by
    refine fieldAt_of_digits (by omega) fun k hk => read_of_input hin ?_
    have hidx : hdr.length + payloadLength bits + k - hdr.length - payloadLength bits = k := by omega
    rw [hend, List.getElem?_append_right (by omega), List.getElem?_append_right (by simp [payloadBytes]; omega)]
    rw [payloadBytes, List.length_map, List.length_range, hidx, fieldBytes_getElem? _ hk]
  rw [State.trailer, hfield, signed32_of_lt (by omega)]

include hT

/-- R173, R199: the pad count of a payload passes DWALK's tests. -/
theorem paddingOk_of_container : s.paddingOk hdr.length := by
  have hpad := padCount_lt bits
  obtain ⟨h1, hlt, -⟩ := padCount_legal hT rfl
  rw [State.paddingOk, trailer_of_container hin, inLen_of_container hin]
  omega

/-- R98, R102, R198: DEC takes from a payload the bits it was made of. -/
theorem payload_of_container : s.payload hdr.length = bits := by
  obtain ⟨-, -, hsum⟩ := padCount_legal hT rfl
  have hlen : 8 * (s.inLen.toNat - 4 - hdr.length) - s.trailer.toNat = bits.length := by
    rw [trailer_of_container hin, inLen_of_container hin, Int.toNat_natCast]
    omega
  rw [State.payload, hlen]
  refine List.ext_getElem (by simp) fun k hk hk' => ?_
  have hbyte : s.inp.read (hdr.length + k / 8) = payloadByte bits (k / 8) := by
    have hlt : k / 8 < payloadLength bits := by
      rw [payloadLength]
      omega
    refine read_of_input hin ?_
    rw [List.getElem?_append_right (by omega), Nat.add_sub_cancel_left, List.getElem?_append_left (by simpa [payloadBytes])]
    simp [payloadBytes, hlt]
  have hidx : 8 * (k / 8) + k % 8 = k := by omega
  rw [List.getElem_map, List.getElem_range, hbyte, payloadByte_getLsbD _ _ (by omega), hidx, List.getD_eq_getElem]

end

/-! ### The header read back -/

/-- The header entry of a coded symbol (R97). -/
def CodeTable.headerEntry (c : CodeTable) (b : Byte) : HeaderEntry := ⟨b, (entry c.len b).toNat, (entry c.val b).toNat⟩

section
variable {s : State} {n : BitVec 9} {c : CodeTable} {rest : List Byte} (hin : s.input = header n c ++ rest)
include hin

theorem read_of_header {k : Nat} {v : Byte} (hk : (header n c)[k]? = some v) : s.inp.read k = v := by
  obtain ⟨hlt, -⟩ := List.getElem?_eq_some_iff.1 hk
  exact read_of_input hin (by rw [List.getElem?_append_left hlt, hk])

/-- R96: the alphabet size is read back. -/
theorem headerCount_of_header : s.headerCount = n.toNat := by
  have hn := n.isLt
  have hfield : fieldAt s.inp 0 = n.toNat :=
    fieldAt_of_digits (by omega) fun k hk => read_of_header hin (by rw [Nat.zero_add, header_getElem?_size _ _ hk])
  rw [State.headerCount, hfield, signed32_of_lt (by omega)]

/-- R97: the entry of the `j`-th coded symbol is read back. -/
theorem headerEntryAt_of_header {j : Nat} {b : Byte} (hj : (codedSymbols c.len)[j]? = some b) :
    headerEntryAt s.inp (4 + 9 * j) = c.headerEntry b := by
  have hlen := (entry c.len b).isLt
  have hval := (entry c.val b).isLt
  have hsym : s.inp.read (4 + 9 * j) = b := read_of_header hin (header_getElem?_entry _ hj (k := 0) (by decide))
  have hl : fieldAt s.inp (4 + 9 * j + 1) = (entry c.len b).toNat :=
    fieldAt_of_digits (by omega) fun k hk => read_of_header hin (by
      rw [Nat.add_assoc, header_getElem?_entry _ hj (by omega), headerEntryBytes_len c b hk])
  have hv : fieldAt s.inp (4 + 9 * j + 5) = (entry c.val b).toNat :=
    fieldAt_of_digits (by omega) fun k hk => read_of_header hin (by
      rw [Nat.add_assoc, header_getElem?_entry _ hj (by omega), headerEntryBytes_val c b hk])
  rw [headerEntryAt, hsym, hl, hv, signed32_of_lt (by omega)]
  rfl

end

section
variable {freq : WordTable} {t : Tree} {c : CodeTable} (ht : buildTree freq = .ok t) (hc : assignCodes t.node t.root = .ok c)
include ht hc

/-- R43, R193: the entries of an assigned table are legal. -/
theorem headerEntry_legal {b : Byte} (hb : b ∈ alphabet freq) : (c.headerEntry b).legal := by
  obtain ⟨h32, hval⟩ := codesInRange_of_assignCodes hc b
  have hne := (coded_iff_of_assignCodes ht hc b).2 (mem_alphabet.1 hb)
  have hpos : (entry c.len b).toNat ≠ 0 := fun h => hne (BitVec.eq_of_toNat_eq h)
  refine ⟨?_, ?_, fun _ => hval⟩
  · show (1 : Int) ≤ (entry c.len b).toNat
    omega
  · show ((entry c.len b).toNat : Int) ≤ 32
    omega

/-- R165: no code of the alphabet starts another. -/
theorem prefixFree_alphabet : prefixFree ((alphabet freq).map (codeOf c)) := by
  refine List.pairwise_map.2 ((alphabet_nodup freq).imp_of_mem fun ha hb hne => ⟨fun h => hne ?_, fun h => hne ?_⟩)
  · exact eq_of_code_prefix ht hc (mem_alphabet.1 ha) (mem_alphabet.1 hb) h
  · exact (eq_of_code_prefix ht hc (mem_alphabet.1 hb) (mem_alphabet.1 ha) h).symm

variable {s : State} {rest : List Byte} (hin : s.input = header t.nsyms c ++ rest)
include hin

/-- R95, R97: the entries read are those of the alphabet, in its order. -/
theorem entries_of_header : s.entries = (alphabet freq).map c.headerEntry := by
  have hn : s.headerCount.toNat = (alphabet freq).length := by
    rw [headerCount_of_header hin, Int.toNat_natCast, (builtTree ht).nsyms]
  rw [State.entries, headerEntries, hn]
  refine List.ext_getElem (by simp) fun j hj hj' => ?_
  rw [List.getElem_map, List.getElem_map, List.getElem_range]
  refine headerEntryAt_of_header hin ?_
  rw [codedSymbols_of_assignCodes ht hc, List.getElem?_eq_getElem]

/-- R208: RDHDR accepts the header that the encoder writes. -/
theorem goodHeader_of_header : s.goodHeader := by
  have hn := (builtTree ht).nsyms
  have hpos : 1 ≤ (alphabet freq).length := List.length_pos_iff.2 (buildTree_ok_inv ht).1
  have h256 := alphabet_length_le freq
  have hlen : (header t.nsyms c).length ≤ s.inLen.toNat := by
    rw [← input_length, hin, List.length_append]
    exact Nat.le_add_right _ _
  rw [header_length_of_assignCodes ht hc] at hlen
  refine ⟨?_, ?_, ?_⟩
  · rw [State.headerFits, headerCount_of_header hin, Int.toNat_natCast]
    omega
  · rw [entries_of_header ht hc hin, List.forall_mem_map]
    exact fun b hb => headerEntry_legal ht hc hb
  · rw [entries_of_header ht hc hin, List.map_map]
    exact prefixFree_alphabet ht hc

end

/-! ### DECODE of the container -/

/-- R208: DECODE of the container of an input puts the input. -/
theorem decode_container {freq : WordTable} {t : Tree} {c : CodeTable} {s : State} {input : List Byte}
    (ht : buildTree freq = .ok t) (hc : assignCodes t.node t.root = .ok c) (hne : input ≠ [])
    (halpha : ∀ b ∈ input, b ∈ alphabet freq) (hr : s.ready) (hcap : s.outCap < 2 ^ 32) (hin : s.inLen.toNat ≤ s.inCap)
    (hinput : s.input = container t.nsyms c input) (hfit : input.length ≤ s.outCap) :
    ∃ t', exec .decode s = .next t' ∧ t'.status.err = false ∧ t'.outLen.toNat = input.length ∧
      t'.outBytes 0 input.length = input := by
  have hT : 1 ≤ (payloadBits c input).length := payloadBits_length_pos hne fun b hb =>
    (coded_iff_of_assignCodes ht hc b).2 (mem_alphabet.1 (halpha b hb))
  rw [container_eq] at hinput
  have hh : (header t.nsyms c).length = 4 + 9 * s.headerCount.toNat := by
    rw [header_length_of_assignCodes ht hc, headerCount_of_header hinput, Int.toNat_natCast]
  have hcode : (input.map c.headerEntry).flatMap HeaderEntry.code = payloadBits c input := List.flatMap_map ..
  have hsym : (input.map c.headerEntry).map HeaderEntry.sym = input := by
    rw [List.map_map]
    exact List.map_id' input
  obtain ⟨t', hexec, hlen, hbytes, -, -, -, -, hstate⟩ := decodeWritesTheSymbols s (input.map c.headerEntry) hr hin hcap
    (goodHeader_of_header ht hc hinput) (hh ▸ paddingOk_of_container hT hinput)
    (fun x hx => by
      obtain ⟨b, hb, rfl⟩ := List.mem_map.1 hx
      rw [entries_of_header ht hc hinput]
      exact List.mem_map_of_mem (halpha b hb))
    (by rw [hcode, ← hh]; exact payload_of_container hT hinput) (by rwa [List.length_map])
  rw [List.length_map] at hlen hbytes
  rw [hsym] at hbytes
  exact ⟨t', hexec, by rw [hstate]; exact hr.2, hlen, hbytes⟩

/-- Settles O42: ENCODE has left the container of its input, which is what DECODE reads. -/
theorem decodeInvertsEncode : Obligations.DecodeInvertsEncode := by
  intro s t s' hr hcap henc herr hr' hcap' hinput hin' hfit
  obtain ⟨hp, d, hrun, -⟩ := commandEnd_inv ((exec_completes_iff rfl hr).1 ⟨henc, herr⟩)
  have hin : s.inLen.toNat ≤ s.inCap := by simpa [prerequisite, neededFlag, readsIn] using hp
  obtain ⟨hl, tree, c, ht, hc, hroom⟩ := phasesRun_encode_inv hcap hrun
  have hpos : 0 < s.inLen.toNat := Nat.pos_of_ne_zero fun h => hl (BitVec.eq_of_toNat_eq h)
  obtain ⟨t0, henc0, -, hbytes, -⟩ := encodeWritesTheContainer s tree c hr hpos hin hcap ht hc hroom
  obtain rfl : t = t0 := Host.Outcome.next.inj (henc.symm.trans henc0)
  obtain ⟨t', hexec, herr', hlen, hout⟩ := decode_container ht hc (input_ne_nil hl)
    (fun b hb => mem_alphabet.2 ((entry_countTable_ne_zero_iff (input_length_lt s)).2 hb)) hr' hcap' hin'
    (hinput.trans hbytes) (by rwa [input_length])
  refine ⟨t', hexec, herr', BitVec.eq_of_toNat_eq (hlen.trans (input_length s)), ?_⟩
  rw [hlen]
  exact hout

end Sys2Proof.Machine

/-!
PROOFS. O7, O8, O9, O15, O16: faults (R220 to R229, R240 to R242). Every phase raises only the faults of its list
(`phaseFn_raisesOnly`), so a command of a ready core ends in its success or in fault entry with a fault of one of its phases, or
with IllegalCommand where its prerequisite fails (`exec_ready_cases`).
-/

namespace Sys2Proof.Machine

/-! ### Fault entry -/

/-- Settles O8: the fields of fault entry are as its laws say, the codes as R220 lists them. -/
theorem faultEntryFixesTheVisibleState : Obligations.FaultEntryFixesTheVisibleState := fun x s =>
  ⟨(faultEntry_errcode x s).trans (by cases x <;> rfl), faultEntry_status x s, faultEntry_outLen x s, faultEntry_seq x s,
    faultEntry_opl x s, faultEntry_inLen x s, faultEntry_ie x s, faultEntry_inp x s, faultEntry_inCap x s,
    faultEntry_outCap x s, faultEntry_host x s, faultEntry_rdata x s⟩

/-- R220, R240: ERRCODE tells the faults apart. -/
theorem faultEntry_injective (s : State) : Function.Injective (faultEntry · s) := fun _ _ h =>
  HwFault.code_injective (congrArg State.errcode h)

/-! ### Prerequisites -/

section
variable {c : Instr} {s : State}

/-- R121: a command's prerequisite fails at its flag or at IN_LEN. -/
theorem prerequisite_eq_false_iff :
    prerequisite c s = false ↔ neededFlag c s.status = false ∨ (readsIn c = true ∧ s.inCap < s.inLen.toNat) := by
  rw [prerequisite, Bool.and_eq_false_iff]
  simp

/-- R121, R122: NOP and ACK have no prerequisite. -/
theorem operational_of_prerequisite_eq_false (hp : prerequisite c s = false) : operational c = true := by
  cases c with
  | nop | ack => cases hp
  | _ => rfl

/-- R121: with its prerequisite met a command stops where its phases stop. -/
theorem commandEnd_error_iff {x : Stop} (hp : prerequisite c s = true) :
    commandEnd c s = .error x ↔ phasesRun c s.env s.dp = .error x := by
  rw [commandEnd_of_prerequisite hp]
  cases phasesRun c s.env s.dp <;> simp [Except.map]

variable (hr : s.ready) (hp : prerequisite c s = false)
include hr hp

theorem exec_refused : exec c s = .next (faultEntry .illegalCommand s) :=
  (exec_raises_iff (operational_of_prerequisite_eq_false hp) hr).2 (commandEnd_refused hp)

theorem startCommand_refused : startCommand c s = faultEntry .illegalCommand s := by
  rw [startCommand_operational (operational_of_prerequisite_eq_false hp), offer_not_dropped (not_dropped hr.1 (.inl hr.2)),
    if_neg (by simp [hp])]
  rfl

end

/-- Settles O7: in each of the cases the prerequisite fails. -/
theorem unmetPrerequisiteRaisesIllegalCommand : Obligations.UnmetPrerequisiteRaisesIllegalCommand := by
  intro i s hr h
  have hp : prerequisite i s = false := by
    rw [prerequisite_eq_false_iff]
    rcases h with ⟨rfl, hf⟩ | ⟨rfl, hf⟩ | ⟨rfl, hf⟩ | ⟨rfl, hf⟩ | ⟨hi, hlen⟩
    · exact .inl hf
    · exact .inl hf
    · exact .inl hf
    · exact .inl hf
    · refine .inr ⟨?_, hlen⟩
      rcases hi with rfl | rfl | rfl | rfl | rfl | rfl <;> rfl
  exact ⟨exec_refused hr hp, startCommand_refused hr hp⟩

/-! ### EmptyInput -/

/-- Settles O15: with IN_LEN = 0 the prerequisite on IN holds, and the first phase raises EmptyInput. -/
theorem emptyInputIsRefused : Obligations.EmptyInputIsRefused := by
  intro s hr hl
  have hin : s.inLen.toNat ≤ s.inCap := by simp [hl]
  have hfreq : phaseFreq s.env s.dp = .error (.raise .emptyInput) := phaseFreq_empty s.dp hl
  have hpack : phasePack s.env s.dp = .error (.raise .emptyInput) := phasePack_empty s.dp hl
  exact ⟨exec_of_phase_raise rfl rfl hr (by simp [prerequisite, neededFlag, hin]) hfreq,
    exec_of_raise rfl hr (by simp [prerequisite, neededFlag, hin]) (runAll_cons_error _ hfreq),
    fun hv => exec_of_phase_raise rfl rfl hr (prerequisite_pack hv hin) hpack⟩

/-! ### EmptyAlphabet -/

theorem alphabet_eq_nil_iff {freq : WordTable} : alphabet freq = [] ↔ ∀ b : Byte, entry freq b = 0 := by
  simp [List.eq_nil_iff_forall_not_mem, mem_alphabet]

/-- R150, R222: there is no tree exactly when every count is 0. -/
theorem buildTree_error_iff {freq : WordTable} {x : HwFault} :
    buildTree freq = .error x ↔ x = .emptyAlphabet ∧ ∀ b : Byte, entry freq b = 0 := by
  rw [buildTree_eq, ← alphabet_eq_nil_iff, ← List.length_eq_zero_iff]
  split
  · next h0 => simp [h0, eq_comm]
  · next h0 => split <;> simp [h0]

theorem phaseBuild_raise_iff {e : Env} {d : Datapath} {x : HwFault} :
    phaseBuild e d = .error (.raise x) ↔ x = .emptyAlphabet ∧ ∀ b : Byte, entry d.freq b = 0 := by
  rw [← buildTree_error_iff]
  cases hb : buildTree d.freq with
  | ok t => simp [phaseBuild_ok hb]
  | error y => simp [phaseBuild_error hb]

/-- Settles O16: BUILD is its phase, without a prerequisite, and ENCODE's list of faults (O10) has no EmptyAlphabet. -/
theorem buildRefusesTheEmptyAlphabet : Obligations.BuildRefusesTheEmptyAlphabet := by
  intro s hr
  constructor
  · have hrun : phasesRun .build s.env s.dp = phaseBuild s.env s.dp := runAll_singleton phaseBuild
    rw [exec_raises_iff rfl hr, commandEnd_error_iff rfl, hrun, phaseBuild_raise_iff, and_iff_right rfl]
  · intro h
    rcases encodeRaisesOnlyItsOwnFaults s _ hr h rfl with hx | hx | hx | hx <;> cases faultEntry_injective s hx

/-! ### A visit of ASSIGN, case by case -/

section
variable {t : NodeTable} {i : NodeIdx} (room d : Nat) (v : Word) (c : CodeTable)

theorem visit_noRecord (h : nodeAt t i = none) : visit t room i d v c = .error (.stuck .freeNodeVisited) := by
  unfold visit
  simp only [h]

variable {r : Node} (h : nodeAt t i = some r)
include h

theorem visit_free (hk : r.kind = .free) : visit t room i d v c = .error (.stuck .freeNodeVisited) := by
  unfold visit
  simp only [h, hk]

/-- R161: an INTERNAL record is a visit of the left child and then one of the right child. -/
theorem visit_internal_eq_bind (hk : r.kind = .internal) :
    visit t (room + 1) i d v c = (visit t room r.left (d + 1) (2 * v) c).bind (visit t room r.right (d + 1) (2 * v + 1)) := by
  rw [visit_internal room d v c h hk]
  cases visit t room r.left (d + 1) (2 * v) c <;> rfl

end

/-! ### Which faults a result can be -/

/-- The result is there, or the model is stuck, or the hardware raises one of the faults `L`. -/
def RaisesOnly {α : Type} (L : List HwFault) (r : Except Stop α) : Prop := ∀ x, r = .error (.raise x) → x ∈ L

namespace RaisesOnly

variable {α β : Type} {L : List HwFault}

theorem ok (a : α) : RaisesOnly L (Except.ok a) := fun _ h => by cases h

theorem stuck (x : Fault) : RaisesOnly L (Except.error (.stuck x) : Except Stop α) := fun _ h => by cases h

theorem raise {x : HwFault} (hx : x ∈ L) : RaisesOnly L (Except.error (.raise x) : Except Stop α) := fun _ h => by
  cases h
  exact hx

theorem bind {r : Except Stop α} {g : α → Except Stop β} (hr : RaisesOnly L r) (hg : ∀ a, RaisesOnly L (g a)) :
    RaisesOnly L (r.bind g) := by
  cases r with
  | ok a => exact hg a
  | error y => exact fun x h => hr x (by cases h; rfl)

theorem map {r : Except Stop α} (g : α → β) (hr : RaisesOnly L r) : RaisesOnly L (r.map g) := hr.bind fun a => ok (g a)

theorem loop {f : α → Except Stop α} (hf : ∀ a, RaisesOnly L (f a)) (n : Nat) (a : α) : RaisesOnly L (loop f n a) := by
  induction n generalizing a with
  | zero => exact ok a
  | succ n ih =>
    rw [loop_succ]
    exact (hf a).bind ih

/-- R163: a visit of ASSIGN raises nothing but CodeTooLong, whatever NODE holds. -/
theorem visit (hL : .codeTooLong ∈ L) (t : NodeTable) (room : Nat) (i : NodeIdx) (d : Nat) (v : Word) (c : CodeTable) :
    RaisesOnly L (visit t room i d v c) := by
  cases hr : nodeAt t i with
  | none =>
    rw [visit_noRecord room d v c hr]
    exact stuck _
  | some r =>
    cases hk : r.kind with
    | free =>
      rw [visit_free room d v c hr hk]
      exact stuck _
    | placeholder =>
      rw [visit_placeholder room d v c hr hk]
      exact ok _
    | leaf =>
      rw [visit_leaf room d v c hr hk]
      exact ok _
    | internal =>
      cases room with
      | zero =>
        rw [visit_tooLong d v c hr hk]
        exact raise hL
      | succ room =>
        rw [visit_internal_eq_bind room d v c hr hk]
        exact (visit hL t room r.left _ _ c).bind fun c' => visit hL t room r.right _ _ c'

section
variable {e : Env} (ho : .outputOverflow ∈ L)
include ho

theorem put8 (v : Byte) (d : Datapath) : RaisesOnly L (put8 e v d) := by
  rcases put8_cases e v d with ⟨-, h⟩ | ⟨-, h⟩ <;> rw [h]
  · exact ok _
  · exact raise ho

theorem putAll (bs : List Byte) (d : Datapath) : RaisesOnly L (putAll e bs d) := fun x h => by
  cases putAll_error h
  exact ho

theorem pushBit (b : Bool) (d : Datapath) : RaisesOnly L (pushBit e b d) := by
  by_cases h8 : d.nb + 1 = 8
  · rw [pushBit_eq_put8 h8]
    exact (put8 ho _ _).map _
  · rw [pushBit_eq_ok h8]
    exact ok _

theorem sendBit (d : Datapath) : RaisesOnly L (sendBit e d) := by
  rw [sendBit_eq]
  exact (pushBit ho _ d).map _

theorem packByte (hn : .noCode ∈ L) (d : Datapath) : RaisesOnly L (packByte e d) := by
  by_cases hl : entry d.codeLen (e.inByte d.rp) = 0
  · rw [packByte_uncoded hl]
    exact raise hn
  · rw [packByte_coded hl]
    exact loop (sendBit ho) _ _

/-- R175, R176, R221: the faults of PACK. -/
theorem phasePack (hn : .noCode ∈ L) (he : .emptyInput ∈ L) (d : Datapath) : RaisesOnly L (phasePack e d) := by
  by_cases hl : e.inLen = 0
  · rw [phasePack_empty d hl]
    exact raise he
  · rw [phasePack_eq d hl]
    refine (loop (packByte ho hn) _ _).bind fun d' => ?_
    rw [finishPack_eq]
    exact (putAll ho _ d').map _

theorem walkStep (hc : .corruptContainer ∈ L) (bit : Bool) (d : Datapath) : RaisesOnly L (walkStep e bit d) := by
  rcases walkStep_eq e bit d with ⟨-, hw⟩ | ⟨-, -, hw⟩ | ⟨-, -, -, hw⟩ | ⟨-, -, -, ⟨-, hw⟩ | ⟨-, hw⟩⟩ <;> rw [hw]
  · exact raise hc
  · exact stuck _
  · exact ok _
  · exact ok _
  · exact raise ho

/-- R199, R202, R203, R205: the faults of DWALK. -/
theorem phaseDwalk (hc : .corruptContainer ∈ L) (hi : .invalidPadding ∈ L) (d : Datapath) :
    RaisesOnly L (phaseDwalk e d) := by
  by_cases hs : d.dh.toNat + 4 ≤ e.inLen.toNat
  case neg =>
    rw [phaseDwalk_short (Nat.lt_of_not_le hs)]
    exact raise hc
  by_cases hp : e.paddingOk d.dh.toNat
  case neg =>
    rw [phaseDwalk_badPadding hs hp]
    exact raise hi
  rw [phaseDwalk_walk hp]
  refine (loop (fun d => walkStep ho hc _ _) _ _).bind fun d' => ?_
  unfold finishWalk
  split
  · exact raise hc
  · exact ok _

end

end RaisesOnly

/-! ### The faults of the phases and of the commands -/

/-- R220: the faults that a phase raises. -/
def Phase.faults : Phase → List HwFault
  | .clr => []
  | .freq => [.emptyInput]
  | .build => [.emptyAlphabet]
  | .assign => [.codeTooLong]
  | .wrhdr => [.outputOverflow]
  | .pack => [.emptyInput, .noCode, .outputOverflow]
  | .rdhdr => [.corruptHeader]
  | .dwalk => [.corruptContainer, .invalidPadding, .outputOverflow]

theorem phaseFn_raisesOnly (p : Phase) (s : State) (d : Datapath) : RaisesOnly p.faults (phaseFn p s.env d) := by
  cases p with
  | clr => exact .ok _
  | freq =>
    by_cases hl : s.env.inLen = 0
    · rw [phaseFn, phaseFreq_empty d hl]
      exact .raise (by decide)
    · rw [phaseFn, phaseFreq_ok d hl]
      exact .ok _
  | build =>
    intro x h
    obtain ⟨rfl, -⟩ := (phaseBuild_raise_iff (e := s.env)).1 h
    decide
  | assign =>
    have hv : RaisesOnly Phase.assign.faults (assignCodes d.node d.root) := .visit (by decide) _ 32 _ 0 0 _
    rw [phaseFn]
    cases hc : assignCodes d.node d.root with
    | ok c => rw [phaseAssign_ok hc]; exact .ok _
    | error x => rw [phaseAssign_error hc]; exact fun y h => hv y (hc.trans (by cases h; rfl))
  | wrhdr => exact .putAll (by decide) _ _
  | pack => exact .phasePack (by decide) (by decide) (by decide) d
  | rdhdr =>
    rw [phaseFn]
    rcases readHeader_cases s d.tnode with ⟨-, t, hr, -⟩ | ⟨-, hr⟩
    · rw [phaseRdhdr_ok hr]
      exact .ok _
    · rw [phaseRdhdr_error hr]
      exact .raise (by decide)
  | dwalk => exact .phaseDwalk (by decide) (by decide) (by decide) d

/-- R129: phases one after the other raise what one of them raises. -/
theorem runAll_raisesOnly {L : List HwFault} {ps : List Phase} (hL : ∀ p ∈ ps, p.faults ⊆ L) (s : State) (d : Datapath) :
    RaisesOnly L (runAll (ps.map phaseFn) s.env d) := by
  induction ps generalizing d with
  | nil => exact .ok d
  | cons p ps ih =>
    obtain ⟨hp, hps⟩ := List.forall_mem_cons.1 hL
    rw [List.map_cons, runAll_cons]
    exact RaisesOnly.bind (fun x h => hp (phaseFn_raisesOnly p s d x h)) (ih hps)

/-- R220, R228: a command raises a fault of one of its phases, or IllegalCommand where its prerequisite fails. -/
def FaultOf (c : Instr) (s : State) (x : HwFault) : Prop :=
  x ∈ (phasesOf c).flatMap Phase.faults ∨ (x = .illegalCommand ∧ prerequisite c s = false)

section
variable {c : Instr} {s t : State} {x : HwFault}

theorem faultOf_of_commandEnd (h : commandEnd c s = .error (.raise x)) : FaultOf c s x := by
  cases hp : prerequisite c s with
  | false =>
    rw [commandEnd_refused hp] at h
    cases h
    exact .inr ⟨rfl, hp⟩
  | true =>
    have hrun : RaisesOnly ((phasesOf c).flatMap Phase.faults) (phasesRun c s.env s.dp) :=
      runAll_raisesOnly (fun p hp _ hx => List.mem_flatMap.2 ⟨p, hp, hx⟩) s s.dp
    exact .inl (hrun x ((commandEnd_error_iff hp).1 h))

/-- R130, R240, R242: how a command of a ready core ends. -/
theorem exec_ready_cases (ho : operational c = true) (hr : s.ready) (h : exec c s = .next t) :
    t.status.err = false ∨ ∃ x, t = faultEntry x s ∧ FaultOf c s x := by
  rcases (exec_ready_next_iff ho hr).1 h with hend | ⟨x, hend, ht⟩
  · exact .inl (ready_of_commandEnd hr hend).2
  · exact .inr ⟨x, ht, faultOf_of_commandEnd hend⟩

end

/-- Settles O9: the lists of the phases are the table of R220, CLR raises nothing, and BUILD has no prerequisite. -/
theorem faultedCommandIsOnlyFaultEntry : Obligations.FaultedCommandIsOnlyFaultEntry := by
  intro i s t hr h
  cases i with
  | nop => cases (exec_nop_idle hr.1).symm.trans h; exact .inl hr.2
  | ack => cases (exec_ack_idle hr.1).symm.trans h; exact .inl hr.2
  | clr => cases (exec_clr_idle hr.1).symm.trans h; exact .inl rfl
  | build =>
    obtain he | ⟨x, ht, hx | ⟨-, hp⟩⟩ := exec_ready_cases rfl hr h
    · exact .inl he
    · exact .inr ⟨x, ht, List.mem_singleton.1 hx⟩
    · cases hp
  | encode => exact (exec_ready_cases rfl hr h).imp_right fun ⟨x, ht, _⟩ => ⟨x, ht, trivial⟩
  | _ =>
    obtain he | ⟨x, ht, hx⟩ := exec_ready_cases rfl hr h
    · exact .inl he
    · exact .inr ⟨x, ht, by simpa [phasesOf, Phase.faults, or_assoc] using hx.imp_right And.left⟩

end Sys2Proof.Machine

/-!
PROOFS. O60: a hardware reset at any moment (R260).
-/

namespace Sys2Proof.Machine

/-- R260: a pending reset is a host access with no condition on the state, so the step takes it whether BUSY is 1 or 0. -/
theorem step_hwReset {s : State} {ms : List HostMove} (h : s.host = .hwReset :: ms) :
    step s = .next (hwReset { s with host := ms }) :=
  step_hostAccess h rfl

/-- Settles O60: IN, OUT and TNODE are the memories `hwReset` puts there, every other register is as `State.reset` has it. -/
theorem hardwareResetGivesTheResetState : Obligations.HardwareResetGivesTheResetState := by
  intro s ms h
  have hstep : step s = .next (hwReset { s with host := ms }) := step_hwReset h
  exact ⟨⟨[], s.fresh⟩, ⟨[], s.fresh + 1⟩, ⟨[], s.fresh⟩, s.fresh + 2, hstep⟩

end Sys2Proof.Machine
